-- ==== Sys2Proof/Word.lean ====
section
/-! DEFINITION. The byte, the only datum the block moves (spec/00_scope.md R7: the data width is fixed at 8 bits). -/

namespace Sys2Proof

/-- One byte of the queue (R7, R51): stored and returned unchanged, never looked into. -/
abbrev Byte := BitVec 8

end Sys2Proof
end

