-- ==== Sys2Proof/Syntax.lean ====
section
/-! DEFINITION. The block's commands, one constructor per row of spec/opcode_table.json; its ports (R80); the
pseudo-operations of its clients (R89); and the inputs of the step relation (R35): what is presented to the machine
from outside, one entry a step. -/

namespace Sys2Proof

/-- The seven operations of R85. PUSH alone has an operand, `data = pcmd[7:0]` (R81). P_NOP carries nothing: the bits
`pcmd[7:0]` of its 256 words are ignored (R86). -/
inductive Instr where
  | pNop
  | push (data : Byte)
  | cNop
  | pop
  | drain
  | count
  | init
deriving DecidableEq, Repr

/-- The three command inputs of the block (R80): two command ports, one in each domain, and the reset input. -/
inductive Port where
  | pcmd
  | ccmd
  | init
deriving DecidableEq, Repr

/-- The width of a command input (R81, R82, R83). -/
def Port.width : Port → Nat
  | .pcmd => 9
  | .ccmd => 2
  | .init => 1

/-- The two sides of the block (R211): the owner of `head` and the owner of `tail`. -/
inductive Side where
  | producer
  | consumer
deriving DecidableEq, Repr

/-- The two copies of the block in the source's system (R9, R175): receive and transmit. -/
inductive Channel where
  | rx
  | tx
deriving DecidableEq, Repr

/-- The words on the three command inputs in one step. -/
structure Ports where
  pcmd : BitVec 9 := 0
  ccmd : BitVec 2 := 0
  init : BitVec 1 := 0
deriving DecidableEq, Repr

/-- The error kinds the latch can hold (R176, R202). No numeric codes: they are the open parameter ERRCODE. -/
inductive ErrorKind where
  | noError
  | framingError
  | overrunError
  | bufferOverflow
deriving DecidableEq, Repr, Inhabited

/-- The conditions the serial hardware reports with a byte, "mutually representable as a bit set" (R178); their layout
in a status register is not given, so they are named. -/
structure HwStatus where
  framing : Bool
  overrun : Bool
deriving DecidableEq, Repr

/-- What `try_read_byte` returns (R182): a byte with the latched kind, or `NoData`. -/
inductive ReadResult where
  | byte (b : Byte) (k : ErrorKind)
  | noData
deriving DecidableEq, Repr

/-- The five names of R202 that the open parameter ERRCODE gives numbers to. -/
inductive ErrorName where
  | kind (k : ErrorKind)
  | noData
deriving DecidableEq, Repr

/-- The Driver Facade's operations (R181 to R186). `baudConfig` is one uninterpreted value (R189, U4). -/
inductive Call where
  | init (baudConfig : Nat)
  | tryReadByte
  | writeByte (b : Byte)
  | writeString (bs : List Byte)
  | bytesAvailable
  | flushReceive
deriving DecidableEq, Repr

/-- What a facade operation hands back to the application. -/
inductive CallResult where
  | unit
  | read (r : ReadResult)
  | available (n : Nat)
deriving DecidableEq, Repr

/-- The three execution contexts of the source's system (R175, R187). -/
inductive Client where
  | mainline
  | receiveHandler
  | transmitHandler
deriving DecidableEq, Repr

/-- One input of the step relation (R35, R150): which agent steps next and with what. The choice is the outside's, so it
is data the step reads.
* `ports`: one side of one channel takes a step with these words on the command inputs; in the clocked realisation that
  is one clock edge (R145, R146).
* `syncH`, `syncT`: the crossing moves a view by `k` slots (R143, R144).
* `call`, `receive`, `transmitReady`: the application calls the facade, a receive event or a transmit-ready event occurs
  (R177, R179).
* `advance`: a client that is inside an operation takes its next step (R187).
* `globalInterrupts`: the platform switches the global interrupt mechanism (R188 (g), R241). -/
inductive Input where
  | ports (ch : Channel) (side : Side) (p : Ports)
  | syncH (ch : Channel) (k : Nat)
  | syncT (ch : Channel) (k : Nat)
  | call (c : Call)
  | receive (b : Byte) (st : HwStatus)
  | transmitReady
  | advance (c : Client)
  | globalInterrupts (on : Bool)
deriving DecidableEq, Repr

end Sys2Proof
end

