-- ==== Sys2Proof/Config.lean ====
section
/-! DEFINITION. What an implementation fixes: the legal range of the open parameters `N` and `S` (R5, R8), the sizes
State.reset is built with, and the free values. `N` and `S` are fixed when a block is built (R29); each copy of the block
holds its own (R9, N3), so they stand in the state and every statement is for every legal value. -/

namespace Sys2Proof

/-- R5: `1 <= N <= 8`, so the capacity `C = 2^N` is a power of two from 2 to 256; any other is refused. -/
def Config.legalN (N : Nat) : Bool := 1 ≤ N && N ≤ 8

/-- R8: `S >= 2`. -/
def Config.legalS (S : Nat) : Bool := 2 ≤ S

/-- The pointer width State.reset is built with, the source's scenario "capacity 8 (usable 7)". DESIGN CHOICE, log 1. -/
def Config.resetN : Nat := 3

/-- The synchroniser depth State.reset is built with, the default of R8. DESIGN CHOICE, log 1. -/
def Config.resetS : Nat := 2

/-- Free value: what the Last-Receive-Error latch holds before the first receive event (R176, D20, U9: any value).
DESIGN CHOICE, log 5. -/
opaque Config.latchAtPowerUp : ErrorKind

/-- The open parameter ERRCODE (R202, D22): numeric codes of the five names, none given, so none may be assumed. -/
opaque Config.errCode : ErrorName → Nat

end Sys2Proof
end

