-- ==== Sys2Proof/WellFormed.lean ====
section
/-! DEFINITION. The checks on syntax: which numbers are words of a command input, which commands are well formed, which
sizes are a legal configuration. -/

namespace Sys2Proof

/-- A number is a word of a command input when it fits the input's width (R81, R82, R83: "one length only"). -/
def Port.fits (p : Port) (w : Nat) : Bool := w < 2 ^ p.width

/-- Every command is well formed: there is no illegal and no reserved encoding (R86), and the one operand is any byte
(R81). One line per constructor, so that a later constructor cannot slip past. -/
def Instr.wellFormed : Instr → Bool
  | .pNop => true
  | .push _ => true
  | .cNop => true
  | .pop => true
  | .drain => true
  | .count => true
  | .init => true

/-- A configuration of one block is legal when `N` and `S` are in range (R5, R8). -/
def Config.wellFormed (N S : Nat) : Bool := Config.legalN N && Config.legalS S

end Sys2Proof
end

