-- ==== Sys2Proof/Decode.lean ====
section
/-! DEFINITION. The decoder of the three command inputs (R85), total, and the encoder written from the same table. -/

namespace Sys2Proof

/-- Why a number is no command on an input. -/
inductive DecodeError where
  /-- It does not fit the input's width. -/
  | tooWide
  /-- `init = 0`, which "is not an operation" (R85). -/
  | noOperation
deriving DecidableEq, Repr

/-- What the decoder answers. -/
inductive Decoded where
  | command (i : Instr)
  | rejected (e : DecodeError)
deriving DecidableEq, Repr

/-- `match` and `mask` of a row of R85: the word is this operation when `(word & mask) == match`. -/
def matchesRow {w : Nat} (mask pattern word : BitVec w) : Bool := word &&& mask == pattern

/-- The operand field `data = pcmd[7:0]` (R81), used as it stands. -/
def pcmdData (w : BitVec 9) : Byte := w.extractLsb' 0 8

/-- Format P (R81, R85). Every word is P_NOP or PUSH. -/
def decodeP (w : BitVec 9) : Instr :=
  if matchesRow 0x100 0x100 w then .push (pcmdData w) else .pNop

/-- Format Q (R82, R85). The four codes are the four operations. -/
def decodeQ (w : BitVec 2) : Instr :=
  if matchesRow 0x3 0x0 w then .cNop
  else if matchesRow 0x3 0x1 w then .pop
  else if matchesRow 0x3 0x2 w then .drain
  else .count

/-- Format R (R83, R85): 1 is INIT, 0 is not an operation. -/
def decodeR (w : BitVec 1) : Option Instr :=
  if matchesRow 0x1 0x1 w then some .init else none

/-- The decoder on any number presented at an input, rejecting by name. -/
def decode (p : Port) (w : Nat) : Decoded :=
  if p.fits w then
    match p with
    | .pcmd => .command (decodeP (BitVec.ofNat 9 w))
    | .ccmd => .command (decodeQ (BitVec.ofNat 2 w))
    | .init =>
      match decodeR (BitVec.ofNat 1 w) with
      | some i => .command i
      | none => .rejected .noOperation
  else .rejected .tooWide

/-- The command a step of one side executes when these words stand on the inputs. `init = 1` wins over a command on
either port, and the command is not executed (R170, R206 (4), D26). -/
def Ports.command (side : Side) (p : Ports) : Instr :=
  match decodeR p.init with
  | some i => i
  | none =>
    match side with
    | .producer => decodeP p.pcmd
    | .consumer => decodeQ p.ccmd

/-- The input a command is presented on (R85). -/
def Instr.port : Instr → Port
  | .pNop | .push _ => .pcmd
  | .cNop | .pop | .drain | .count => .ccmd
  | .init => .init

/-- The word of a command (R85, R88: `PUSH b` is `0x100 | b`, P_NOP is written 0x000). -/
def encode : Instr → Nat
  | .pNop => 0x000
  | .push d => 0x100 ||| d.toNat
  | .cNop => 0x0
  | .pop => 0x1
  | .drain => 0x2
  | .count => 0x3
  | .init => 0x1

/-- The words on the inputs that present word `w` at input `p` and nothing anywhere else, and the side that samples
them. `init` belongs to neither port (R83); the producer side is written for it. -/
def Ports.present (p : Port) (w : Nat) : Side × Ports :=
  match p with
  | .pcmd => (.producer, { pcmd := BitVec.ofNat 9 w })
  | .ccmd => (.consumer, { ccmd := BitVec.ofNat 2 w })
  | .init => (.producer, { init := BitVec.ofNat 1 w })

/-- Which input a row of spec/opcode_table.json is read on, from the row's size in bits, exact (9, 2, 1) or in whole
bytes (16, 8). Formats Q and R both make one whole byte, and there the word 1 is POP and INIT alike: a one-byte row is
read as format Q, whose map uses every code. DESIGN CHOICE, log 2. -/
def tablePort (nbits : Nat) : Option Port :=
  if nbits = 9 || nbits = 16 then some .pcmd
  else if nbits = 2 || nbits = 8 then some .ccmd
  else if nbits = 1 then some .init
  else none

/-- The instruction the decoder reads from an instruction whose bits are `w`, numbered as the opcode table numbers
them; `none` where it refuses. -/
def decodeTableWord (nbits w : Nat) : Option Instr :=
  match tablePort nbits with
  | none => none
  | some p =>
    match decode p w with
    | .command i => some i
    | .rejected _ => none

end Sys2Proof
end

