-- ==== Sys2Proof/Machine/State.lean ====
section
/-! DEFINITION. Every piece of state the spec gives the machine, as plain data: layer 1 (storage and the pointers, R20 to
R22), layer 2 (the views, R23, R24) or layer 3 (the clocked realisation's registers, R31), for each of the two copies of
the block (R9); the clients' state (R36, R176, R180) and the serial capabilities they switch (R188); and the reasons a
step can stop. -/

namespace Sys2Proof.Machine

/-- A storage array (R20, R37): the slots written so far as (index, byte) pairs, indices strictly rising. A slot not
listed holds no value (R34, R231, D12; log 4). -/
abbrev Memory := List Host.Cell

/-- How each side sees the other's pointer (R211). A block is built one way and stays so.
* `architectural`: the views are plain state moved by SYNC steps (R23, R24, R143, R144).
* `clocked`: the launched gray registers and the two synchroniser chains, stage 0 first (R31). The views are decodings of
  the last stages, not state of their own. -/
inductive Crossing (N : Nat) where
  | architectural (headSeen tailSeen : BitVec N)
  | clocked (headGray tailGray : BitVec N) (headSync tailSync : List (BitVec N))
deriving DecidableEq, Repr

/-- One copy of the block. The registers are exactly `N` bits wide, so the range invariant R25 holds by construction.
`initDone` says whether INIT has ever been taken: before it nothing about the registers is specified and no command may
be issued (R231, R233). -/
structure Block (N : Nat) where
  storage  : Memory
  head     : BitVec N
  tail     : BitVec N
  crossing : Crossing N
  initDone : Bool
deriving DecidableEq, Repr

/-- A copy of the block with the parameters it was built with (R5, R8). No step changes `N` or `S` (R29). -/
structure Fifo where
  N   : Nat
  S   : Nat
  blk : Block N
deriving DecidableEq, Repr

/-- The result outputs of one step (R84, R80): valid in the step that produced them and read by no later step (R33). They
stand here because a step answers nothing but a state; every step writes them all, and an output the step does not
produce is `none`, so no claim can lean on it (U7). Log 3. -/
structure Outputs where
  /-- `p_ok`, the result of PUSH. -/
  pOk    : Option Bool := none
  /-- `wr_addr` and `wr_data` in a step whose `wr_en` is 1; `none` is `wr_en = 0`. -/
  wr     : Option (Nat × Byte) := none
  /-- `c_valid`, the result of POP. -/
  cValid : Option Bool := none
  /-- `c_data`, only with `c_valid = 1`. -/
  cData  : Option Byte := none
  /-- `rd_addr` in a step that reads a slot. -/
  rd     : Option Nat := none
  /-- `c_count`, the result of COUNT. -/
  cCount : Option Nat := none
deriving DecidableEq, Repr

/-- The steps of the facade's `init` in the source's order (R181, R233). -/
inductive InitStage where
  | resetRx
  | resetTx
  | programBaud
  | enableReceiver
  | enableTransmitter
  | enableReceiveInterrupt
  | enableGlobal
deriving DecidableEq, Repr

/-- Where mainline code stands between two of its steps (R187; R181 to R186). -/
inductive Mainline where
  | idle
  /-- inside `init`, before the named step -/
  | initialising (stage : InitStage) (baudConfig : Nat)
  /-- `try_read_byte` before its POP -/
  | reading
  /-- `try_read_byte` after its POP, before it reads the latch (D21) -/
  | sampling (b : Byte)
  /-- `write_byte b` before a PUSH, `rest` still to be written after it -/
  | writing (b : Byte) (rest : List Byte)
  /-- `write_byte` after a successful PUSH, before it enables the transmit-ready interrupt -/
  | enabling (rest : List Byte)
  /-- `bytes_available` before its COUNT -/
  | counting
  /-- `flush_receive` before its DRAIN -/
  | flushing
deriving DecidableEq, Repr

/-- Where the receive handler stands (R177). -/
inductive ReceiveHandler where
  | idle
  /-- status and byte read and classified, before the PUSH -/
  | pushing (b : Byte) (k : ErrorKind)
  /-- after the PUSH, before the latch is written -/
  | latching (k : ErrorKind)
deriving DecidableEq, Repr

/-- Where the transmit-ready handler stands (R179). -/
inductive TransmitHandler where
  | idle
  /-- `empty = 0` was seen, before the POP -/
  | popping
  /-- the POP is done, before the write to the hardware transmit register -/
  | sending (b : Byte)
  /-- `empty = 1` was seen, before the interrupt source is disabled -/
  | disabling
deriving DecidableEq, Repr

/-- The serial hardware's capabilities as far as a client switches them (R188). `sent` is what was handed to the transmit
register, oldest first: the block's side of the world outside. -/
structure Serial where
  baudConfig         : Nat
  receiverOn         : Bool
  transmitterOn      : Bool
  receiveInterruptOn : Bool
  globalInterruptsOn : Bool
  sent               : List Byte
deriving DecidableEq, Repr

/-- The clients' state (R36): the Last-Receive-Error latch (R176), the transmit-ready interrupt enable (R180), where each
execution context stands, what the last facade operation returned, and the serial hardware. `started` says whether the
facade's `init` has ever finished: before that no client may issue a command (R190 (2); log 8). -/
structure Clients where
  lastRxError     : ErrorKind
  txIrqEnable     : Bool
  mainline        : Mainline
  receiveHandler  : ReceiveHandler
  transmitHandler : TransmitHandler
  returned        : Option CallResult
  started         : Bool
  serial          : Serial
deriving DecidableEq, Repr

/-- How the two sides are scheduled. `singleProcessor` is the source's own system: no-lag schedules (R151) and handlers
that run to completion (R187). `twoDomains` keeps the roles and drops both (D1, R187). -/
inductive Platform where
  | singleProcessor
  | twoDomains
deriving DecidableEq, Repr

/-- Who drives the command inputs: the outside, or the clients. Never both (R190 (1), R210, R238). -/
inductive Driver where
  | ports
  | clients
deriving DecidableEq, Repr

/-- The machine. `sel` is the copy of the block whose inputs the current step drives, an input of the step held as data;
`inputs` are the inputs still to come, the next one first (R35, R150). -/
structure State where
  rx       : Fifo
  tx       : Fifo
  sel      : Channel
  out      : Outputs
  clients  : Clients
  platform : Platform
  driver   : Driver
  inputs   : List Input
deriving DecidableEq, Repr

/-- Why the machine stops with a fault. The block itself raises no exception (R200). -/
inductive Fault where
  /-- A POP of a slot that holds no value. Raised by POP. Safe: the spec holds contents as "no value" (R34, U8) and no
  state that meets the machine's invariant reaches it (R121 corner case 4). -/
  | unwrittenSlot
  /-- The transmit-ready handler saw `empty = 0` and its POP found no data. Raised by the handler. Safe: R124 says it
  cannot happen while the handler is the only consumer. -/
  | popAfterNonEmpty
deriving DecidableEq, Repr

/-- Why the machine has no step. Every one is safe: the model says nothing of such a run (D17, R210). -/
inductive Refusal where
  /-- An instruction with no meaning in the model. Raised by `exec`. -/
  | notModelled (mnemonic : String)
  /-- `N` outside 1 to 8, `S` below 2, or chains that are not `S` stages long (R5, R8, R239, U10). Raised by every
  command and SYNC step, by the transmit-ready event and by its handler's disable. -/
  | illegalParameters
  /-- A command or SYNC step before the first INIT (R231, R233, U8). Raised by every command but INIT, by
  SYNC, by the transmit-ready event and by its handler's disable. -/
  | beforeInit
  /-- A client's command, or a call or event that leads to one, before the facade's `init` has finished (R190 (2), R181,
  D17). Raised by the client steps. -/
  | beforeFacadeInit
  /-- INIT while a client may issue a command (R170, R237, U10). Raised by INIT. -/
  | initNotQuiescent
  /-- A command word on an input that a client drives: two drivers of one side (R210, R238, U10). Raised by the step. -/
  | secondDriver
  /-- A SYNC step whose `require` does not hold (R143, R144). Raised by SYNC. -/
  | syncNotEnabled
  /-- A SYNC step of a clocked block, whose views move at clock edges only (R145, R146). Raised by SYNC. -/
  | noSyncStep
  /-- A client input while the command inputs are driven from outside. Raised by the client steps. -/
  | noClients
  /-- An interrupt whose source or the global mechanism is off (R180, R205). Raised by the events. -/
  | interruptMasked
  /-- A handler that is already running, or on one processor the other one (R187, R208, U6). Raised by the events. -/
  | handlerRunning
  /-- A call while mainline code is inside another operation: one thread (R187). Raised by the call. -/
  | mainlineBusy
  /-- A mainline step while a handler runs on the one processor (R187). Raised by mainline steps and calls. -/
  | preempted
  /-- A step of a client that is inside no operation. Raised by `advance`. -/
  | clientIdle
deriving DecidableEq, Repr

/-- A block right after INIT (R34, R230): both pointers and both views 0, storage with no value in any slot. -/
def Block.reset (N : Nat) : Block N :=
  { storage := [], head := 0, tail := 0, crossing := .architectural 0 0, initDone := true }

def Fifo.reset : Fifo :=
  { N := Config.resetN, S := Config.resetS, blk := Block.reset Config.resetN }

/-- The clients before the application has called anything: transmit machine IDLE (R34, R180); the latch holds any value
(U9, log 5); the serial capabilities off (log 6). -/
def Clients.reset : Clients :=
  { lastRxError := Config.latchAtPowerUp
    txIrqEnable := false
    mainline := .idle
    receiveHandler := .idle
    transmitHandler := .idle
    returned := none
    started := false
    serial :=
      { baudConfig := 0, receiverOn := false, transmitterOn := false, receiveInterruptOn := false,
        globalInterruptsOn := false, sent := [] } }

/-- The machine right after reset: INIT has been taken on both copies (R230: "There is one reset, INIT"). The sizes, the
level, the platform, the driver and the selected copy `sel = rx` are the model's choice (log 1), and nothing is
presented. -/
def State.reset : State :=
  { rx := Fifo.reset
    tx := Fifo.reset
    sel := .rx
    out := {}
    clients := Clients.reset
    platform := .twoDomains
    driver := .ports
    inputs := [] }

end Sys2Proof.Machine
end

