-- ==== Sys2Proof/Machine/Ops.lean ====
section
/-! DEFINITION. The named operations over the pointers, the storage array, the crossing and the two copies of the block.
The block takes no exception and returns from none (R200, R207, R208), so there is no such operation here; the two
status outcomes that stand in their place (R201) are results of PUSH and POP. -/

namespace Sys2Proof.Machine

/-! ### Pointer arithmetic (R11): `N`-bit unsigned, so the mask `& MASK` is the width. -/

/-- `inc(a) = (a + 1) & MASK`. -/
def inc {N : Nat} (a : BitVec N) : BitVec N := a + 1

/-- `d(a, b) = (b - a) & MASK`: how many single advances take `a` to `b`. -/
def dist {N : Nat} (a b : BitVec N) : BitVec N := b - a

/-- `(a + k) & MASK`, the move of a SYNC step (R143, R144). -/
def advance {N : Nat} (a : BitVec N) (k : Nat) : BitVec N := a + BitVec.ofNat N k

/-! ### The gray code (R140, R141). -/

/-- `gray(b) = b ^ (b >> 1)`. -/
def gray {N : Nat} (b : BitVec N) : BitVec N := b ^^^ (b >>> 1)

/-- The first `k` terms of `g ^ (g >> 1) ^ (g >> 2) ^ ...`. -/
def ungrayTerms {N : Nat} (g : BitVec N) : Nat → BitVec N
  | 0 => 0
  | k + 1 => ungrayTerms g k ^^^ (g >>> k)

/-- `ungray(g) = g ^ (g >> 1) ^ ... ^ (g >> (N-1))`. -/
def ungray {N : Nat} (g : BitVec N) : BitVec N := ungrayTerms g N

/-! ### The storage array (R20, R37, R50): one byte a slot, every `N`-bit index legal. -/

/-- What a slot no PUSH has written reads as: no value (R34, U8). -/
def Memory.unlisted : Option Byte := none

/-- `storage[a]`. -/
def Memory.read (m : Memory) (a : Nat) : Option Byte :=
  match m with
  | [] => Memory.unlisted
  | (a', v) :: rest => if a = a' then some v else Memory.read rest a

/-- `storage[a] <- v`, keeping the indices strictly rising. -/
def Memory.write (m : Memory) (a : Nat) (v : Byte) : Memory :=
  match m with
  | [] => [(a, v)]
  | (a', v') :: rest =>
    if a < a' then (a, v) :: (a', v') :: rest
    else if a = a' then (a, v) :: rest
    else (a', v') :: Memory.write rest a v

/-- The canonical form: indices strictly rising. An entry never equals what an unlisted slot reads as, since that is no
value. -/
def Memory.wf : Memory → Bool
  | [] => true
  | [_] => true
  | (a, _) :: (b, w) :: rest => a < b && Memory.wf ((b, w) :: rest)

/-! ### The crossing (R31, R145 to R147). -/

/-- The consumer side's view of `head` (R23): a register, or the decoding of the last stage (R31). -/
def Crossing.headSeen {N : Nat} : Crossing N → BitVec N
  | .architectural h _ => h
  | .clocked _ _ hs _ => ungray (hs.getLastD 0)

/-- The producer side's view of `tail` (R24). -/
def Crossing.tailSeen {N : Nat} : Crossing N → BitVec N
  | .architectural _ t => t
  | .clocked _ _ _ ts => ungray (ts.getLastD 0)

/-- One shift of a synchroniser chain: stage 0 takes the sample, every other stage the one before it (R145, R146). -/
def shiftIn {α : Type} (sample : α) (chain : List α) : List α := (sample :: chain).dropLast

/-- The walking gray register (R147): it stays when it holds the code of `tail'`, else it moves to the next position. -/
def walk {N : Nat} (tailGray tail' : BitVec N) : BitVec N :=
  if tailGray = gray tail' then tailGray else gray (inc (ungray tailGray))

/-- What a producer clock edge does besides its command (R145), `head'` being `head` after the command. At the
architectural level a command moves no view. -/
def Crossing.producerEdge {N : Nat} (head' : BitVec N) : Crossing N → Crossing N
  | .architectural h t => .architectural h t
  | .clocked _ tg hs ts => .clocked (gray head') tg hs (shiftIn tg ts)

/-- What a consumer clock edge does besides its command (R146), `tail'` being `tail` after the command. -/
def Crossing.consumerEdge {N : Nat} (tail' : BitVec N) : Crossing N → Crossing N
  | .architectural h t => .architectural h t
  | .clocked hg tg hs ts => .clocked hg (walk tg tail') (shiftIn hg hs) ts

/-- Every register of the crossing 0 (R170). -/
def Crossing.zeroed {N : Nat} : Crossing N → Crossing N
  | .architectural _ _ => .architectural 0 0
  | .clocked _ _ hs ts => .clocked 0 0 (hs.map fun _ => 0) (ts.map fun _ => 0)

/-- The views caught up with the pointers, a plain SYNC.H and a plain SYNC.T (R151). A clocked block has no such step. -/
def Crossing.caughtUp {N : Nat} (head tail : BitVec N) : Crossing N → Crossing N
  | .architectural _ _ => .architectural head tail
  | .clocked hg tg hs ts => .clocked hg tg hs ts

/-- A clocked crossing has two chains of `S >= 2` stages (R8, R31); no rule of the architectural level reads `S`. -/
def Crossing.legal {N : Nat} (S : Nat) : Crossing N → Bool
  | .architectural _ _ => true
  | .clocked _ _ hs ts => Config.legalS S && hs.length == S && ts.length == S

/-! ### One block. -/

def Block.headSeen {N : Nat} (b : Block N) : BitVec N := b.crossing.headSeen

def Block.tailSeen {N : Nat} (b : Block N) : BitVec N := b.crossing.tailSeen

/-- The crossing's part of a producer step, after the command. -/
def Block.producerEdge {N : Nat} (b : Block N) : Block N :=
  { b with crossing := b.crossing.producerEdge b.head }

/-- The crossing's part of a consumer step, after the command. -/
def Block.consumerEdge {N : Nat} (b : Block N) : Block N :=
  { b with crossing := b.crossing.consumerEdge b.tail }

def Block.caughtUp {N : Nat} (b : Block N) : Block N :=
  { b with crossing := b.crossing.caughtUp b.head b.tail }

/-! ### The two copies. -/

/-- The parameters are legal (R5, R8, R239). -/
def Fifo.legal (q : Fifo) : Bool := Config.legalN q.N && q.blk.crossing.legal q.S

def Fifo.caughtUp (q : Fifo) : Fifo := { q with blk := q.blk.caughtUp }

/-- A copy of the block by its name. -/
def State.fifoOf (s : State) : Channel → Fifo
  | .rx => s.rx
  | .tx => s.tx

/-- The copy whose inputs the step drives. -/
def State.fifo (s : State) : Fifo := s.fifoOf s.sel

/-- Write back the copy whose inputs the step drives. The other copy is a register apart (R9). -/
def State.setFifo (s : State) (q : Fifo) : State :=
  match s.sel with
  | .rx => { s with rx := q }
  | .tx => { s with tx := q }

/-- The step drives the inputs of `ch`. -/
def State.on (s : State) (ch : Channel) : State := { s with sel := ch }

def State.setClients (s : State) (c : Clients) : State := { s with clients := c }

/-- The results of the step (R84): all of them at once, so none of an earlier step is left (R33). -/
def State.setOut (s : State) (o : Outputs) : State := { s with out := o }

/-- The inputs still to come. -/
def State.setInputs (s : State) (l : List Input) : State := { s with inputs := l }

/-- Both copies' views caught up (R151). -/
def State.caughtUp (s : State) : State := { s with rx := s.rx.caughtUp, tx := s.tx.caughtUp }

/-- What a command does to one block: the block after it and the step's results. -/
abbrev Command := (N : Nat) → Block N → Host.Outcome (Block N × Outputs) Fault Refusal

/-- `act`, a step that uses copy `q`: refused while the parameters are illegal (R5, U10) and before the first INIT (R231,
R233). -/
def Fifo.whenReady (q : Fifo) (act : Host.Outcome State Fault Refusal) : Host.Outcome State Fault Refusal :=
  if q.legal then
    if q.blk.initDone then act else .refused .beforeInit
  else .refused .illegalParameters

/-- A command of one side on the copy whose inputs the step drives, then `edge`, the crossing's part of that side's
step. -/
def State.command (s : State) (edge : (N : Nat) → Block N → Block N) (f : Command) :
    Host.Outcome State Fault Refusal :=
  s.fifo.whenReady <|
    match f s.fifo.N s.fifo.blk with
    | .next (b, o) => .next ((s.setFifo { s.fifo with blk := edge s.fifo.N b }).setOut o)
    | .fault r => .fault r
    | .refused r => .refused r

/-- A step of the producer domain (R145). -/
def State.producerStep (s : State) (f : Command) : Host.Outcome State Fault Refusal :=
  s.command (fun _ b => b.producerEdge) f

/-- A step of the consumer domain (R146). -/
def State.consumerStep (s : State) (f : Command) : Host.Outcome State Fault Refusal :=
  s.command (fun _ b => b.consumerEdge) f

end Sys2Proof.Machine
end

