-- ==== Sys2Proof/Machine/Flags.lean ====
section
/-! DEFINITION. The two flags (R27): combinational functions of the state, each of its own domain's pointer and that
domain's view of the other. No operation writes a flag. -/

namespace Sys2Proof.Machine

/-- `full = ( inc(head) == tail_seen )`. -/
def Block.full {N : Nat} (b : Block N) : Bool := inc b.head == b.tailSeen

/-- `empty = ( head_seen == tail )`. -/
def Block.empty {N : Nat} (b : Block N) : Bool := b.headSeen == b.tail

end Sys2Proof.Machine
end

