-- ==== Sys2Proof/Machine/Operands.lean ====
section
/-! DEFINITION. The two storage addresses the block generates (R50), the count (R122), and the result outputs of each
outcome (R84, R201). The one operand, `data`, is a field of the command (R81). -/

namespace Sys2Proof.Machine

/-- `wr_addr = inc(head)`: the slot a successful PUSH writes (R111). -/
def Block.wrAddr {N : Nat} (b : Block N) : BitVec N := inc b.head

/-- `rd_addr = inc(tail)`: the slot a successful POP reads (R121). -/
def Block.rdAddr {N : Nat} (b : Block N) : BitVec N := inc b.tail

/-- `(head_seen - tail) & MASK`, the number of bytes the consumer side can see (R122). -/
def Block.available {N : Nat} (b : Block N) : BitVec N := dist b.tail b.headSeen

/-- PUSH stored its byte: `p_ok = 1`, `wr_en = 1`. -/
def Outputs.stored (addr : Nat) (data : Byte) : Outputs := { pOk := some true, wr := some (addr, data) }

/-- PUSH found the buffer full: `p_ok = 0`, `wr_en = 0`. -/
def Outputs.refusedFull : Outputs := { pOk := some false }

/-- POP returns a byte: `c_valid = 1`. -/
def Outputs.popped (addr : Nat) (data : Byte) : Outputs :=
  { cValid := some true, cData := some data, rd := some addr }

/-- POP found no data: `c_valid = 0`, and `c_data` has no value a claim could lean on (U7). -/
def Outputs.noData : Outputs := { cValid := some false }

/-- COUNT's result. -/
def Outputs.counted (n : Nat) : Outputs := { cCount := some n }

end Sys2Proof.Machine
end

