-- ==== Sys2Proof/Machine/Consumer.lean ====
section
/-! DEFINITION. The consumer-side operations (spec/41_consumer_ops.md): C_NOP, POP, DRAIN and COUNT. -/

namespace Sys2Proof.Machine

/-- POP (R121): when empty, nothing is written; otherwise the byte at `inc(tail)` is read and `tail` advances. A slot that
holds no value stops the run (R34, U8). -/
def Block.pop {N : Nat} (b : Block N) : Host.Outcome (Block N × Outputs) Fault Refusal :=
  if b.empty then .next (b, Outputs.noData)
  else
    match b.storage.read b.rdAddr.toNat with
    | some v => .next ({ b with tail := b.rdAddr }, Outputs.popped b.rdAddr.toNat v)
    | none => .fault .unwrittenSlot

/-- DRAIN (R123): `tail <- head_seen`. -/
def Block.drain {N : Nat} (b : Block N) : Block N := { b with tail := b.headSeen }

/-- C_NOP (R120): no register and no result is written; a clock edge still shifts the chain and lets `tail_gray` walk. -/
def execCNop (s : State) : Host.Outcome State Fault Refusal :=
  s.consumerStep fun _ b => .next (b, {})

/-- POP (R121). An empty buffer is no exception; `c_valid` says which of the two outcomes it was. -/
def execPop (s : State) : Host.Outcome State Fault Refusal :=
  s.consumerStep fun _ b => b.pop

/-- DRAIN (R123): no slot is read or written and no result is returned. -/
def execDrain (s : State) : Host.Outcome State Fault Refusal :=
  s.consumerStep fun _ b => .next (b.drain, {})

/-- COUNT (R122): writes nothing. -/
def execCount (s : State) : Host.Outcome State Fault Refusal :=
  s.consumerStep fun _ b => .next (b, Outputs.counted b.available.toNat)

end Sys2Proof.Machine
end

