-- ==== Sys2Proof/Machine/Producer.lean ====
section
/-! DEFINITION. The producer-side operations (spec/40_producer_ops.md): P_NOP and PUSH. -/

namespace Sys2Proof.Machine

/-- PUSH (R111): when full, nothing is written; otherwise the byte is stored at `inc(head)` and `head` advances. -/
def Block.push {N : Nat} (data : Byte) (b : Block N) : Block N × Outputs :=
  if b.full then (b, Outputs.refusedFull)
  else
    ({ b with storage := b.storage.write b.wrAddr.toNat data, head := b.wrAddr },
      Outputs.stored b.wrAddr.toNat data)

/-- P_NOP (R110): no register, slot or result is written; a clock edge still shifts the chain. -/
def execPNop (s : State) : Host.Outcome State Fault Refusal :=
  s.producerStep fun _ b => .next (b, {})

/-- PUSH (R111). A full buffer is no exception; `p_ok` says which of the two outcomes it was. -/
def execPush (data : Byte) (s : State) : Host.Outcome State Fault Refusal :=
  s.producerStep fun _ b => .next (b.push data)

end Sys2Proof.Machine
end

