-- ==== Sys2Proof/Machine/System.lean ====
section
/-! DEFINITION. The system operation INIT (spec/43_system_ops.md), the block's one reset (R230). -/

namespace Sys2Proof.Machine

/-- INIT (R170): every register of both domains 0, storage as it is. -/
def Block.init {N : Nat} (b : Block N) : Block N :=
  { b with head := 0, tail := 0, crossing := b.crossing.zeroed, initDone := true }

/-- The receive handler's PUSH (R177) is still to come. Before the latch is written it is over. -/
def ReceiveHandler.commandPending : ReceiveHandler → Bool
  | .idle => false
  | .pushing _ _ => true
  | .latching _ => false

/-- The transmit-ready handler's POP (R179) is still to come. -/
def TransmitHandler.commandPending : TransmitHandler → Bool
  | .idle => false
  | .popping => true
  | .sending _ => false
  | .disabling => false

/-- The operation mainline code is inside of has a command other than INIT still to come on copy `ch`. -/
def Mainline.commandPending (ch : Channel) : Mainline → Bool
  | .idle => false
  | .initialising _ _ => false
  | .reading => ch == .rx
  | .sampling _ => false
  | .writing _ _ => ch == .tx
  | .enabling rest => ch == .tx && !rest.isEmpty
  | .counting => ch == .rx
  | .flushing => ch == .rx

/-- The receive handler has a command to come, or an event could start it (R205). -/
def Clients.receiveActive (c : Clients) : Bool :=
  c.receiveHandler.commandPending || (c.serial.receiveInterruptOn && c.serial.globalInterruptsOn)

/-- The transmit-ready handler has a command to come, or an event could start it (R205). -/
def Clients.transmitActive (c : Clients) : Bool :=
  c.transmitHandler.commandPending || (c.txIrqEnable && c.serial.globalInterruptsOn)

/-- The quiescence contract of R170 and R237 for the copy whose inputs the step drives: no command is in progress and no
client will issue one until INIT is over; in the source's terms, the interrupt source that drives the copy is disabled.
A handler past its command, with its source off, is no hindrance. Steps are atomic, so a block driven from outside is
between commands at every step. The reading in terms of the clients is the model's, log 9. -/
def State.quiescent (s : State) : Bool :=
  match s.driver with
  | .ports => true
  | .clients =>
    !s.clients.mainline.commandPending s.sel &&
      !(match s.sel with
        | .rx => s.clients.receiveActive
        | .tx => s.clients.transmitActive)

/-- INIT (R170). It needs no earlier INIT, is refused while the parameters are illegal (R5, U10) and outside the
quiescence contract (R237), and touches no client state (R170 corner case 4). -/
def execInit (s : State) : Host.Outcome State Fault Refusal :=
  if s.fifo.legal then
    if s.quiescent then .next ((s.setFifo { s.fifo with blk := s.fifo.blk.init }).setOut {})
    else .refused .initNotQuiescent
  else .refused .illegalParameters

end Sys2Proof.Machine
end

