-- ==== Sys2Proof/Machine/Clients.lean ====
section
/-! DEFINITION. The block's clients (spec/44_clients.md): the receive event, the transmit-ready event and the facade's
operations, each a program over the block's commands (R89), one atomic step at a time (R187). -/

namespace Sys2Proof.Machine

/-! ### Error kinds (R178, R202, R203). -/

/-- `classify(s)` (R178): overrun above framing. -/
def classify (st : HwStatus) : ErrorKind :=
  if st.overrun then .overrunError else if st.framing then .framingError else .noError

/-- The kind a receive event latches (R177): a byte that was not stored is a buffer overflow, whatever the status. -/
def latchedKind (k : ErrorKind) (pOk : Option Bool) : ErrorKind :=
  if pOk = some false then .bufferOverflow else k

/-- The place in the priority order of R203, 1 the highest. -/
def priority : ErrorKind → Nat
  | .bufferOverflow => 1
  | .overrunError => 2
  | .framingError => 3
  | .noError => 4

def errorName : ReadResult → ErrorName
  | .byte _ k => .kind k
  | .noData => .noData

/-- The numeric code of a result under the open parameter ERRCODE (R202, D22). -/
def errorCode (r : ReadResult) : Nat := Config.errCode (errorName r)

/-! ### Client state, one cell at a time. -/

def State.setMainline (s : State) (m : Mainline) : State := s.setClients { s.clients with mainline := m }

def State.setReceiveHandler (s : State) (h : ReceiveHandler) : State :=
  s.setClients { s.clients with receiveHandler := h }

def State.setTransmitHandler (s : State) (h : TransmitHandler) : State :=
  s.setClients { s.clients with transmitHandler := h }

def State.setSerial (s : State) (d : Serial) : State := s.setClients { s.clients with serial := d }

def State.setTxIrqEnable (s : State) (on : Bool) : State := s.setClients { s.clients with txIrqEnable := on }

def State.setLatch (s : State) (k : ErrorKind) : State := s.setClients { s.clients with lastRxError := k }

def State.setStarted (s : State) : State := s.setClients { s.clients with started := true }

/-- A facade operation returns to the application. -/
def State.returnWith (s : State) (r : CallResult) : State :=
  s.setClients { s.clients with mainline := .idle, returned := some r }

/-- A step that ran, continued; a step that did not stops as it did. -/
def continueWith (o : Host.Outcome State Fault Refusal) (f : State → Host.Outcome State Fault Refusal) :
    Host.Outcome State Fault Refusal :=
  match o with
  | .next t => f t
  | .fault r => .fault r
  | .refused r => .refused r

/-! ### Scheduling of the clients (R187, R205, R208). -/

/-- A handler is running on the one processor, so nothing else may run on it. -/
def State.processorTaken (s : State) : Bool :=
  s.platform == .singleProcessor &&
    (s.clients.receiveHandler != .idle || s.clients.transmitHandler != .idle)

/-- `act`, in which a client issues a command or begins what leads to one: refused before the facade's `init` has finished
(R190 (2), R181; log 8). -/
def State.onceStarted (s : State) (act : Host.Outcome State Fault Refusal) : Host.Outcome State Fault Refusal :=
  if s.clients.started then act else .refused .beforeFacadeInit

/-! ### The interrupt side. -/

/-- A receive event occurs (R177): status and byte are read together and classified. It needs the receive interrupt and
the global mechanism enabled (R205), no handler of its class running (U6) and `init` finished (R190 (2)). -/
def receiveEvent (b : Byte) (st : HwStatus) (s : State) : Host.Outcome State Fault Refusal :=
  if s.clients.serial.receiveInterruptOn && s.clients.serial.globalInterruptsOn then
    if s.clients.receiveHandler == .idle && !s.processorTaken then
      s.onceStarted <| .next (s.setReceiveHandler (.pushing b (classify st)))
    else .refused .handlerRunning
  else .refused .interruptMasked

/-- The receive handler's next step (R177): PUSH on the receive copy, then the latch, unconditionally. -/
def receiveHandlerStep (s : State) : Host.Outcome State Fault Refusal :=
  match s.clients.receiveHandler with
  | .idle => .refused .clientIdle
  | .pushing b k =>
    s.onceStarted <| continueWith (execPush b (s.on .rx)) fun t =>
      .next (t.setReceiveHandler (.latching (latchedKind k t.out.pOk)))
  | .latching k => .next ((s.setLatch k).setReceiveHandler .idle)

/-- A transmit-ready event occurs (R179): the transmit copy's `empty` is tested. It can occur only while
`tx_irq_enable = 1` and the global mechanism is on (R180, R205), and it reads the transmit copy, so that copy must be ready
for use (R5, R231). -/
def transmitReadyEvent (s : State) : Host.Outcome State Fault Refusal :=
  if s.clients.txIrqEnable && s.clients.serial.globalInterruptsOn then
    if s.clients.transmitHandler == .idle && !s.processorTaken then
      s.tx.whenReady <| s.onceStarted <|
        .next (s.setTransmitHandler (if s.tx.blk.empty then .disabling else .popping))
    else .refused .handlerRunning
  else .refused .interruptMasked

/-- The transmit-ready handler's next step (R179): POP on the transmit copy and the write to the hardware transmit
register, or the disable, which acts on what the event read of the transmit copy. -/
def transmitHandlerStep (s : State) : Host.Outcome State Fault Refusal :=
  match s.clients.transmitHandler with
  | .idle => .refused .clientIdle
  | .popping =>
    s.onceStarted <| continueWith (execPop (s.on .tx)) fun t =>
      match t.out.cData with
      | some b => .next (t.setTransmitHandler (.sending b))
      | none => .fault .popAfterNonEmpty
  | .sending b =>
    .next ((s.setSerial { s.clients.serial with sent := s.clients.serial.sent ++ [b] }).setTransmitHandler .idle)
  | .disabling => s.tx.whenReady <| .next ((s.setTxIrqEnable false).setTransmitHandler .idle)

/-! ### The mainline side (R181 to R186). -/

/-- `write_string` from its first byte on; an empty sequence does nothing (R184). -/
def State.writeNext (s : State) : List Byte → State
  | [] => s.returnWith .unit
  | b :: rest => s.setMainline (.writing b rest)

/-- The application calls a facade operation: `init`, or once `init` has finished any other (R190 (2)). -/
def startCall (c : Call) (s : State) : Host.Outcome State Fault Refusal :=
  if s.processorTaken then .refused .preempted
  else if s.clients.mainline != .idle then .refused .mainlineBusy
  else
    match c with
    | .init cfg => .next (s.setMainline (.initialising .resetRx cfg))
    | .tryReadByte => s.onceStarted <| .next (s.setMainline .reading)
    | .writeByte b => s.onceStarted <| .next (s.setMainline (.writing b []))
    | .writeString bs => s.onceStarted <| .next (s.writeNext bs)
    | .bytesAvailable => s.onceStarted <| .next (s.setMainline .counting)
    | .flushReceive => s.onceStarted <| .next (s.setMainline .flushing)

/-- `init`'s next step, in the source's order (R181): both copies, the baud value, the enables, the global one last. No
step writes the latch or `tx_irq_enable`. That a repeated `init` so keeps `tx_irq_enable` is a DESIGN CHOICE, log 20:
R34's table gives 0 after INIT, while R170 (4) and R181 write nothing to it. -/
def initStep (stage : InitStage) (cfg : Nat) (s : State) : Host.Outcome State Fault Refusal :=
  match stage with
  | .resetRx => continueWith (execInit (s.on .rx)) fun t => .next (t.setMainline (.initialising .resetTx cfg))
  | .resetTx => continueWith (execInit (s.on .tx)) fun t => .next (t.setMainline (.initialising .programBaud cfg))
  | .programBaud =>
    .next ((s.setSerial { s.clients.serial with baudConfig := cfg }).setMainline (.initialising .enableReceiver cfg))
  | .enableReceiver =>
    .next ((s.setSerial { s.clients.serial with receiverOn := true }).setMainline
      (.initialising .enableTransmitter cfg))
  | .enableTransmitter =>
    .next ((s.setSerial { s.clients.serial with transmitterOn := true }).setMainline
      (.initialising .enableReceiveInterrupt cfg))
  | .enableReceiveInterrupt =>
    .next ((s.setSerial { s.clients.serial with receiveInterruptOn := true }).setMainline
      (.initialising .enableGlobal cfg))
  | .enableGlobal =>
    .next (((s.setSerial { s.clients.serial with globalInterruptsOn := true }).setStarted).returnWith .unit)

/-- Mainline code's next step inside the operation it is in. -/
def mainlineStep (s : State) : Host.Outcome State Fault Refusal :=
  if s.processorTaken then .refused .preempted
  else
    match s.clients.mainline with
    | .idle => .refused .clientIdle
    | .initialising stage cfg => initStep stage cfg s
    | .reading =>
      s.onceStarted <| continueWith (execPop (s.on .rx)) fun t =>
        match t.out.cData with
        | some b => .next (t.setMainline (.sampling b))
        | none => .next (t.returnWith (.read .noData))
    | .sampling b => .next (s.returnWith (.read (.byte b s.clients.lastRxError)))
    | .writing b rest =>
      s.onceStarted <| continueWith (execPush b (s.on .tx)) fun t =>
        if t.out.pOk = some true then .next (t.setMainline (.enabling rest)) else .next t
    | .enabling rest => .next ((s.setTxIrqEnable true).writeNext rest)
    | .counting =>
      s.onceStarted <| continueWith (execCount (s.on .rx)) fun t =>
        .next (t.returnWith (.available (t.out.cCount.getD 0)))
    | .flushing => s.onceStarted <| continueWith (execDrain (s.on .rx)) fun t => .next (t.returnWith .unit)

/-- A client takes its next step. -/
def advanceClient (c : Client) (s : State) : Host.Outcome State Fault Refusal :=
  match c with
  | .mainline => mainlineStep s
  | .receiveHandler => receiveHandlerStep s
  | .transmitHandler => transmitHandlerStep s

/-- A client's step, only where the clients drive the command inputs (R190 (1), R210). -/
def asClient (s : State) (f : State → Host.Outcome State Fault Refusal) : Host.Outcome State Fault Refusal :=
  match s.driver with
  | .clients => f s
  | .ports => .refused .noClients

end Sys2Proof.Machine
end

