-- ==== Sys2Proof/Machine/Dispatch.lean ====
section
/-! DEFINITION. One arm per constructor of Instr. -/

namespace Sys2Proof.Machine

def exec (i : Instr) (s : State) : Host.Outcome State Fault Refusal :=
  match i with
  | .pNop => Sys2Proof.Machine.execPNop s
  | .push data => Sys2Proof.Machine.execPush data s
  | .cNop => Sys2Proof.Machine.execCNop s
  | .pop => Sys2Proof.Machine.execPop s
  | .drain => Sys2Proof.Machine.execDrain s
  | .count => Sys2Proof.Machine.execCount s
  | .init => Sys2Proof.Machine.execInit s

end Sys2Proof.Machine
end

