-- ==== Sys2Proof/Machine/Sync.lean ====
section
/-! DEFINITION. The SYNC steps of the architectural level (R143, R144): steps of the crossing itself, which no port
selects. -/

namespace Sys2Proof.Machine

/-- SYNC.H `k` (R143): enabled when `1 <= k <= d(head_seen, head)`; writes `head_seen` only. -/
def Block.syncH {N : Nat} (k : Nat) (b : Block N) : Host.Outcome (Block N × Outputs) Fault Refusal :=
  match b.crossing with
  | .architectural h t =>
    if 1 ≤ k ∧ k ≤ (dist h b.head).toNat then
      .next ({ b with crossing := .architectural (advance h k) t }, {})
    else .refused .syncNotEnabled
  | .clocked _ _ _ _ => .refused .noSyncStep

/-- SYNC.T `k` (R144): enabled when `1 <= k <= d(tail_seen, tail)`; writes `tail_seen` only. -/
def Block.syncT {N : Nat} (k : Nat) (b : Block N) : Host.Outcome (Block N × Outputs) Fault Refusal :=
  match b.crossing with
  | .architectural h t =>
    if 1 ≤ k ∧ k ≤ (dist t b.tail).toNat then
      .next ({ b with crossing := .architectural h (advance t k) }, {})
    else .refused .syncNotEnabled
  | .clocked _ _ _ _ => .refused .noSyncStep

def stepSyncH (k : Nat) (s : State) : Host.Outcome State Fault Refusal :=
  s.command (fun _ b => b) fun _ b => b.syncH k

def stepSyncT (k : Nat) (s : State) : Host.Outcome State Fault Refusal :=
  s.command (fun _ b => b) fun _ b => b.syncT k

end Sys2Proof.Machine
end

