-- ==== Sys2Proof/Machine/Schedule.lean ====
section
/-! DEFINITION. What one input of the step relation does (R150): any agent's step, one at a time and atomic. -/

namespace Sys2Proof.Machine

/-- An idle command is "the absence of a call" (R110, R120), so it may stand on an input whoever drives it. -/
def isIdle : Instr → Bool
  | .pNop => true
  | .cNop => true
  | .push _ => false
  | .pop => false
  | .drain => false
  | .count => false
  | .init => false

/-- One side of one copy takes a step with these words on the inputs. Where the clients drive the inputs, a command from
outside would be a second driver (R210, R238). -/
def presentPorts (ch : Channel) (side : Side) (p : Ports) (s : State) : Host.Outcome State Fault Refusal :=
  if s.driver == .ports || isIdle (p.command side) then exec (p.command side) (s.on ch)
  else .refused .secondDriver

/-- The agent the input names takes its step. -/
def takeInput (inp : Input) (s : State) : Host.Outcome State Fault Refusal :=
  match inp with
  | .ports ch side p => presentPorts ch side p s
  | .syncH ch k => stepSyncH k (s.on ch)
  | .syncT ch k => stepSyncT k (s.on ch)
  | .call c => asClient s (startCall c)
  | .receive b st => asClient s (receiveEvent b st)
  | .transmitReady => asClient s transmitReadyEvent
  | .advance c => asClient s (advanceClient c)
  | .globalInterrupts on => .next (s.setSerial { s.clients.serial with globalInterruptsOn := on })

/-- On the one processor both contexts read the pointers themselves: every step is followed at once by the SYNC steps it
enables (R151, R187). -/
def settle (t : State) : State :=
  match t.platform with
  | .singleProcessor => t.caughtUp
  | .twoDomains => t

/-- A step with an input: the results of the step before are gone (R33), the input is taken, the views settle. -/
def stepWith (inp : Input) (s : State) : Host.Outcome State Fault Refusal :=
  continueWith (takeInput inp (s.setOut {})) fun t => .next (settle t)

/-- A step with no input: no agent steps. -/
def stepIdle (s : State) : Host.Outcome State Fault Refusal := .next (s.setOut {})

/-- `s` with a word of the opcode table's numbering presented to the selected copy as the next input, the outside driving
the inputs. A number that is no word of an input cannot be presented, and then nothing is. -/
def presentWord (s : State) (nbits w : Nat) : State :=
  match tablePort nbits, decodeTableWord nbits w with
  | some p, some _ =>
    let (side, ports) := Ports.present p w
    { s with driver := .ports, inputs := .ports s.sel side ports :: s.inputs }
  | _, _ => { s with inputs := [] }

end Sys2Proof.Machine
end

