-- ==== Sys2Proof/Safety.lean ====
section
/-! DEFINITION. The vocabulary of the claims: the invariants of a block and of the machine, the queue a block holds, what
a run pushed and popped, the architectural image of a clocked block, and fairness. -/

namespace Sys2Proof.Machine

/-! ### The ring (R23, R24, R26, R32). -/

/-- The length of a walk round the ring through the given positions, each stretch taken forward. -/
def walkLength {N : Nat} : List (BitVec N) → Nat
  | [] => 0
  | [_] => 0
  | a :: b :: rest => (dist a b).toNat + walkLength (b :: rest)

/-- The positions the crossing holds, from the producer's view of `tail` forward to `head` (R32 (c)): the tail chain from
its output stage back to its source, `tail`, the head chain likewise, `head`. -/
def Block.positions {N : Nat} (b : Block N) : List (BitVec N) :=
  match b.crossing with
  | .architectural h t => [t, b.tail, h, b.head]
  | .clocked _ tg hs ts =>
    ts.reverse.map ungray ++ [ungray tg, b.tail] ++ hs.reverse.map ungray ++ [b.head]

/-- R32 (a): the launched code is the code of `head`. -/
def Block.headCoded {N : Nat} (b : Block N) : Bool :=
  match b.crossing with
  | .architectural _ _ => true
  | .clocked hg _ _ _ => hg == gray b.head

/-- The unread slot `i` places after the oldest: `inc(tail)` for 0 (R26, R54). -/
def Block.slot {N : Nat} (b : Block N) (i : Nat) : BitVec N := advance b.tail (i + 1)

/-- `occ = d(tail, head)` (R26). -/
def Block.occupancy {N : Nat} (b : Block N) : Nat := (dist b.tail b.head).toNat

/-- Every unread slot holds a byte (R54). -/
def Block.unreadWritten {N : Nat} (b : Block N) : Bool :=
  (List.range b.occupancy).all fun i => (b.storage.read (b.slot i).toNat).isSome

/-- The invariant of one block. The storage list is canonical and names slots that exist; and once INIT has been taken,
the walk through the crossing's positions does not lap the ring (R23, R24, R32 (b), (c)), the launched code is right
(R32 (a)) and every unread slot holds a byte (R54, R57). -/
def Block.inv {N : Nat} (b : Block N) : Bool :=
  b.storage.wf && b.storage.all (fun c => c.1 < 2 ^ N) &&
    (!b.initDone || (decide (walkLength b.positions < 2 ^ N) && b.headCoded && b.unreadWritten))

/-- The transmit-ready handler that saw `empty = 0` still has a byte to pop (R124): it is the only consumer while the
clients drive the inputs. -/
def State.popReady (s : State) : Bool :=
  s.driver == .ports || s.clients.transmitHandler != .popping || (s.tx.blk.initDone && !s.tx.blk.empty)

/-- The invariant of the machine: both blocks', legal parameters, and the handler's. -/
def State.inv (s : State) : Bool :=
  s.rx.legal && s.tx.legal && s.rx.blk.inv && s.tx.blk.inv && s.popReady

/-! ### The queue (R26, R65). -/

/-- The unread bytes, oldest first. -/
def Block.contents {N : Nat} (b : Block N) : List Byte :=
  (List.range b.occupancy).filterMap fun i => b.storage.read (b.slot i).toNat

/-- The byte the step that led to `t` stored in the queue of `ch`, if it stored one. -/
def pushedBy (ch : Channel) (t : State) : List Byte :=
  if t.sel = ch then (t.out.wr.map Prod.snd).toList else []

/-- The byte the step that led to `t` returned from the queue of `ch`, if it returned one. -/
def poppedBy (ch : Channel) (t : State) : List Byte :=
  if t.sel = ch then t.out.cData.toList else []

/-- `k` steps, with the bytes stored in and returned from the queue of `ch`, each in order; `none` if a step stops. -/
def trace (ch : Channel) : Nat → State → Option (State × List Byte × List Byte)
  | 0, s => some (s, [], [])
  | k + 1, s =>
    match step s with
    | .next t =>
      match trace ch k t with
      | some (u, ps, qs) => some (u, pushedBy ch t ++ ps, poppedBy ch t ++ qs)
      | none => none
    | .fault _ => none
    | .refused _ => none

/-- An input that discards nothing from any queue. -/
def keepsBytes : Input → Bool
  | .ports _ side p => p.command side != .drain && p.command side != .init
  | .syncH _ _ => true
  | .syncT _ _ => true
  | .call _ => true
  | .receive _ _ => true
  | .transmitReady => true
  | .advance _ => true
  | .globalInterrupts _ => true

/-- An input that neither moves the producer's view on `ch` nor resets anything. -/
def leavesTailView (ch : Channel) : Input → Bool
  | .ports _ side p => p.command side != .init
  | .syncH _ _ => true
  | .syncT c _ => c != ch
  | .call _ => true
  | .receive _ _ => true
  | .transmitReady => true
  | .advance _ => true
  | .globalInterrupts _ => true

/-- The inputs presented one after the other from `s`. -/
def follow : List Input → State → Host.Outcome State Fault Refusal
  | [], s => .next s
  | inp :: rest, s => continueWith (stepWith inp s) (follow rest)

/-- A command of one side on a channel, as an input. -/
def commandInput (ch : Channel) (i : Instr) : Input :=
  .ports ch (Ports.present i.port (encode i)).1 (Ports.present i.port (encode i)).2

/-! ### Levels (R149, R151). -/

/-- The views are plain state. -/
def Block.isArchitectural {N : Nat} (b : Block N) : Bool :=
  match b.crossing with
  | .architectural _ _ => true
  | .clocked _ _ _ _ => false

/-- The architectural image of a block (R149): storage and pointers kept, the views decoded. -/
def Block.image {N : Nat} (b : Block N) : Block N :=
  { b with crossing := .architectural b.headSeen b.tailSeen }

def Fifo.image (q : Fifo) : Fifo := { q with blk := q.blk.image }

def State.image (s : State) : State := { s with rx := s.rx.image, tx := s.tx.image }

/-- The views are current (R151). -/
def Block.current {N : Nat} (b : Block N) : Bool := b.headSeen == b.head && b.tailSeen == b.tail

/-- What keeps a written byte from waiting for ever on one processor (R241, R248): while bytes wait, the transmit-ready
interrupt is enabled or `write_byte` is about to enable it; and a handler about to disable it found the queue empty. -/
def State.transmitWatched (s : State) : Prop :=
  s.platform = .singleProcessor ∧ s.driver = .clients ∧ s.tx.blk.isArchitectural = true ∧ s.tx.blk.current = true ∧
    (s.tx.blk.occupancy ≠ 0 → s.clients.txIrqEnable = true ∨ ∃ rest, s.clients.mainline = .enabling rest) ∧
    (s.clients.transmitHandler = .disabling → s.tx.blk.occupancy = 0)

/-! ### Ready to execute. -/

/-- The conditions under which a command executes: legal parameters (R5, R8) and an INIT before it (R233). -/
def Fifo.ready (q : Fifo) : Bool := q.legal && q.blk.initDone

/-- The processor lets a handler or mainline code step: no handler is running, or the sides are apart (R187). -/
def State.handlersIdle (s : State) : Bool :=
  s.clients.receiveHandler == .idle && s.clients.transmitHandler == .idle

/-- A copy as a step of platform `p` leaves it once the views have settled (R151; log 12). -/
def Platform.settled (p : Platform) (q : Fifo) : Fifo :=
  match p with
  | .singleProcessor => q.caughtUp
  | .twoDomains => q

/-- The views of `ch` do not change between the steps of one client operation: they move by SYNC steps only, or are
current already (R151). -/
def State.steady (s : State) (ch : Channel) : Bool :=
  s.platform == .twoDomains || (s.fifoOf ch).blk.current

/-! ### Fairness (R61, R150). -/

/-- An infinite run: every state is followed by the state some input leads to. -/
def isRun (r : Nat → State) : Prop := ∀ n, ∃ inp, stepWith inp (r n) = .next (r (n + 1))

/-- The run takes a step of the crossing at `n`: `mk k` for some `k`. -/
def takes (mk : Nat → Input) (r : Nat → State) (n : Nat) : Prop := ∃ k, stepWith (mk k) (r n) = .next (r (n + 1))

/-- A step of the crossing is enabled in `s`: `mk k` has a next state for some `k`. -/
def enables (mk : Nat → Input) (s : State) : Prop := ∃ k t, stepWith (mk k) s = .next t

/-- Weak fairness: a step of the crossing that stays enabled is eventually taken (R61, R150). -/
def weaklyFair (mk : Nat → Input) (r : Nat → State) : Prop :=
  ∀ n, (∀ m, n ≤ m → enables mk (r m)) → ∃ m, n ≤ m ∧ takes mk r m

end Sys2Proof.Machine
end

