-- ==== Sys2Proof/Certificates/Slice0/Obligations.lean ====
section
/-! DEFINITION. The statements for the provers. Where a statement rests on a choice of the model, its docstring or its
section's comment names the log entry. In all of them the results of a step stand in the field `out` of the state
after it (log 3), and the copy whose inputs the step drives is `sel` (log 16). -/

open Sys2Proof Sys2Proof.Machine

/-! ### Encoding and the step. -/

/-- R81, R82, R83: what every word of every command input decodes to. -/
def Obligations.EveryPortWordDecodesAsTabled : Prop :=
  (∀ w : BitVec 9, w.getLsbD 8 = true → decode .pcmd w.toNat = .command (.push (BitVec.ofNat 8 w.toNat))) ∧
  (∀ w : BitVec 9, w.getLsbD 8 = false → decode .pcmd w.toNat = .command .pNop) ∧
  decode .ccmd 0b00 = .command .cNop ∧ decode .ccmd 0b01 = .command .pop ∧
  decode .ccmd 0b10 = .command .drain ∧ decode .ccmd 0b11 = .command .count ∧
  decode .init 1 = .command .init ∧ decode .init 0 = .rejected .noOperation

/-- R85: decoding the word of a command gives the command back, whatever its operand; and a number too wide for an input
is no word of it. -/
def Obligations.DecodeOfEncodeIsTheCommand : Prop :=
  (∀ i : Instr, i.wellFormed = true → decode i.port (encode i) = .command i) ∧
  (∀ (p : Port) (w : Nat), 2 ^ p.width ≤ w → decode p w = .rejected .tooWide)

/-- R170, R206 (4), D26: `init = 1` together with any command words is INIT and nothing else. -/
def Obligations.InitWinsOverCommands : Prop :=
  ∀ (side : Side) (p : Ports), p.init = 1 → p.command side = .init

/-- A step whose next input presents words to one side runs exactly the command they decode to, on that copy of the
block, with the results of the step before gone (log 3), and lets the views settle; with both sides in domains of their
own there is nothing to settle. With no input no agent steps. The model's choice in it: the input list as the form of the
outside's choice (log 7), the settling as part of the same step (log 12), and that an idle command runs whoever drives
the inputs (log 16). -/
def Obligations.StepRunsTheDecodedCommand : Prop :=
  (∀ (s : State) (ch : Channel) (side : Side) (p : Ports) (rest : List Input),
    s.inputs = .ports ch side p :: rest → s.driver = .ports ∨ isIdle (p.command side) = true →
      step s = continueWith (exec (p.command side) (((s.setInputs rest).setOut {}).on ch)) (fun t => .next (settle t)) ∧
      (s.platform = .twoDomains → step s = exec (p.command side) (((s.setInputs rest).setOut {}).on ch))) ∧
  (∀ s : State, s.inputs = [] → step s = .next (s.setOut {}))

/-- Where the clients drive the inputs, a command from outside, INIT included, has no step: a second driver of a side
(R210, R238). That either the outside or the clients drive all the inputs, INIT's among them, though INIT belongs to no
side (R212), is the model's choice (log 16). -/
def Obligations.SecondDriverIsRefused : Prop :=
  ∀ (s : State) (ch : Channel) (side : Side) (p : Ports) (rest : List Input),
    s.inputs = .ports ch side p :: rest → s.driver = .clients → isIdle (p.command side) = false →
      step s = .refused .secondDriver

/-- R11: the pointer operations are the spec's masked integer formulas. -/
def Obligations.PointerArithmeticIsMasked : Prop :=
  ∀ (N : Nat) (a b : BitVec N),
    (inc a).toNat = (a.toNat + 1) &&& (2 ^ N - 1) ∧
    ((dist a b).toNat : Int) = ((b.toNat : Int) - (a.toNat : Int)) % (2 ^ N : Nat)

/-! ### The commands. -/

/-- R110: P_NOP writes no pointer, slot or result. In the clocked realisation its edge still moves the crossing
(ProducerEdgeShiftsTheTailChain says how). -/
def Obligations.PNopWritesNothing : Prop :=
  ∀ s : State, s.fifo.ready = true →
    ∃ b' : Block s.fifo.N,
      exec .pNop s = .next ((s.setFifo { s.fifo with blk := b' }).setOut {}) ∧
      b'.storage = s.fifo.blk.storage ∧ b'.head = s.fifo.blk.head ∧ b'.tail = s.fifo.blk.tail ∧
      b'.headSeen = s.fifo.blk.headSeen ∧ b'.initDone = true ∧
      (s.fifo.blk.isArchitectural = true → b' = s.fifo.blk)

/-- R111: a PUSH that finds `inc(head) != tail_seen` stores its byte at `inc(head)`, advances `head`, answers `p_ok = 1`
with `wr_en = 1`, and changes nothing else; `empty` does not change. -/
def Obligations.PushStoresAtTheSlotAfterHead : Prop :=
  ∀ (data : Byte) (s : State), s.fifo.ready = true → inc s.fifo.blk.head ≠ s.fifo.blk.tailSeen →
    ∃ b' : Block s.fifo.N,
      exec (.push data) s = .next ((s.setFifo { s.fifo with blk := b' }).setOut
        { pOk := some true, wr := some ((inc s.fifo.blk.head).toNat, data) }) ∧
      b'.head = inc s.fifo.blk.head ∧
      b'.storage.read (inc s.fifo.blk.head).toNat = some data ∧
      (∀ a, a ≠ (inc s.fifo.blk.head).toNat → b'.storage.read a = s.fifo.blk.storage.read a) ∧
      b'.tail = s.fifo.blk.tail ∧ b'.headSeen = s.fifo.blk.headSeen ∧ b'.empty = s.fifo.blk.empty ∧
      b'.initDone = true ∧
      (s.fifo.blk.isArchitectural = true →
        b'.crossing = s.fifo.blk.crossing ∧ (b'.full = true ↔ inc (inc s.fifo.blk.head) = s.fifo.blk.tailSeen))

/-- R111, R201: a PUSH that finds `inc(head) == tail_seen` answers `p_ok = 0` with `wr_en = 0` and writes no register and
no slot. -/
def Obligations.PushAtFullWritesNothing : Prop :=
  ∀ (data : Byte) (s : State), s.fifo.ready = true → inc s.fifo.blk.head = s.fifo.blk.tailSeen →
    ∃ b' : Block s.fifo.N,
      exec (.push data) s = .next ((s.setFifo { s.fifo with blk := b' }).setOut { pOk := some false }) ∧
      b'.storage = s.fifo.blk.storage ∧ b'.head = s.fifo.blk.head ∧ b'.tail = s.fifo.blk.tail ∧
      b'.headSeen = s.fifo.blk.headSeen ∧ b'.initDone = true ∧
      (s.fifo.blk.isArchitectural = true → b' = s.fifo.blk)

/-- R120: C_NOP writes no pointer and no result; its edge still moves the clocked crossing. -/
def Obligations.CNopWritesNothing : Prop :=
  ∀ s : State, s.fifo.ready = true →
    ∃ b' : Block s.fifo.N,
      exec .cNop s = .next ((s.setFifo { s.fifo with blk := b' }).setOut {}) ∧
      b'.storage = s.fifo.blk.storage ∧ b'.head = s.fifo.blk.head ∧ b'.tail = s.fifo.blk.tail ∧
      b'.tailSeen = s.fifo.blk.tailSeen ∧ b'.initDone = true ∧
      (s.fifo.blk.isArchitectural = true → b' = s.fifo.blk)

/-- R121: a POP that finds `head_seen != tail` returns the byte at `inc(tail)` with `c_valid = 1`, advances `tail`, and
changes nothing else; the slot keeps its byte and `full` does not change. -/
def Obligations.PopReturnsTheByteAfterTail : Prop :=
  ∀ (s : State) (v : Byte), s.fifo.ready = true → s.fifo.blk.headSeen ≠ s.fifo.blk.tail →
    s.fifo.blk.storage.read (inc s.fifo.blk.tail).toNat = some v →
    ∃ b' : Block s.fifo.N,
      exec .pop s = .next ((s.setFifo { s.fifo with blk := b' }).setOut
        { cValid := some true, cData := some v, rd := some (inc s.fifo.blk.tail).toNat }) ∧
      b'.tail = inc s.fifo.blk.tail ∧ b'.storage = s.fifo.blk.storage ∧ b'.head = s.fifo.blk.head ∧
      b'.tailSeen = s.fifo.blk.tailSeen ∧ b'.full = s.fifo.blk.full ∧ b'.initDone = true ∧
      (s.fifo.blk.isArchitectural = true →
        b'.crossing = s.fifo.blk.crossing ∧ (b'.empty = true ↔ s.fifo.blk.headSeen = inc s.fifo.blk.tail))

/-- R121, R201: a POP that finds `head_seen == tail` answers `c_valid = 0` with no `c_data` (U7) and writes no register. -/
def Obligations.PopAtEmptyWritesNothing : Prop :=
  ∀ s : State, s.fifo.ready = true → s.fifo.blk.headSeen = s.fifo.blk.tail →
    ∃ b' : Block s.fifo.N,
      exec .pop s = .next ((s.setFifo { s.fifo with blk := b' }).setOut { cValid := some false }) ∧
      b'.storage = s.fifo.blk.storage ∧ b'.head = s.fifo.blk.head ∧ b'.tail = s.fifo.blk.tail ∧
      b'.tailSeen = s.fifo.blk.tailSeen ∧ b'.initDone = true ∧
      (s.fifo.blk.isArchitectural = true → b' = s.fifo.blk)

/-- R122: COUNT returns `(head_seen - tail) & MASK`, at most `C - 1`, and writes nothing. -/
def Obligations.CountReturnsTheMaskedDifference : Prop :=
  ∀ s : State, s.fifo.ready = true →
    ∃ (n : Nat) (b' : Block s.fifo.N),
      exec .count s = .next ((s.setFifo { s.fifo with blk := b' }).setOut { cCount := some n }) ∧
      (n : Int) = ((s.fifo.blk.headSeen.toNat : Int) - s.fifo.blk.tail.toNat) % (2 ^ s.fifo.N : Nat) ∧
      n ≤ 2 ^ s.fifo.N - 1 ∧
      b'.storage = s.fifo.blk.storage ∧ b'.head = s.fifo.blk.head ∧ b'.tail = s.fifo.blk.tail ∧
      b'.tailSeen = s.fifo.blk.tailSeen ∧ b'.initDone = true ∧
      (s.fifo.blk.isArchitectural = true → b' = s.fifo.blk)

/-- R123: DRAIN sets `tail` to `head_seen`, returns nothing, touches no slot and not `head`; `full` does not change, and at
the architectural level `empty` is 1 after it. -/
def Obligations.DrainSetsTailToTheView : Prop :=
  ∀ s : State, s.fifo.ready = true →
    ∃ b' : Block s.fifo.N,
      exec .drain s = .next ((s.setFifo { s.fifo with blk := b' }).setOut {}) ∧
      b'.tail = s.fifo.blk.headSeen ∧ b'.storage = s.fifo.blk.storage ∧ b'.head = s.fifo.blk.head ∧
      b'.tailSeen = s.fifo.blk.tailSeen ∧ b'.full = s.fifo.blk.full ∧ b'.initDone = true ∧
      (s.fifo.blk.isArchitectural = true → b'.crossing = s.fifo.blk.crossing ∧ b'.empty = true)

/-- R170, R230: INIT brings both pointers, both views, both gray registers and every stage to 0, leaves storage and the
clients alone, needs no earlier INIT, and leaves `empty = 1`, `full = 0`. What `quiescent` is in terms of the clients is
the model's reading (log 9). -/
def Obligations.InitZeroesEveryRegister : Prop :=
  ∀ s : State, s.fifo.legal = true → s.quiescent = true →
    ∃ b' : Block s.fifo.N,
      exec .init s = .next ((s.setFifo { s.fifo with blk := b' }).setOut {}) ∧
      b'.head = 0 ∧ b'.tail = 0 ∧ b'.headSeen = 0 ∧ b'.tailSeen = 0 ∧ b'.storage = s.fifo.blk.storage ∧
      b'.initDone = true ∧ b'.empty = true ∧ b'.full = false ∧
      (∀ hg tg hs ts, s.fifo.blk.crossing = .clocked hg tg hs ts →
        b'.crossing = .clocked 0 0 (List.replicate s.fifo.S 0) (List.replicate s.fifo.S 0))

/-- R231, R233, R5, R237: where there is no step. Illegal parameters stop every command; before the first INIT every
command but INIT stops; INIT stops while a client may issue a command (log 9); a POP of a slot that holds no
value stops (R34, U8; that it is a fault is the model's choice, log 4). The transmit-ready event, which reads `empty`, and
its handler's disable after it stop like a command of the transmit copy. Before the facade's `init` has finished (R190 (2),
R181; log 8) no call but `init` begins, no event occurs, and no step pushes, pops, counts or moves a pointer but to 0. -/
def Obligations.CommandsOutsideTheContractAreRefused : Prop :=
  (∀ (i : Instr) (s : State), s.fifo.legal = false → exec i s = .refused .illegalParameters) ∧
  (∀ (i : Instr) (s : State), i ≠ .init → s.fifo.legal = true → s.fifo.blk.initDone = false →
    exec i s = .refused .beforeInit) ∧
  (∀ s : State, s.fifo.legal = true → s.quiescent = false → exec .init s = .refused .initNotQuiescent) ∧
  (∀ s : State, s.fifo.ready = true → s.fifo.blk.headSeen ≠ s.fifo.blk.tail →
    s.fifo.blk.storage.read (inc s.fifo.blk.tail).toNat = none → exec .pop s = .fault .unwrittenSlot) ∧
  (∀ s : State, s.driver = .clients →
    (s.tx.legal = false → s.clients.transmitHandler = .disabling →
      stepWith (.advance .transmitHandler) s = .refused .illegalParameters) ∧
    (s.tx.legal = true → s.tx.blk.initDone = false → s.clients.transmitHandler = .disabling →
      stepWith (.advance .transmitHandler) s = .refused .beforeInit) ∧
    (s.clients.txIrqEnable = true → s.clients.serial.globalInterruptsOn = true → s.handlersIdle = true →
      (s.tx.legal = false → stepWith .transmitReady s = .refused .illegalParameters) ∧
      (s.tx.legal = true → s.tx.blk.initDone = false → stepWith .transmitReady s = .refused .beforeInit))) ∧
  (∀ s : State, s.driver = .clients → s.clients.started = false → s.handlersIdle = true →
    (∀ c, s.clients.mainline = .idle → (∀ cfg, c ≠ .init cfg) → stepWith (.call c) s = .refused .beforeFacadeInit) ∧
    (∀ b st, s.clients.serial.receiveInterruptOn = true → s.clients.serial.globalInterruptsOn = true →
      stepWith (.receive b st) s = .refused .beforeFacadeInit) ∧
    (s.clients.txIrqEnable = true → s.clients.serial.globalInterruptsOn = true → s.tx.ready = true →
      stepWith .transmitReady s = .refused .beforeFacadeInit)) ∧
  (∀ (s t : State) (inp : Input) (ch : Channel), s.driver = .clients → s.clients.started = false →
    stepWith inp s = .next t →
      ∃ b' : Block (s.fifoOf ch).N, t.fifoOf ch = { s.fifoOf ch with blk := b' } ∧ t.out = {} ∧
        b'.storage = (s.fifoOf ch).blk.storage ∧
        ((b'.head = (s.fifoOf ch).blk.head ∧ b'.tail = (s.fifoOf ch).blk.tail) ∨ (b'.head = 0 ∧ b'.tail = 0)))

/-- What a producer command leaves alone, in every form (R111, R53, R30): the other copy, the clients, the schedule,
`tail`, the consumer's view and `empty`; every slot but `inc(head)`, and that one too when `full = 1` or nothing is
pushed. -/
def Obligations.ProducerCommandsKeepTheRest : Prop :=
  ∀ (i : Instr) (s t : State), i.port = .pcmd → exec i s = .next t →
    ∃ b' : Block s.fifo.N,
      t = (s.setFifo { s.fifo with blk := b' }).setOut t.out ∧
      b'.tail = s.fifo.blk.tail ∧ b'.headSeen = s.fifo.blk.headSeen ∧ b'.empty = s.fifo.blk.empty ∧
      b'.initDone = s.fifo.blk.initDone ∧
      (∀ a, a ≠ s.fifo.blk.wrAddr.toNat → b'.storage.read a = s.fifo.blk.storage.read a) ∧
      (i = .pNop ∨ s.fifo.blk.full = true → b'.head = s.fifo.blk.head ∧ b'.storage = s.fifo.blk.storage)

/-- What a consumer command leaves alone, in every form (R121 to R123, R53, R30): the other copy, the clients, the
schedule, `head`, every slot, the producer's view and `full`; and `tail` too for C_NOP and COUNT. -/
def Obligations.ConsumerCommandsKeepTheRest : Prop :=
  ∀ (i : Instr) (s t : State), i.port = .ccmd → exec i s = .next t →
    ∃ b' : Block s.fifo.N,
      t = (s.setFifo { s.fifo with blk := b' }).setOut t.out ∧
      b'.head = s.fifo.blk.head ∧ b'.storage = s.fifo.blk.storage ∧ b'.tailSeen = s.fifo.blk.tailSeen ∧
      b'.full = s.fifo.blk.full ∧ b'.initDone = s.fifo.blk.initDone ∧
      (i = .cNop ∨ i = .count → b'.tail = s.fifo.blk.tail) ∧
      (i = .pop → b'.tail = s.fifo.blk.tail ∨ b'.tail = inc s.fifo.blk.tail)

/-! ### The crossing. -/

/-- R145: every producer clock edge launches the code of the new `head` and shifts the tail chain by one, taking in
`tail_gray` as it was. -/
def Obligations.ProducerEdgeShiftsTheTailChain : Prop :=
  ∀ (i : Instr) (s t : State) (hg tg : BitVec s.fifo.N) (hs ts : List (BitVec s.fifo.N)),
    i.port = .pcmd → s.fifo.blk.crossing = .clocked hg tg hs ts → exec i s = .next t →
    ∃ b' : Block s.fifo.N,
      t.fifo = { s.fifo with blk := b' } ∧ b'.crossing = .clocked (gray b'.head) tg hs (tg :: ts.dropLast)

/-- R146, R147: every consumer clock edge shifts the head chain by one, taking in `head_gray` as it was, and `tail_gray`
stays if it holds the code of the new `tail`, else moves to the code of the next position. -/
def Obligations.ConsumerEdgeShiftsTheHeadChainAndWalks : Prop :=
  ∀ (i : Instr) (s t : State) (hg tg : BitVec s.fifo.N) (hs ts : List (BitVec s.fifo.N)),
    i.port = .ccmd → s.fifo.blk.crossing = .clocked hg tg hs ts → exec i s = .next t →
    ∃ b' : Block s.fifo.N,
      t.fifo = { s.fifo with blk := b' } ∧
      (tg = gray b'.tail → b'.crossing = .clocked hg tg (hg :: hs.dropLast) ts) ∧
      (tg ≠ gray b'.tail → b'.crossing = .clocked hg (gray (inc (ungray tg))) (hg :: hs.dropLast) ts)

/-- R143: SYNC.H `k` has a step exactly when `1 <= k <= d(head_seen, head)`; it moves `head_seen` by `k` and nothing else,
`empty` is 0 after it, `full` is as before, and the largest `k` catches up. -/
def Obligations.SyncHMovesTheConsumersView : Prop :=
  ∀ (ch : Channel) (k : Nat) (s : State) (h t : BitVec (s.fifoOf ch).N),
    (s.fifoOf ch).ready = true → (s.fifoOf ch).blk.crossing = .architectural h t →
    (1 ≤ k ∧ k ≤ (dist h (s.fifoOf ch).blk.head).toNat →
      ∃ b' : Block (s.fifoOf ch).N,
        takeInput (.syncH ch k) s = .next (((s.on ch).setFifo { s.fifoOf ch with blk := b' }).setOut {}) ∧
        b' = { (s.fifoOf ch).blk with crossing := .architectural (advance h k) t } ∧
        b'.full = (s.fifoOf ch).blk.full ∧
        ((s.fifoOf ch).blk.inv = true → b'.empty = false) ∧
        (k = (dist h (s.fifoOf ch).blk.head).toNat → b'.headSeen = (s.fifoOf ch).blk.head)) ∧
    (¬(1 ≤ k ∧ k ≤ (dist h (s.fifoOf ch).blk.head).toNat) →
      takeInput (.syncH ch k) s = .refused .syncNotEnabled)

/-- R144: the same for SYNC.T and the producer's view; `full` is 0 after it and `empty` is as before. -/
def Obligations.SyncTMovesTheProducersView : Prop :=
  ∀ (ch : Channel) (k : Nat) (s : State) (h t : BitVec (s.fifoOf ch).N),
    (s.fifoOf ch).ready = true → (s.fifoOf ch).blk.crossing = .architectural h t →
    (1 ≤ k ∧ k ≤ (dist t (s.fifoOf ch).blk.tail).toNat →
      ∃ b' : Block (s.fifoOf ch).N,
        takeInput (.syncT ch k) s = .next (((s.on ch).setFifo { s.fifoOf ch with blk := b' }).setOut {}) ∧
        b' = { (s.fifoOf ch).blk with crossing := .architectural h (advance t k) } ∧
        b'.empty = (s.fifoOf ch).blk.empty ∧
        ((s.fifoOf ch).blk.inv = true → b'.full = false) ∧
        (k = (dist t (s.fifoOf ch).blk.tail).toNat → b'.tailSeen = (s.fifoOf ch).blk.tail)) ∧
    (¬(1 ≤ k ∧ k ≤ (dist t (s.fifoOf ch).blk.tail).toNat) →
      takeInput (.syncT ch k) s = .refused .syncNotEnabled)

/-- R140: the code, bit by bit; it is a bijection and the code of 0 is 0. -/
def Obligations.GrayIsTheReflectedCode : Prop :=
  ∀ N : Nat, 0 < N →
    (∀ b : BitVec N, gray b = b ^^^ (b >>> 1) ∧ (gray b).getLsbD (N - 1) = b.getLsbD (N - 1) ∧
      ∀ i, i + 1 < N → (gray b).getLsbD i = (b.getLsbD (i + 1) ^^ b.getLsbD i)) ∧
    (∀ a b : BitVec N, gray a = gray b → a = b) ∧ (∀ g : BitVec N, ∃ b, gray b = g) ∧ gray (0 : BitVec N) = 0

/-- R141: the decoding, bit by bit and as the sum of all shifts, and both round trips. -/
def Obligations.UngrayInvertsGray : Prop :=
  ∀ N : Nat, 0 < N → ∀ g : BitVec N,
    (ungray g).getLsbD (N - 1) = g.getLsbD (N - 1) ∧
    (∀ i, i + 1 < N → (ungray g).getLsbD i = ((ungray g).getLsbD (i + 1) ^^ g.getLsbD i)) ∧
    ungray g = (List.range N).foldl (fun acc i => acc ^^^ (g >>> i)) 0 ∧
    (∀ b : BitVec N, ungray (gray b) = b) ∧ gray (ungray g) = g

/-- R142: the codes of neighbouring positions differ in exactly one bit, the wrap included, where it is the top bit. -/
def Obligations.NeighbouringCodesDifferInOneBit : Prop :=
  ∀ N : Nat, 0 < N →
    (∀ b : BitVec N, ∃ i, i < N ∧ ∀ j, (gray b).getLsbD j ≠ (gray (inc b)).getLsbD j ↔ j = i) ∧
    (∀ j, (gray (BitVec.allOnes N)).getLsbD j = true ↔ j = N - 1)

/-- R32 (d), R147, R236: no command makes a launched register change more than one bit, DRAIN included. -/
def Obligations.LaunchedRegistersMoveOneBitAtATime : Prop :=
  ∀ (i : Instr) (s t : State) (b' : Block s.fifo.N) (hg tg hg' tg' : BitVec s.fifo.N)
    (hs ts hs' ts' : List (BitVec s.fifo.N)),
    i ≠ .init → s.fifo.blk.inv = true → s.fifo.blk.crossing = .clocked hg tg hs ts →
    exec i s = .next t → t.fifo = { s.fifo with blk := b' } → b'.crossing = .clocked hg' tg' hs' ts' →
      (∃ n, ∀ j, j ≠ n → hg'.getLsbD j = hg.getLsbD j) ∧ (∃ n, ∀ j, j ≠ n → tg'.getLsbD j = tg.getLsbD j)

/-- R149: a producer clock edge of the clocked realisation is the same command on the architectural image, followed by
SYNC.T `k` with `k` the distance between the last two stages before the edge, and by no SYNC step when `k = 0`. -/
def Obligations.ProducerEdgeIsCommandThenSyncT : Prop :=
  ∀ (i : Instr) (s t : State) (hg tg : BitVec s.fifo.N) (hs ts : List (BitVec s.fifo.N)) (k : Nat),
    i.port = .pcmd → s.fifo.blk.inv = true → s.fifo.blk.crossing = .clocked hg tg hs ts →
    k = (dist (ungray (ts.getLastD 0)) (ungray (ts.dropLast.getLastD 0))).toNat → exec i s = .next t →
      ∃ u, exec i s.image = .next u ∧ u.out = t.out ∧
        (k = 0 → u = t.image) ∧
        (k ≠ 0 → ∃ v, takeInput (.syncT s.sel k) u = .next v ∧ v.setOut t.out = t.image)

/-- R149: a consumer clock edge, likewise followed by SYNC.H `k`. -/
def Obligations.ConsumerEdgeIsCommandThenSyncH : Prop :=
  ∀ (i : Instr) (s t : State) (hg tg : BitVec s.fifo.N) (hs ts : List (BitVec s.fifo.N)) (k : Nat),
    i.port = .ccmd → s.fifo.blk.inv = true → s.fifo.blk.crossing = .clocked hg tg hs ts →
    k = (dist (ungray (hs.getLastD 0)) (ungray (hs.dropLast.getLastD 0))).toNat → exec i s = .next t →
      ∃ u, exec i s.image = .next u ∧ u.out = t.out ∧
        (k = 0 → u = t.image) ∧
        (k ≠ 0 → ∃ v, takeInput (.syncH s.sel k) u = .next v ∧ v.setOut t.out = t.image)

/-- R152: in the clocked realisation `S` edges of the receiving clock carry a pointer across, whatever commands they
carry: after `S` consumer edges `head_seen == head`, after `S` producer edges the producer sees the position `tail_gray`
held. -/
def Obligations.PointersCrossInSEdges : Prop :=
  ∀ (ch : Channel) (s t : State) (words : List Ports) (hg tg : BitVec (s.fifoOf ch).N)
    (hs ts : List (BitVec (s.fifoOf ch).N)),
    s.driver = .ports → (s.fifoOf ch).ready = true → (s.fifoOf ch).blk.inv = true →
    (s.fifoOf ch).blk.crossing = .clocked hg tg hs ts → words.length = (s.fifoOf ch).S →
    (∀ p ∈ words, p.init = 0) →
      (follow (words.map (.ports ch .consumer)) s = .next t →
        ∃ b' : Block (s.fifoOf ch).N, t.fifoOf ch = { s.fifoOf ch with blk := b' } ∧
          b'.head = (s.fifoOf ch).blk.head ∧ b'.headSeen = (s.fifoOf ch).blk.head) ∧
      (follow (words.map (.ports ch .producer)) s = .next t →
        ∃ b' : Block (s.fifoOf ch).N, t.fifoOf ch = { s.fifoOf ch with blk := b' } ∧
          b'.tail = (s.fifoOf ch).blk.tail ∧ b'.tailSeen = ungray tg)

/-- R61: on a weakly fair run, a pointer that stops changing is seen by the other side after finitely many steps. -/
def Obligations.FairCrossingsCatchUp : Prop :=
  ∀ (ch : Channel) (r : Nat → State) (n : Nat),
    isRun r → ((r 0).fifoOf ch).ready = true → ((r 0).fifoOf ch).blk.isArchitectural = true →
      (∀ h, weaklyFair (.syncH ch) r → (∀ m, n ≤ m → ((r m).fifoOf ch).blk.head.toNat = h) →
        ∃ m, n ≤ m ∧ ((r m).fifoOf ch).blk.headSeen = ((r m).fifoOf ch).blk.head) ∧
      (∀ h, weaklyFair (.syncT ch) r → (∀ m, n ≤ m → ((r m).fifoOf ch).blk.tail.toNat = h) →
        ∃ m, n ≤ m ∧ ((r m).fifoOf ch).blk.tailSeen = ((r m).fifoOf ch).blk.tail)

/-- R151: on one processor a step leaves both views of an architectural block current if they were, and every step that
takes an input leaves them current; where they are current the flags are exact, the count is the true occupancy and DRAIN
sets `tail` to `head`. That the catch-up is part of the step itself is the model's form (log 12). -/
def Obligations.OneProcessorHasNoLag : Prop :=
  (∀ (s t : State) (ch : Channel), s.platform = .singleProcessor → (s.fifoOf ch).blk.isArchitectural = true →
    step s = .next t → s.inputs ≠ [] ∨ (s.fifoOf ch).blk.current = true → (t.fifoOf ch).blk.current = true) ∧
  (∀ (N : Nat) (b : Block N), b.current = true →
    (b.full = true ↔ inc b.head = b.tail) ∧ (b.empty = true ↔ b.head = b.tail) ∧
    b.available.toNat = b.occupancy ∧ b.drain.tail = b.head)

/-! ### The invariant. -/

/-- The reset state meets the invariant. The sizes of the reset state are the model's choice (log 1). -/
def Obligations.ResetMeetsTheInvariant : Prop := State.reset.inv = true

/-- Every step keeps the invariant, from every state that meets it. -/
def Obligations.EveryStepKeepsTheInvariant : Prop :=
  ∀ s t : State, s.inv = true → step s = .next t → t.inv = true

/-- From a state that meets the invariant no step faults: no POP reads a slot that no PUSH wrote (R121 corner case 4), and
the transmit-ready handler's POP succeeds (R124). That such a POP would be a fault is the model's choice (log 4, log 19). -/
def Obligations.NoStepFaults : Prop :=
  ∀ (s : State) (r : Fault), s.inv = true → step s ≠ .fault r

/-- R23, R24, R26: the views lie where the spec says, and the unread slots run from `inc(tail)` to `head`, each holding a
byte, never the slot at `tail`. -/
def Obligations.ViewsAndOccupancyStayInBounds : Prop :=
  ∀ q : Fifo, q.legal = true → q.blk.inv = true → q.blk.initDone = true →
    (dist q.blk.tail q.blk.headSeen).toNat ≤ (dist q.blk.tail q.blk.head).toNat ∧
    (dist q.blk.tailSeen q.blk.tail).toNat + (dist q.blk.tail q.blk.head).toNat ≤ 2 ^ q.N - 1 ∧
    (dist q.blk.tailSeen q.blk.head).toNat =
      (dist q.blk.tailSeen q.blk.tail).toNat + (dist q.blk.tail q.blk.head).toNat ∧
    q.blk.contents.length = q.blk.occupancy ∧ q.blk.slot 0 = inc q.blk.tail ∧
    (∀ i, i < q.blk.occupancy → q.blk.slot i ≠ q.blk.tail) ∧
    (0 < q.blk.occupancy → q.blk.slot (q.blk.occupancy - 1) = q.blk.head)

/-- R27, R235: the flags err one way only. -/
def Obligations.FlagsArePessimistic : Prop :=
  ∀ q : Fifo, q.legal = true → q.blk.inv = true → q.blk.initDone = true →
    (inc q.blk.head = q.blk.tail → q.blk.full = true) ∧ (q.blk.head = q.blk.tail → q.blk.empty = true)

/-- R29: no step changes `N` or `S`. That none changes the level, the platform or who drives the inputs is the model's
choice (log 1, log 16): they are not state of the hardware. -/
def Obligations.ConfigurationNeverChanges : Prop :=
  ∀ (s t : State) (ch : Channel), step s = .next t →
    (t.fifoOf ch).N = (s.fifoOf ch).N ∧ (t.fifoOf ch).S = (s.fifoOf ch).S ∧
    (t.fifoOf ch).blk.isArchitectural = (s.fifoOf ch).blk.isArchitectural ∧
    t.platform = s.platform ∧ t.driver = s.driver

/-- R53, R56, R212: who writes what, for every input. A consumer step never writes `head` or a slot, a producer step never
writes `tail`, a step of the crossing writes none of them. The receive handler leaves every `tail` and the transmit copy,
the transmit handler every `head`, every slot and the receive copy, mainline code outside `init` the receive copy's
`head` and slots and the transmit copy's `tail` (R175); a call, an event and the global switch leave both copies. What is
left is INIT, which writes no slot and only zeroes (R170). On one processor the views of a copy left alone still settle
(log 12). -/
def Obligations.EachPointerHasOneWriter : Prop :=
  ∀ (s t : State) (ch : Channel) (inp : Input), stepWith inp s = .next t →
    ∃ b' : Block (s.fifoOf ch).N, t.fifoOf ch = { s.fifoOf ch with blk := b' } ∧
      (∀ c p, inp = .ports c .consumer p → p.init = 0 →
        b'.head = (s.fifoOf ch).blk.head ∧ b'.storage = (s.fifoOf ch).blk.storage) ∧
      (∀ c p, inp = .ports c .producer p → p.init = 0 → b'.tail = (s.fifoOf ch).blk.tail) ∧
      (∀ c k, inp = .syncH c k ∨ inp = .syncT c k →
        b'.head = (s.fifoOf ch).blk.head ∧ b'.tail = (s.fifoOf ch).blk.tail ∧
        b'.storage = (s.fifoOf ch).blk.storage) ∧
      (inp = .advance .receiveHandler →
        b'.tail = (s.fifoOf ch).blk.tail ∧ (ch = .tx → t.fifoOf ch = s.platform.settled (s.fifoOf ch))) ∧
      (inp = .advance .transmitHandler →
        b'.head = (s.fifoOf ch).blk.head ∧ b'.storage = (s.fifoOf ch).blk.storage ∧
        (ch = .rx → t.fifoOf ch = s.platform.settled (s.fifoOf ch))) ∧
      (inp = .advance .mainline → (∀ stage cfg, s.clients.mainline ≠ .initialising stage cfg) →
        (ch = .rx → b'.head = (s.fifoOf ch).blk.head ∧ b'.storage = (s.fifoOf ch).blk.storage) ∧
        (ch = .tx → b'.tail = (s.fifoOf ch).blk.tail)) ∧
      ((∃ c, inp = .call c) ∨ (∃ b st, inp = .receive b st) ∨ inp = .transmitReady ∨
          (∃ on, inp = .globalInterrupts on) →
        t.fifoOf ch = s.platform.settled (s.fifoOf ch)) ∧
      ((∃ c side p, inp = .ports c side p ∧ p.init = 1) ∨
          (inp = .advance .mainline ∧ ∃ stage cfg, s.clients.mainline = .initialising stage cfg) →
        b'.storage = (s.fifoOf ch).blk.storage ∧
        ((b'.head = (s.fifoOf ch).blk.head ∧ b'.tail = (s.fifoOf ch).blk.tail) ∨ (b'.head = 0 ∧ b'.tail = 0)))

/-- R9, R66: the two copies share no state. With the sides in domains of their own, a step on one copy leaves the other
as it was, and what it does and answers depends on its own copy alone. -/
def Obligations.CopiesAreIndependent : Prop :=
  ∀ (ch other : Channel) (side : Side) (p : Ports) (s s' t : State), other ≠ ch →
    s.platform = .twoDomains → s'.platform = .twoDomains → s.driver = .ports → s'.driver = .ports →
    s.fifoOf ch = s'.fifoOf ch → stepWith (.ports ch side p) s = .next t →
      t.fifoOf other = s.fifoOf other ∧
      ∃ t', stepWith (.ports ch side p) s' = .next t' ∧ t'.fifoOf ch = t.fifoOf ch ∧ t'.out = t.out

/-! ### The queue. -/

/-- R65: over any run of any length, the bytes that were unread and those stored since, in order, are those taken out and
those still unread, in order; and the bytes returned are among those taken out, in order. What was taken out and not
returned was discarded by a DRAIN or an INIT. -/
def Obligations.BytesLeaveInTheOrderTheyEntered : Prop :=
  ∀ (ch : Channel) (k : Nat) (s u : State) (stored returned : List Byte),
    s.inv = true → (s.fifoOf ch).blk.initDone = true → trace ch k s = some (u, stored, returned) →
      ∃ taken, (s.fifoOf ch).blk.contents ++ stored = taken ++ (u.fifoOf ch).blk.contents ∧
        List.Sublist returned taken

/-- R65, "with no DRAIN it is a prefix": where no input discards, nothing is lost. -/
def Obligations.NothingIsLostWithoutADiscard : Prop :=
  ∀ (ch : Channel) (k : Nat) (s u : State) (stored returned : List Byte),
    s.inv = true → (s.fifoOf ch).blk.initDone = true → s.driver = .ports →
    (∀ inp ∈ s.inputs, keepsBytes inp = true) → trace ch k s = some (u, stored, returned) →
      (s.fifoOf ch).blk.contents ++ stored = returned ++ (u.fifoOf ch).blk.contents

/-- The FIFO law in the source's test form (R65, S1), with the sides in two domains and the outside driving the inputs: up
to `C - 1` pushes on an empty architectural copy all succeed, and after a full SYNC.H as many pops return the same bytes
in the same order. -/
def Obligations.PushesThenPopsReturnTheSameBytes : Prop :=
  ∀ (ch : Channel) (s : State) (bytes : List Byte),
    s.inv = true → (s.fifoOf ch).blk.initDone = true → s.driver = .ports → s.platform = .twoDomains →
    (s.fifoOf ch).blk.isArchitectural = true → (s.fifoOf ch).blk.current = true →
    (s.fifoOf ch).blk.head = (s.fifoOf ch).blk.tail →
    bytes ≠ [] → bytes.length ≤ 2 ^ (s.fifoOf ch).N - 1 →
    s.inputs = bytes.map (fun b => commandInput ch (.push b)) ++ [.syncH ch bytes.length] ++
      List.replicate bytes.length (commandInput ch .pop) →
      ∃ u, trace ch s.inputs.length s = some (u, bytes, bytes)

/-- R112: `full = 0` at one step means that a PUSH at any later step, with none stored between, succeeds. -/
def Obligations.RoomSeenStaysUntilUsed : Prop :=
  ∀ (ch : Channel) (k : Nat) (s u : State) (returned : List Byte) (data : Byte),
    s.inv = true → (s.fifoOf ch).blk.initDone = true → (s.fifoOf ch).blk.full = false →
    trace ch k s = some (u, [], returned) →
      (u.fifoOf ch).blk.full = false ∧
      ∃ t, exec (.push data) (u.on ch) = .next t ∧ t.out.pOk = some true

/-- R124: `empty = 0` at one step means that a POP at any later step, with no POP, DRAIN or INIT between, returns a byte. -/
def Obligations.ByteSeenStaysUntilTaken : Prop :=
  ∀ (ch : Channel) (k : Nat) (s u : State) (stored : List Byte),
    s.inv = true → (s.fifoOf ch).blk.initDone = true → (s.fifoOf ch).blk.empty = false → s.driver = .ports →
    (∀ inp ∈ s.inputs, keepsBytes inp = true) → trace ch k s = some (u, stored, []) →
      (u.fifoOf ch).blk.empty = false ∧
      ∃ t v, exec .pop (u.on ch) = .next t ∧ t.out.cValid = some true ∧ t.out.cData = some v

/-- R122 corner case 3, R244: at the architectural level COUNT is exactly the number of POPs that succeed from here with no
SYNC.H between; they return the oldest bytes in order, and the next POP finds no data. -/
def Obligations.CountIsHowManyPopsSucceed : Prop :=
  ∀ (ch : Channel) (s : State),
    s.inv = true → (s.fifoOf ch).blk.initDone = true → s.driver = .ports → s.platform = .twoDomains →
    (s.fifoOf ch).blk.isArchitectural = true →
    s.inputs = List.replicate (s.fifoOf ch).blk.available.toNat (commandInput ch .pop) →
      ∃ u, trace ch s.inputs.length s =
          some (u, [], (s.fifoOf ch).blk.contents.take (s.fifoOf ch).blk.available.toNat) ∧
        (s.fifoOf ch).blk.available.toNat ≤ (s.fifoOf ch).blk.contents.length ∧
        ∃ t, exec .pop (u.on ch) = .next t ∧ t.out.cValid = some false

/-- R6, R111 corner case 4: with no SYNC.T between, at most `C - 1` PUSH steps succeed, whatever the consumer does. -/
def Obligations.AtMostCMinusOnePushesWithoutSyncT : Prop :=
  ∀ (ch : Channel) (k : Nat) (s u : State) (stored returned : List Byte),
    s.inv = true → (s.fifoOf ch).blk.initDone = true → s.driver = .ports → s.platform = .twoDomains →
    (s.fifoOf ch).blk.isArchitectural = true → (∀ inp ∈ s.inputs, leavesTailView ch inp = true) →
    trace ch k s = some (u, stored, returned) →
      stored.length + (dist (s.fifoOf ch).blk.tailSeen (s.fifoOf ch).blk.head).toNat ≤ 2 ^ (s.fifoOf ch).N - 1

/-! ### The clients. Their operations run once the facade's `init` has finished (R190 (2); log 8). How an operation is
divided into steps, and that its return value stands in `returned`, is the model's choice (log 11); so are `sent` and the
other serial fields (log 14). -/

/-- R178, R203: one event, one kind, the first in the priority order among those that apply: a byte not stored is
`BufferOverflow`, else overrun, else framing, else `NoError`. -/
def Obligations.ErrorKindsFollowThePriority : Prop :=
  (∀ st : HwStatus,
    (st.overrun = true → classify st = .overrunError) ∧
    (st.overrun = false → st.framing = true → classify st = .framingError) ∧
    (st.overrun = false → st.framing = false → classify st = .noError)) ∧
  (∀ k : ErrorKind, latchedKind k (some false) = .bufferOverflow ∧ latchedKind k (some true) = k) ∧
  priority .bufferOverflow < priority .overrunError ∧ priority .overrunError < priority .framingError ∧
  priority .framingError < priority .noError

/-- R177: a receive event on the receive copy. Not full: the byte is stored at `inc(head)` and the hardware's kind is
latched. Full: nothing is stored and `BufferOverflow` is latched, whatever the hardware reported. -/
def Obligations.ReceiveEventStoresAndLatches : Prop :=
  ∀ (s : State) (b : Byte) (st : HwStatus),
    s.driver = .clients → s.clients.started = true → s.rx.ready = true → s.handlersIdle = true → s.steady .rx = true →
    s.clients.serial.receiveInterruptOn = true → s.clients.serial.globalInterruptsOn = true →
      ∃ (t : State) (b' : Block s.rx.N),
        follow [.receive b st, .advance .receiveHandler, .advance .receiveHandler] s = .next t ∧
        t.rx = { s.rx with blk := b' } ∧ t.clients.receiveHandler = .idle ∧ b'.tail = s.rx.blk.tail ∧
        (s.rx.blk.full = false →
          t.clients.lastRxError = classify st ∧ b'.head = inc s.rx.blk.head ∧
          b'.storage = s.rx.blk.storage.write (inc s.rx.blk.head).toNat b) ∧
        (s.rx.blk.full = true →
          t.clients.lastRxError = .bufferOverflow ∧ b'.head = s.rx.blk.head ∧ b'.storage = s.rx.blk.storage)

/-- R179: a transmit-ready event. Empty: the source is disabled and nothing is handed to the transmitter. Not empty: the
oldest byte is popped and handed to it. -/
def Obligations.TransmitReadyEventSendsOrDisables : Prop :=
  ∀ (s : State), s.driver = .clients → s.clients.started = true →
    s.tx.ready = true → s.handlersIdle = true → s.steady .tx = true →
    s.clients.txIrqEnable = true → s.clients.serial.globalInterruptsOn = true →
      (s.tx.blk.empty = true →
        ∃ t, follow [.transmitReady, .advance .transmitHandler] s = .next t ∧
          t.clients.txIrqEnable = false ∧ t.clients.serial.sent = s.clients.serial.sent ∧
          t.clients.transmitHandler = .idle ∧ t.tx = s.tx) ∧
      (∀ v, s.tx.blk.empty = false → s.tx.blk.storage.read (inc s.tx.blk.tail).toNat = some v →
        ∃ (t : State) (b' : Block s.tx.N),
          follow [.transmitReady, .advance .transmitHandler, .advance .transmitHandler] s = .next t ∧
          t.clients.serial.sent = s.clients.serial.sent ++ [v] ∧ t.clients.txIrqEnable = true ∧
          t.clients.transmitHandler = .idle ∧ t.tx = { s.tx with blk := b' } ∧ b'.tail = inc s.tx.blk.tail ∧
          b'.head = s.tx.blk.head ∧ b'.storage = s.tx.blk.storage)

/-- R182, D21: `try_read_byte` pops the receive copy; on a byte it reads the latch afterwards, as a step of its own, and
returns the pair; on no data it returns `NoData`. The latch is not changed by reading. -/
def Obligations.TryReadByteReadsTheLatchAfterThePop : Prop :=
  ∀ (s : State), s.driver = .clients → s.clients.started = true →
    s.rx.ready = true → s.handlersIdle = true → s.steady .rx = true →
    s.clients.mainline = .idle →
      (s.rx.blk.empty = true →
        ∃ (t : State) (b' : Block s.rx.N), follow [.call .tryReadByte, .advance .mainline] s = .next t ∧
          t.clients = { s.clients with returned := some (.read .noData) } ∧ t.rx = { s.rx with blk := b' } ∧
          b'.tail = s.rx.blk.tail ∧ b'.head = s.rx.blk.head ∧ b'.storage = s.rx.blk.storage) ∧
      (∀ v, s.rx.blk.empty = false → s.rx.blk.storage.read (inc s.rx.blk.tail).toNat = some v →
        ∃ (t : State) (b' : Block s.rx.N), follow [.call .tryReadByte, .advance .mainline] s = .next t ∧
          t.clients = { s.clients with mainline := .sampling v } ∧ t.rx = { s.rx with blk := b' } ∧
          b'.tail = inc s.rx.blk.tail ∧ b'.head = s.rx.blk.head ∧ b'.storage = s.rx.blk.storage)

/-- R182, D21: the second half of `try_read_byte` pairs the byte with the latch as it stands then. -/
def Obligations.TryReadBytePairsWithTheCurrentLatch : Prop :=
  ∀ (s : State) (v : Byte), s.driver = .clients → s.handlersIdle = true → s.clients.mainline = .sampling v →
    ∃ t, stepWith (.advance .mainline) s = .next t ∧
      t.clients = { s.clients with mainline := .idle, returned := some (.read (.byte v s.clients.lastRxError)) }

/-- R183, U13: `write_byte` on a transmit copy with room first stores the byte, the transmit-ready interrupt as before;
then, in a step of its own, enables the interrupt and returns. -/
def Obligations.WriteByteStoresThenEnables : Prop :=
  ∀ (s : State) (b : Byte), s.driver = .clients → s.clients.started = true →
    s.tx.ready = true → s.handlersIdle = true → s.steady .tx = true →
    s.clients.mainline = .idle → s.tx.blk.full = false →
      ∃ (u t : State) (b' : Block s.tx.N),
        follow [.call (.writeByte b), .advance .mainline] s = .next u ∧
        u.clients = { s.clients with mainline := .enabling [] } ∧
        u.tx = { s.tx with blk := b' } ∧ b'.head = inc s.tx.blk.head ∧ b'.tail = s.tx.blk.tail ∧
        b'.storage = s.tx.blk.storage.write (inc s.tx.blk.head).toNat b ∧
        stepWith (.advance .mainline) u = .next t ∧
        t.clients = { s.clients with txIrqEnable := true, returned := some .unit } ∧ t.tx = u.tx

/-- R241, U11: `write_byte` on a full transmit copy that nothing empties spins for ever: any number of its steps changes
nothing but the results and which copy is selected; on one processor the views settle, and the transmit copy's are
current already. -/
def Obligations.WriteByteSpinsWhileFull : Prop :=
  ∀ (s : State) (b : Byte) (rest : List Byte) (n : Nat),
    s.driver = .clients → s.clients.started = true → s.tx.ready = true → s.handlersIdle = true → s.steady .tx = true →
    s.tx.blk.isArchitectural = true → s.clients.mainline = .writing b rest → s.tx.blk.full = true →
      follow (List.replicate (n + 1) (.advance .mainline)) s =
        .next (settle ((s.on .tx).setOut { pOk := some false })) ∧
      (settle ((s.on .tx).setOut { pOk := some false })).tx = s.tx

/-- R184: `write_string` writes its bytes in order; with room for all of them it returns with every byte queued behind
those already there, and an empty sequence does nothing. On one processor the views are current after it (R151). -/
def Obligations.WriteStringQueuesItsBytesInOrder : Prop :=
  ∀ (s : State) (bytes : List Byte),
    s.inv = true → s.driver = .clients → s.clients.started = true → s.tx.blk.initDone = true → s.handlersIdle = true →
    s.steady .tx = true → s.tx.blk.isArchitectural = true → s.clients.mainline = .idle →
    (dist s.tx.blk.tailSeen s.tx.blk.head).toNat + bytes.length ≤ 2 ^ s.tx.N - 1 →
      ∃ t, follow (.call (.writeString bytes) :: List.replicate (2 * bytes.length) (.advance .mainline)) s = .next t ∧
        t.clients.mainline = .idle ∧ t.clients.returned = some .unit ∧
        t.tx.blk.contents = s.tx.blk.contents ++ bytes ∧
        (bytes ≠ [] → t.clients.txIrqEnable = true) ∧
        (bytes = [] → t.clients.txIrqEnable = s.clients.txIrqEnable ∧ t.tx = s.tx) ∧
        (s.platform = .singleProcessor → t.tx.blk.current = true)

/-- R185, R186, S5: `bytes_available` returns the receive copy's count; `flush_receive` leaves the latch alone, and a
`bytes_available` right after it, with no SYNC.H between, returns 0. On one processor the count is the true occupancy,
the flush discards all of it, and the views are caught up afterwards (R151). -/
def Obligations.FlushThenBytesAvailableIsZero : Prop :=
  ∀ (s : State), s.driver = .clients → s.clients.started = true →
    s.rx.ready = true → s.handlersIdle = true → s.steady .rx = true →
    s.rx.blk.isArchitectural = true → s.clients.mainline = .idle →
      (∃ t, follow [.call .bytesAvailable, .advance .mainline] s = .next t ∧
        t.clients = { s.clients with returned := some (.available s.rx.blk.available.toNat) } ∧ t.rx = s.rx ∧
        (s.platform = .singleProcessor → s.rx.blk.available.toNat = s.rx.blk.occupancy)) ∧
      (∃ t, follow [.call .flushReceive, .advance .mainline, .call .bytesAvailable, .advance .mainline] s = .next t ∧
        t.clients = { s.clients with returned := some (.available 0) } ∧
        t.rx = s.platform.settled { s.rx with blk := { s.rx.blk with tail := s.rx.blk.headSeen } } ∧
        (s.platform = .singleProcessor → t.rx.blk.current = true ∧ t.rx.blk.occupancy = 0))

/-- R181, R170 corner case 4: `init` resets both copies, programs the baud value, then enables the receiver, the
transmitter, the receive interrupt and, last, the global mechanism, on either platform (S9), and has finished only then
(R190 (2)). A handler past its command is no hindrance while the global mechanism is off (R170, R237; log 9). The latch
keeps its value (R170). That the transmit-ready enable keeps its value too is the model's choice (log 20). -/
def Obligations.FacadeInitResetsBothCopies : Prop :=
  ∀ (s : State) (cfg : Nat), s.driver = .clients → s.rx.legal = true → s.tx.legal = true →
    s.processorTaken = false → s.clients.receiveHandler.commandPending = false →
    s.clients.transmitHandler.commandPending = false →
    s.clients.mainline = .idle → s.clients.serial.globalInterruptsOn = false →
      (∃ u, follow (.call (.init cfg) :: List.replicate 6 (.advance .mainline)) s = .next u ∧
        u.clients.serial.globalInterruptsOn = false ∧ u.clients.started = s.clients.started) ∧
      ∃ t, follow (.call (.init cfg) :: List.replicate 7 (.advance .mainline)) s = .next t ∧
        t.rx = { s.rx with blk := s.rx.blk.init } ∧ t.tx = { s.tx with blk := s.tx.blk.init } ∧
        t.clients = { s.clients with
          returned := some .unit
          started := true
          serial := { s.clients.serial with
            baudConfig := cfg, receiverOn := true, transmitterOn := true, receiveInterruptOn := true,
            globalInterruptsOn := true } }

/-- R176: the latch is written by the receive handler's last step and by nothing else. -/
def Obligations.OnlyTheReceiveHandlerWritesTheLatch : Prop :=
  ∀ (s t : State) (inp : Input), stepWith inp s = .next t → t.clients.lastRxError ≠ s.clients.lastRxError →
    inp = .advance .receiveHandler ∧ s.clients.receiveHandler = .latching t.clients.lastRxError

/-- R187, R208: on one processor, while a handler runs neither mainline code nor another event has a step. That the other
class does not nest either is the model's choice (N13, log 13). -/
def Obligations.HandlersRunToCompletion : Prop :=
  ∀ (s : State), s.platform = .singleProcessor → s.driver = .clients → s.handlersIdle = false →
    stepWith (.advance .mainline) s = .refused .preempted ∧
    (∀ c, stepWith (.call c) s = .refused .preempted) ∧
    (s.clients.serial.globalInterruptsOn = true → s.clients.txIrqEnable = true →
      stepWith .transmitReady s = .refused .handlerRunning) ∧
    (∀ b st, s.clients.serial.globalInterruptsOn = true → s.clients.serial.receiveInterruptOn = true →
      stepWith (.receive b st) s = .refused .handlerRunning)

/-- R180, R205: no event while its source or the global mechanism is off (refused, not pended: log 13). -/
def Obligations.MaskedInterruptsDoNotOccur : Prop :=
  ∀ (s : State), s.driver = .clients →
    (s.clients.txIrqEnable = false ∨ s.clients.serial.globalInterruptsOn = false →
      stepWith .transmitReady s = .refused .interruptMasked) ∧
    (∀ b st, s.clients.serial.receiveInterruptOn = false ∨ s.clients.serial.globalInterruptsOn = false →
      stepWith (.receive b st) s = .refused .interruptMasked)

/-- R241, R248: on one processor no written byte is stranded: while bytes wait in the transmit copy the transmit-ready
interrupt is enabled or `write_byte` is about to enable it, and every step keeps that so. -/
def Obligations.NoWrittenByteIsStrandedOnOneProcessor : Prop :=
  ∀ s t : State, s.inv = true → s.transmitWatched → step s = .next t → t.transmitWatched
end

