-- ==== Sys2Proof/Laws/State.lean ====
section
/-! SUPPORT. One lemma per field per update of State, so that no later proof unfolds a record update. -/

namespace Sys2Proof.Machine

section setFifo
variable (s : State) (q : Fifo)

@[simp] theorem State.setFifo_sel : (s.setFifo q).sel = s.sel := by unfold State.setFifo; split <;> rfl
@[simp] theorem State.setFifo_out : (s.setFifo q).out = s.out := by unfold State.setFifo; split <;> rfl
@[simp] theorem State.setFifo_clients : (s.setFifo q).clients = s.clients := by unfold State.setFifo; split <;> rfl
@[simp] theorem State.setFifo_platform : (s.setFifo q).platform = s.platform := by unfold State.setFifo; split <;> rfl
@[simp] theorem State.setFifo_driver : (s.setFifo q).driver = s.driver := by unfold State.setFifo; split <;> rfl
@[simp] theorem State.setFifo_inputs : (s.setFifo q).inputs = s.inputs := by unfold State.setFifo; split <;> rfl

theorem State.setFifo_fifoOf (ch : Channel) :
    (s.setFifo q).fifoOf ch = if ch = s.sel then q else s.fifoOf ch := by
  unfold State.setFifo State.fifoOf
  cases ch <;> cases s.sel <;> simp

@[simp] theorem State.setFifo_fifoOf_same : (s.setFifo q).fifoOf s.sel = q := by simp [State.setFifo_fifoOf]

theorem State.setFifo_fifoOf_other {ch : Channel} (h : ch ≠ s.sel) : (s.setFifo q).fifoOf ch = s.fifoOf ch := by
  simp [State.setFifo_fifoOf, h]

@[simp] theorem State.setFifo_fifo : (s.setFifo q).fifo = q := by simp [State.fifo]

@[simp] theorem State.setFifo_self : s.setFifo s.fifo = s := by
  cases s; rename_i rx tx sel _ _ _ _ _; cases sel <;> rfl

end setFifo

section fields
variable (s : State)

@[simp] theorem State.fifoOf_rx : s.fifoOf .rx = s.rx := rfl
@[simp] theorem State.fifoOf_tx : s.fifoOf .tx = s.tx := rfl

@[simp] theorem State.setOut_rx (o : Outputs) : (s.setOut o).rx = s.rx := rfl
@[simp] theorem State.setOut_tx (o : Outputs) : (s.setOut o).tx = s.tx := rfl
@[simp] theorem State.setOut_sel (o : Outputs) : (s.setOut o).sel = s.sel := rfl
@[simp] theorem State.setOut_out (o : Outputs) : (s.setOut o).out = o := rfl
@[simp] theorem State.setOut_clients (o : Outputs) : (s.setOut o).clients = s.clients := rfl
@[simp] theorem State.setOut_platform (o : Outputs) : (s.setOut o).platform = s.platform := rfl
@[simp] theorem State.setOut_driver (o : Outputs) : (s.setOut o).driver = s.driver := rfl
@[simp] theorem State.setOut_inputs (o : Outputs) : (s.setOut o).inputs = s.inputs := rfl
@[simp] theorem State.setOut_fifoOf (o : Outputs) (ch : Channel) : (s.setOut o).fifoOf ch = s.fifoOf ch := by
  cases ch <;> rfl
@[simp] theorem State.setOut_fifo (o : Outputs) : (s.setOut o).fifo = s.fifo := by
  unfold State.fifo; exact State.setOut_fifoOf s o _

@[simp] theorem State.setInputs_rx (l : List Input) : (s.setInputs l).rx = s.rx := rfl
@[simp] theorem State.setInputs_tx (l : List Input) : (s.setInputs l).tx = s.tx := rfl
@[simp] theorem State.setInputs_sel (l : List Input) : (s.setInputs l).sel = s.sel := rfl
@[simp] theorem State.setInputs_out (l : List Input) : (s.setInputs l).out = s.out := rfl
@[simp] theorem State.setInputs_clients (l : List Input) : (s.setInputs l).clients = s.clients := rfl
@[simp] theorem State.setInputs_platform (l : List Input) : (s.setInputs l).platform = s.platform := rfl
@[simp] theorem State.setInputs_driver (l : List Input) : (s.setInputs l).driver = s.driver := rfl
@[simp] theorem State.setInputs_inputs (l : List Input) : (s.setInputs l).inputs = l := rfl
@[simp] theorem State.setInputs_fifoOf (l : List Input) (ch : Channel) : (s.setInputs l).fifoOf ch = s.fifoOf ch := by
  cases ch <;> rfl
@[simp] theorem State.setInputs_fifo (l : List Input) : (s.setInputs l).fifo = s.fifo := by
  unfold State.fifo; exact State.setInputs_fifoOf s l _

@[simp] theorem State.on_rx (ch : Channel) : (s.on ch).rx = s.rx := rfl
@[simp] theorem State.on_tx (ch : Channel) : (s.on ch).tx = s.tx := rfl
@[simp] theorem State.on_sel (ch : Channel) : (s.on ch).sel = ch := rfl
@[simp] theorem State.on_out (ch : Channel) : (s.on ch).out = s.out := rfl
@[simp] theorem State.on_clients (ch : Channel) : (s.on ch).clients = s.clients := rfl
@[simp] theorem State.on_platform (ch : Channel) : (s.on ch).platform = s.platform := rfl
@[simp] theorem State.on_driver (ch : Channel) : (s.on ch).driver = s.driver := rfl
@[simp] theorem State.on_inputs (ch : Channel) : (s.on ch).inputs = s.inputs := rfl
@[simp] theorem State.on_fifoOf (ch c : Channel) : (s.on ch).fifoOf c = s.fifoOf c := by cases c <;> rfl
@[simp] theorem State.on_fifo (ch : Channel) : (s.on ch).fifo = s.fifoOf ch := by simp [State.fifo]

@[simp] theorem State.setClients_rx (c : Clients) : (s.setClients c).rx = s.rx := rfl
@[simp] theorem State.setClients_tx (c : Clients) : (s.setClients c).tx = s.tx := rfl
@[simp] theorem State.setClients_sel (c : Clients) : (s.setClients c).sel = s.sel := rfl
@[simp] theorem State.setClients_out (c : Clients) : (s.setClients c).out = s.out := rfl
@[simp] theorem State.setClients_clients (c : Clients) : (s.setClients c).clients = c := rfl
@[simp] theorem State.setClients_platform (c : Clients) : (s.setClients c).platform = s.platform := rfl
@[simp] theorem State.setClients_driver (c : Clients) : (s.setClients c).driver = s.driver := rfl
@[simp] theorem State.setClients_inputs (c : Clients) : (s.setClients c).inputs = s.inputs := rfl
@[simp] theorem State.setClients_fifoOf (c : Clients) (ch : Channel) : (s.setClients c).fifoOf ch = s.fifoOf ch := by
  cases ch <;> rfl

@[simp] theorem State.setClients_fifo (c : Clients) : (s.setClients c).fifo = s.fifo := by
  unfold State.fifo; exact State.setClients_fifoOf s c _

@[simp] theorem State.caughtUp_rx : s.caughtUp.rx = s.rx.caughtUp := rfl
@[simp] theorem State.caughtUp_tx : s.caughtUp.tx = s.tx.caughtUp := rfl
@[simp] theorem State.caughtUp_sel : s.caughtUp.sel = s.sel := rfl
@[simp] theorem State.caughtUp_out : s.caughtUp.out = s.out := rfl
@[simp] theorem State.caughtUp_clients : s.caughtUp.clients = s.clients := rfl
@[simp] theorem State.caughtUp_platform : s.caughtUp.platform = s.platform := rfl
@[simp] theorem State.caughtUp_driver : s.caughtUp.driver = s.driver := rfl
@[simp] theorem State.caughtUp_inputs : s.caughtUp.inputs = s.inputs := rfl
@[simp] theorem State.caughtUp_fifoOf (ch : Channel) : s.caughtUp.fifoOf ch = (s.fifoOf ch).caughtUp := by
  cases ch <;> rfl

@[simp] theorem State.image_rx : s.image.rx = s.rx.image := rfl
@[simp] theorem State.image_tx : s.image.tx = s.tx.image := rfl
@[simp] theorem State.image_sel : s.image.sel = s.sel := rfl
@[simp] theorem State.image_out : s.image.out = s.out := rfl
@[simp] theorem State.image_clients : s.image.clients = s.clients := rfl
@[simp] theorem State.image_platform : s.image.platform = s.platform := rfl
@[simp] theorem State.image_driver : s.image.driver = s.driver := rfl
@[simp] theorem State.image_inputs : s.image.inputs = s.inputs := rfl
@[simp] theorem State.image_fifoOf (ch : Channel) : s.image.fifoOf ch = (s.fifoOf ch).image := by cases ch <;> rfl

end fields

section block
variable {N : Nat} (b : Block N)

@[simp] theorem Block.producerEdge_storage : b.producerEdge.storage = b.storage := rfl
@[simp] theorem Block.producerEdge_head : b.producerEdge.head = b.head := rfl
@[simp] theorem Block.producerEdge_tail : b.producerEdge.tail = b.tail := rfl
@[simp] theorem Block.producerEdge_initDone : b.producerEdge.initDone = b.initDone := rfl
@[simp] theorem Block.producerEdge_crossing : b.producerEdge.crossing = b.crossing.producerEdge b.head := rfl

@[simp] theorem Block.consumerEdge_storage : b.consumerEdge.storage = b.storage := rfl
@[simp] theorem Block.consumerEdge_head : b.consumerEdge.head = b.head := rfl
@[simp] theorem Block.consumerEdge_tail : b.consumerEdge.tail = b.tail := rfl
@[simp] theorem Block.consumerEdge_initDone : b.consumerEdge.initDone = b.initDone := rfl
@[simp] theorem Block.consumerEdge_crossing : b.consumerEdge.crossing = b.crossing.consumerEdge b.tail := rfl

@[simp] theorem Block.caughtUp_storage : b.caughtUp.storage = b.storage := rfl
@[simp] theorem Block.caughtUp_head : b.caughtUp.head = b.head := rfl
@[simp] theorem Block.caughtUp_tail : b.caughtUp.tail = b.tail := rfl
@[simp] theorem Block.caughtUp_initDone : b.caughtUp.initDone = b.initDone := rfl

@[simp] theorem Block.init_storage : b.init.storage = b.storage := rfl
@[simp] theorem Block.init_head : b.init.head = 0 := rfl
@[simp] theorem Block.init_tail : b.init.tail = 0 := rfl
@[simp] theorem Block.init_crossing : b.init.crossing = b.crossing.zeroed := rfl
@[simp] theorem Block.init_initDone : b.init.initDone = true := rfl

@[simp] theorem Block.drain_storage : b.drain.storage = b.storage := rfl
@[simp] theorem Block.drain_head : b.drain.head = b.head := rfl
@[simp] theorem Block.drain_tail : b.drain.tail = b.headSeen := rfl
@[simp] theorem Block.drain_crossing : b.drain.crossing = b.crossing := rfl
@[simp] theorem Block.drain_initDone : b.drain.initDone = b.initDone := rfl

@[simp] theorem Block.image_storage : b.image.storage = b.storage := rfl
@[simp] theorem Block.image_head : b.image.head = b.head := rfl
@[simp] theorem Block.image_tail : b.image.tail = b.tail := rfl
@[simp] theorem Block.image_initDone : b.image.initDone = b.initDone := rfl
@[simp] theorem Block.image_headSeen : b.image.headSeen = b.headSeen := rfl
@[simp] theorem Block.image_tailSeen : b.image.tailSeen = b.tailSeen := rfl

end block

end Sys2Proof.Machine
end

