-- ==== Sys2Proof/Laws/Command.lean ====
section
/-! SUPPORT. What a step can do, said once: the inversion of the shared operation `State.command`, and of every input, as
one relation between the block before and after. -/

namespace Sys2Proof.Machine

/-! ### The shared operations. -/

theorem continueWith_next {o : Host.Outcome State Fault Refusal} {f : State → Host.Outcome State Fault Refusal}
    {t : State} : continueWith o f = .next t ↔ ∃ u, o = .next u ∧ f u = .next t := by
  cases o <;> simp [continueWith]

@[simp] theorem continueWith_of_next (u : State) (f : State → Host.Outcome State Fault Refusal) :
    continueWith (.next u) f = f u := rfl

/-- The state a command leaves: the selected copy's block replaced, the results written. -/
def State.after (s : State) (b : Block s.fifo.N) (o : Outputs) : State :=
  (s.setFifo { s.fifo with blk := b }).setOut o

/-- Where the copy is ready the step is `act`. -/
theorem whenReady_eq {q : Fifo} (h : q.ready = true) (act : Host.Outcome State Fault Refusal) :
    q.whenReady act = act := by
  simp only [Fifo.ready, Bool.and_eq_true] at h
  rw [Fifo.whenReady, if_pos h.1, if_pos h.2]

/-- A step that uses a copy answers a next state where the copy is ready and `act` answers it. -/
theorem whenReady_next {q : Fifo} {act : Host.Outcome State Fault Refusal} {t : State} :
    q.whenReady act = .next t ↔ q.ready = true ∧ act = .next t := by
  cases hl : q.legal <;> cases hi : q.blk.initDone <;> simp [Fifo.whenReady, Fifo.ready, hl, hi]

/-- It faults where the copy is ready and `act` faults. -/
theorem whenReady_fault {q : Fifo} {act : Host.Outcome State Fault Refusal} {r : Fault} :
    q.whenReady act = .fault r ↔ q.ready = true ∧ act = .fault r := by
  cases hl : q.legal <;> cases hi : q.blk.initDone <;> simp [Fifo.whenReady, Fifo.ready, hl, hi]

/-- After the facade's `init` the step is `act`. -/
theorem onceStarted_eq {s : State} (h : s.clients.started = true) (act : Host.Outcome State Fault Refusal) :
    s.onceStarted act = act := if_pos h

/-- A client's step that needs `init` answers a next state after it, where `act` answers it. -/
theorem onceStarted_next {s : State} {act : Host.Outcome State Fault Refusal} {t : State} :
    s.onceStarted act = .next t ↔ s.clients.started = true ∧ act = .next t := by
  cases hs : s.clients.started <;> simp [State.onceStarted, hs]

/-- It faults after `init`, where `act` faults. -/
theorem onceStarted_fault {s : State} {act : Host.Outcome State Fault Refusal} {r : Fault} :
    s.onceStarted act = .fault r ↔ s.clients.started = true ∧ act = .fault r := by
  cases hs : s.clients.started <;> simp [State.onceStarted, hs]

/-- Where a command runs, it is its effect on the block followed by the edge. -/
theorem command_eq (s : State) (edge : (N : Nat) → Block N → Block N) (f : Command) (h : s.fifo.ready = true) :
    s.command edge f =
      match f s.fifo.N s.fifo.blk with
      | .next (b, o) => .next (s.after (edge _ b) o)
      | .fault r => .fault r
      | .refused r => .refused r := by
  unfold State.command
  rw [whenReady_eq h]
  rfl

/-- `command_eq` where the selected copy is known by another name. -/
theorem command_at {s : State} {q : Fifo} (hq : s.fifo = q) (edge : (N : Nat) → Block N → Block N) (f : Command)
    (h : q.ready = true) :
    s.command edge f =
      match f q.N q.blk with
      | .next (b, o) => .next ((s.setFifo { q with blk := edge _ b }).setOut o)
      | .fault r => .fault r
      | .refused r => .refused r := by
  subst hq; rw [command_eq s edge f h]; rcases f s.fifo.N s.fifo.blk with ⟨b, o⟩ | r | r <;> rfl

/-- Where a command answers a next state, the copy was ready and the effect answered one. -/
theorem command_next {s : State} {edge : (N : Nat) → Block N → Block N} {f : Command} {t : State}
    (h : s.command edge f = .next t) :
    s.fifo.ready = true ∧ ∃ b o, f s.fifo.N s.fifo.blk = .next (b, o) ∧ t = s.after (edge _ b) o := by
  have hr : s.fifo.ready = true := (whenReady_next.mp h).1
  refine ⟨hr, ?_⟩
  rw [command_eq s edge f hr] at h
  split at h
  · rename_i b o hf
    exact ⟨b, o, hf, by cases h; rfl⟩
  · cases h
  · cases h

section after
variable (s : State) (b : Block s.fifo.N) (o : Outputs)
@[simp] theorem State.after_sel : (s.after b o).sel = s.sel := by simp [State.after]
@[simp] theorem State.after_out : (s.after b o).out = o := rfl
@[simp] theorem State.after_clients : (s.after b o).clients = s.clients := by simp [State.after]
@[simp] theorem State.after_platform : (s.after b o).platform = s.platform := by simp [State.after]
@[simp] theorem State.after_driver : (s.after b o).driver = s.driver := by simp [State.after]
@[simp] theorem State.after_inputs : (s.after b o).inputs = s.inputs := by simp [State.after]
@[simp] theorem State.after_fifoOf_same : (s.after b o).fifoOf s.sel = { s.fifo with blk := b } := by
  simp [State.after]
@[simp] theorem State.after_fifo : (s.after b o).fifo = { s.fifo with blk := b } := by
  have := State.after_fifoOf_same s b o
  rwa [← State.after_sel s b o] at this
theorem State.after_fifoOf_other {ch : Channel} (h : ch ≠ s.sel) : (s.after b o).fifoOf ch = s.fifoOf ch := by
  simp [State.after, State.setFifo_fifoOf_other _ _ h]
end after

/-! ### Everything that can happen to a block. -/

/-- One step of one block, with its results. -/
inductive BlockStep {N : Nat} (b : Block N) : Outputs → Block N → Prop
  | pNop : BlockStep b {} b.producerEdge
  | push (data : Byte) : BlockStep b (b.push data).2 (b.push data).1.producerEdge
  | cNop : BlockStep b {} b.consumerEdge
  | pop {b' : Block N} {o : Outputs} (h : b.pop = .next (b', o)) : BlockStep b o b'.consumerEdge
  | drain : BlockStep b {} b.drain.consumerEdge
  | count : BlockStep b (Outputs.counted b.available.toNat) b.consumerEdge
  | init : BlockStep b {} b.init
  | syncH (k : Nat) {b' : Block N} {o : Outputs} (h : b.syncH k = .next (b', o)) : BlockStep b o b'
  | syncT (k : Nat) {b' : Block N} {o : Outputs} (h : b.syncT k = .next (b', o)) : BlockStep b o b'

/-- A step moved one block of the selected copy, which was legal, and nothing of the other copy. A step before the first
INIT is an INIT. -/
structure Moved (s t : State) (ch : Channel) : Prop where
  sel : t.sel = ch
  other : ∀ c, c ≠ ch → t.fifoOf c = s.fifoOf c
  legal : (s.fifoOf ch).legal = true
  blk : ∃ b', t.fifoOf ch = { s.fifoOf ch with blk := b' } ∧ BlockStep (s.fifoOf ch).blk t.out b' ∧
    ((s.fifoOf ch).blk.initDone = true ∨ b' = (s.fifoOf ch).blk.init)

theorem moved_of_command {s : State} {edge : (N : Nat) → Block N → Block N} {f : Command} {t : State}
    (h : s.command edge f = .next t)
    (hf : ∀ b o, f s.fifo.N s.fifo.blk = .next (b, o) → BlockStep s.fifo.blk o (edge _ b)) :
    Moved s t s.sel := by
  obtain ⟨hr, b, o, hb, rfl⟩ := command_next h
  simp only [Fifo.ready, Bool.and_eq_true] at hr
  exact ⟨by simp, fun c hc => State.after_fifoOf_other s _ o hc, hr.1,
    edge _ b, by rw [State.after_fifoOf_same]; rfl, hf b o hb, .inl hr.2⟩

theorem execInit_next {s t : State} (h : execInit s = .next t) :
    s.fifo.legal = true ∧ s.quiescent = true ∧ t = s.after s.fifo.blk.init {} := by
  unfold execInit at h
  split at h
  · split at h
    · exact ⟨‹_›, ‹_›, by cases h; rfl⟩
    · cases h
  · cases h

theorem moved_of_exec {i : Instr} {s t : State} (h : exec i s = .next t) : Moved s t s.sel := by
  cases i with
  | init =>
    obtain ⟨hl, _, rfl⟩ := execInit_next h
    exact ⟨by simp, fun c hc => State.after_fifoOf_other s _ _ hc, hl,
      _, State.after_fifoOf_same s _ _, .init, .inr rfl⟩
  | pNop =>
    simp only [exec, execPNop, State.producerStep] at h
    refine moved_of_command h fun b o hb => ?_
    injection hb with hb; injection hb with h1 h2; subst h1 h2; exact .pNop
  | push d =>
    simp only [exec, execPush, State.producerStep] at h
    refine moved_of_command h fun b o hb => ?_
    injection hb with hb
    have h1 : (s.fifo.blk.push d).1 = b := by rw [hb]
    have h2 : (s.fifo.blk.push d).2 = o := by rw [hb]
    subst h1 h2; exact .push d
  | cNop =>
    simp only [exec, execCNop, State.consumerStep] at h
    refine moved_of_command h fun b o hb => ?_
    injection hb with hb; injection hb with h1 h2; subst h1 h2; exact .cNop
  | pop => exact moved_of_command h fun b o hb => .pop hb
  | drain =>
    simp only [exec, execDrain, State.consumerStep] at h
    refine moved_of_command h fun b o hb => ?_
    injection hb with hb; injection hb with h1 h2; subst h1 h2; exact .drain
  | count =>
    simp only [exec, execCount, State.consumerStep] at h
    refine moved_of_command h fun b o hb => ?_
    injection hb with hb; injection hb with h1 h2; subst h1 h2; exact .count

/-- A command changes neither the clients nor the schedule. -/
theorem exec_rest {i : Instr} {s t : State} (h : exec i s = .next t) :
    t.clients = s.clients ∧ t.platform = s.platform ∧ t.driver = s.driver ∧ t.inputs = s.inputs := by
  cases i with
  | init => obtain ⟨_, _, rfl⟩ := execInit_next h; simp
  | pNop =>
    simp only [exec, execPNop, State.producerStep] at h
    obtain ⟨_, b, o, _, rfl⟩ := command_next h; simp
  | push d =>
    simp only [exec, execPush, State.producerStep] at h
    obtain ⟨_, b, o, _, rfl⟩ := command_next h; simp
  | cNop =>
    simp only [exec, execCNop, State.consumerStep] at h
    obtain ⟨_, b, o, _, rfl⟩ := command_next h; simp
  | pop =>
    simp only [exec, execPop, State.consumerStep] at h
    obtain ⟨_, b, o, _, rfl⟩ := command_next h; simp
  | drain =>
    simp only [exec, execDrain, State.consumerStep] at h
    obtain ⟨_, b, o, _, rfl⟩ := command_next h; simp
  | count =>
    simp only [exec, execCount, State.consumerStep] at h
    obtain ⟨_, b, o, _, rfl⟩ := command_next h; simp

/-! ### Everything an input can do to the blocks. -/

/-- The blocks and the results are as they were. -/
structure Kept (s t : State) : Prop where
  rx : t.rx = s.rx
  tx : t.tx = s.tx
  out : t.out = s.out

/-- The blocks' part of a step: nothing, or one step of one block. -/
def Touched (s t : State) : Prop := Kept s t ∨ ∃ ch, Moved s t ch

theorem Touched.of_eq {s t u : State} (h : Touched s t) (hr : u.rx = t.rx) (ht : u.tx = t.tx) (hs : u.sel = t.sel)
    (ho : u.out = t.out) : Touched s u := by
  have hf : ∀ c, u.fifoOf c = t.fifoOf c := by intro c; cases c <;> assumption
  rcases h with h | ⟨ch, h⟩
  · exact .inl ⟨hr.trans h.rx, ht.trans h.tx, ho.trans h.out⟩
  · refine .inr ⟨ch, hs.trans h.sel, fun c hc => (hf c).trans (h.other c hc), h.legal, ?_⟩
    obtain ⟨b', h1, h2, h3⟩ := h.blk
    exact ⟨b', (hf ch).trans h1, ho ▸ h2, h3⟩

theorem Touched.on {s t : State} {ch c : Channel} (h : Moved (s.on ch) t c) : Touched s t := by
  refine .inr ⟨c, h.sel, fun c' hc => ?_, ?_, ?_⟩
  · simpa using h.other c' hc
  · simpa using h.legal
  · cases c <;> exact h.blk

theorem Touched.refl (s : State) : Touched s s := .inl ⟨rfl, rfl, rfl⟩

theorem touched_of_exec_on {i : Instr} {s t : State} {ch : Channel} (h : exec i (s.on ch) = .next t) : Touched s t :=
  .on (moved_of_exec h)

theorem touched_setClients {s t : State} (c : Clients) (h : Touched s t) : Touched s (t.setClients c) :=
  h.of_eq rfl rfl rfl rfl

theorem touched_of_initStep {stage : InitStage} {cfg : Nat} {s t : State} (h : initStep stage cfg s = .next t) :
    Touched s t := by
  cases stage
  case resetRx =>
    obtain ⟨u, hu, h⟩ := continueWith_next.mp h
    cases h; exact touched_setClients _ (touched_of_exec_on (i := .init) hu)
  case resetTx =>
    obtain ⟨u, hu, h⟩ := continueWith_next.mp h
    cases h; exact touched_setClients _ (touched_of_exec_on (i := .init) hu)
  all_goals (cases h; exact (Touched.refl s).of_eq rfl rfl rfl rfl)

theorem touched_writeNext (s : State) (bs : List Byte) : Touched s (s.writeNext bs) := by
  cases bs <;> exact (Touched.refl s).of_eq rfl rfl rfl rfl

theorem touched_of_mainlineStep {s t : State} (h : mainlineStep s = .next t) : Touched s t := by
  unfold mainlineStep at h
  split at h
  · cases h
  · split at h
    · cases h
    · exact touched_of_initStep h
    · obtain ⟨u, hu, h⟩ := continueWith_next.mp (onceStarted_next.mp h).2
      have := touched_of_exec_on (i := .pop) hu
      split at h <;> (cases h; exact touched_setClients _ this)
    · cases h; exact (Touched.refl s).of_eq rfl rfl rfl rfl
    · rename_i b rest _
      obtain ⟨u, hu, h⟩ := continueWith_next.mp (onceStarted_next.mp h).2
      have := touched_of_exec_on (i := .push b) hu
      split at h
      · cases h; exact touched_setClients _ this
      · cases h; exact this
    · rename_i rest _
      cases h
      cases rest <;> exact (Touched.refl s).of_eq rfl rfl rfl rfl
    · obtain ⟨u, hu, h⟩ := continueWith_next.mp (onceStarted_next.mp h).2
      cases h; exact touched_setClients _ (touched_of_exec_on (i := .count) hu)
    · obtain ⟨u, hu, h⟩ := continueWith_next.mp (onceStarted_next.mp h).2
      cases h; exact touched_setClients _ (touched_of_exec_on (i := .drain) hu)

theorem touched_of_receiveHandlerStep {s t : State} (h : receiveHandlerStep s = .next t) : Touched s t := by
  unfold receiveHandlerStep at h
  split at h
  · cases h
  · rename_i b k _
    obtain ⟨u, hu, h⟩ := continueWith_next.mp (onceStarted_next.mp h).2
    cases h; exact touched_setClients _ (touched_of_exec_on (i := .push b) hu)
  · cases h; exact (Touched.refl s).of_eq rfl rfl rfl rfl

theorem touched_of_transmitHandlerStep {s t : State} (h : transmitHandlerStep s = .next t) : Touched s t := by
  unfold transmitHandlerStep at h
  split at h
  · cases h
  · obtain ⟨u, hu, h⟩ := continueWith_next.mp (onceStarted_next.mp h).2
    have := touched_of_exec_on (i := .pop) hu
    split at h
    · cases h; exact touched_setClients _ this
    · cases h
  · cases h; exact (Touched.refl s).of_eq rfl rfl rfl rfl
  · cases (whenReady_next.mp h).2; exact (Touched.refl s).of_eq rfl rfl rfl rfl

theorem touched_of_startCall {c : Call} {s t : State} (h : startCall c s = .next t) : Touched s t := by
  unfold startCall at h
  split at h
  · cases h
  · split at h
    · cases h
    · split at h
      · cases h; exact (Touched.refl s).of_eq rfl rfl rfl rfl
      all_goals
        cases (onceStarted_next.mp h).2
        first
        | exact touched_writeNext s _
        | exact (Touched.refl s).of_eq rfl rfl rfl rfl

theorem asClient_next {s t : State} {f : State → Host.Outcome State Fault Refusal} (h : asClient s f = .next t) :
    s.driver = .clients ∧ f s = .next t := by
  unfold asClient at h
  split at h
  · exact ⟨‹_›, h⟩
  · cases h

/-- What any input can do to the blocks. -/
theorem touched_of_takeInput {inp : Input} {s t : State} (h : takeInput inp s = .next t) : Touched s t := by
  cases inp with
  | ports ch side p =>
    unfold takeInput presentPorts at h
    dsimp only at h
    split at h
    · exact touched_of_exec_on h
    · cases h
  | syncH ch k =>
    simp only [takeInput, stepSyncH] at h
    exact .on (ch := ch) (moved_of_command h fun b o hb => .syncH k hb)
  | syncT ch k =>
    simp only [takeInput, stepSyncT] at h
    exact .on (ch := ch) (moved_of_command h fun b o hb => .syncT k hb)
  | call c => exact touched_of_startCall (asClient_next h).2
  | receive b st =>
    obtain ⟨_, h⟩ := asClient_next h
    unfold receiveEvent at h
    split at h
    · split at h
      · cases (onceStarted_next.mp h).2; exact (Touched.refl s).of_eq rfl rfl rfl rfl
      · cases h
    · cases h
  | transmitReady =>
    obtain ⟨_, h⟩ := asClient_next h
    unfold transmitReadyEvent at h
    split at h
    · split at h
      · cases (onceStarted_next.mp (whenReady_next.mp h).2).2; exact (Touched.refl s).of_eq rfl rfl rfl rfl
      · cases h
    · cases h
  | advance c =>
    obtain ⟨_, h⟩ := asClient_next h
    cases c
    · exact touched_of_mainlineStep h
    · exact touched_of_receiveHandlerStep h
    · exact touched_of_transmitHandlerStep h
  | globalInterrupts on => cases h; exact (Touched.refl s).of_eq rfl rfl rfl rfl

/-- A step with an input is the input's, settled. -/
theorem stepWith_next {inp : Input} {s t : State} :
    stepWith inp s = .next t ↔ ∃ u, takeInput inp (s.setOut {}) = .next u ∧ t = settle u := by
  unfold stepWith
  rw [continueWith_next]
  constructor
  · rintro ⟨u, hu, h⟩; exact ⟨u, hu, by cases h; rfl⟩
  · rintro ⟨u, hu, rfl⟩; exact ⟨u, hu, rfl⟩

/-- A step is idle or takes the next input. -/
theorem step_next {s t : State} (h : step s = .next t) :
    (s.inputs = [] ∧ t = s.setOut {}) ∨
      ∃ inp rest, s.inputs = inp :: rest ∧ stepWith inp (s.setInputs rest) = .next t := by
  unfold step at h
  split at h
  · exact .inl ⟨‹_›, by cases h; rfl⟩
  · exact .inr ⟨_, _, ‹_›, h⟩

@[simp] theorem settle_sel (t : State) : (settle t).sel = t.sel := by unfold settle; split <;> rfl
@[simp] theorem settle_out (t : State) : (settle t).out = t.out := by unfold settle; split <;> rfl
@[simp] theorem settle_clients (t : State) : (settle t).clients = t.clients := by unfold settle; split <;> rfl
@[simp] theorem settle_platform (t : State) : (settle t).platform = t.platform := by unfold settle; split <;> rfl
@[simp] theorem settle_driver (t : State) : (settle t).driver = t.driver := by unfold settle; split <;> rfl
@[simp] theorem settle_inputs (t : State) : (settle t).inputs = t.inputs := by unfold settle; split <;> rfl
theorem settle_twoDomains {t : State} (h : t.platform = .twoDomains) : settle t = t := by simp [settle, h]

/-- What settling does to one copy. -/
theorem settle_fifoOf (t : State) (ch : Channel) : (settle t).fifoOf ch = t.platform.settled (t.fifoOf ch) := by
  unfold settle Platform.settled; cases t.platform <;> simp

/-- Settling moves views only. -/
theorem settled_moves_views (p : Platform) (q : Fifo) :
    ∃ c, p.settled q = { q with blk := { q.blk with crossing := c } } := by
  cases p <;> exact ⟨_, rfl⟩

end Sys2Proof.Machine
end

