-- ==== Sys2Proof/Laws/Gray.lean ====
section
/-! SUPPORT. Small laws of the gray code (R140, R141) beside its definition. -/

namespace Sys2Proof.Machine

variable {N : Nat}

theorem gray_zero : gray (0 : BitVec N) = 0 := by simp [gray]

theorem ungrayTerms_zero (k : Nat) : ungrayTerms (0 : BitVec N) k = 0 := by
  induction k with
  | zero => rfl
  | succ k ih =>
    have h : ungrayTerms (0 : BitVec N) (k + 1) = ungrayTerms 0 k ^^^ ((0 : BitVec N) >>> k) := rfl
    rw [h, ih]; simp

theorem ungray_zero : ungray (0 : BitVec N) = 0 := ungrayTerms_zero N

/-- The partial sums of a decoding telescope on a coded word. -/
theorem ungrayTerms_gray (b : BitVec N) (k : Nat) : ungrayTerms (gray b) k = b ^^^ (b >>> k) := by
  induction k with
  | zero => simp [ungrayTerms]
  | succ k ih =>
    rw [ungrayTerms, ih]
    apply BitVec.eq_of_getLsbD_eq
    intro i hi
    simp only [gray, BitVec.getLsbD_xor, BitVec.getLsbD_ushiftRight]
    rw [show 1 + (k + i) = k + 1 + i by omega]
    cases b.getLsbD i <;> cases b.getLsbD (k + i) <;> cases b.getLsbD (k + 1 + i) <;> rfl

/-- Coding, then decoding (the first half of R141's round trip). -/
theorem ungray_gray (b : BitVec N) : ungray (gray b) = b := by
  rw [ungray, ungrayTerms_gray]
  have : b >>> N = 0 := by
    apply BitVec.eq_of_toNat_eq
    simp [Nat.shiftRight_eq_div_pow, Nat.div_eq_of_lt b.isLt]
  simp [this]

/-- The partial sums of a decoding telescope under the code. -/
theorem gray_ungrayTerms (g : BitVec N) (k : Nat) :
    ungrayTerms g k ^^^ (ungrayTerms g k) >>> 1 = g ^^^ (g >>> k) := by
  induction k with
  | zero => simp [ungrayTerms]
  | succ k ih =>
    rw [ungrayTerms]
    apply BitVec.eq_of_getLsbD_eq
    intro i hi
    have ih' := congrArg (fun v => v.getLsbD i) ih
    simp only [BitVec.getLsbD_xor, BitVec.getLsbD_ushiftRight] at ih' ⊢
    rw [show k + (1 + i) = k + 1 + i by omega]
    revert ih'
    cases (ungrayTerms g k).getLsbD i <;> cases (ungrayTerms g k).getLsbD (1 + i) <;> cases g.getLsbD i <;>
      cases g.getLsbD (k + i) <;> cases g.getLsbD (k + 1 + i) <;> simp

/-- Decoding, then coding (the second half). -/
theorem gray_ungray (g : BitVec N) : gray (ungray g) = g := by
  have hN : g >>> N = 0 := by
    apply BitVec.eq_of_toNat_eq
    simp [Nat.shiftRight_eq_div_pow, Nat.div_eq_of_lt g.isLt]
  have := gray_ungrayTerms g N
  rw [hN] at this
  simpa [gray, ungray] using this

end Sys2Proof.Machine
end

