-- ==== Sys2Proof/Laws/Memory.lean ====
section
/-! SUPPORT. Laws of the storage array: a slot reads what was last written to it, a write leaves every other slot, and
every write keeps the canonical form. -/

namespace Sys2Proof.Machine

@[simp] theorem Memory.read_nil (a : Nat) : Memory.read [] a = none := rfl

theorem Memory.read_write (m : Memory) (a : Nat) (v : Byte) (c : Nat) :
    (m.write a v).read c = if c = a then some v else m.read c := by
  induction m with
  | nil => simp [Memory.write, Memory.read, Memory.unlisted]
  | cons e rest ih =>
    obtain ⟨b, w⟩ := e
    simp only [Memory.write]
    split
    · simp [Memory.read]
    · split
      · subst a; simp only [Memory.read]; split <;> rfl
      · simp only [Memory.read]
        split
        · subst c; rw [if_neg (by omega)]
        · exact ih

@[simp] theorem Memory.read_write_same (m : Memory) (a : Nat) (v : Byte) : (m.write a v).read a = some v := by
  simp [Memory.read_write]

theorem Memory.read_write_other (m : Memory) (a : Nat) (v : Byte) {c : Nat} (h : c ≠ a) :
    (m.write a v).read c = m.read c := by
  simp [Memory.read_write, h]

/-- The smallest index of a written list is the old one or the new one. -/
theorem Memory.wf_cons (a : Nat) (v : Byte) (m : Memory) :
    Memory.wf ((a, v) :: m) = true ↔ (∀ b w r, m = (b, w) :: r → a < b) ∧ Memory.wf m = true := by
  cases m with
  | nil => simp [Memory.wf]
  | cons e rest =>
    obtain ⟨b, w⟩ := e
    simp only [Memory.wf, Bool.and_eq_true, decide_eq_true_eq, List.cons.injEq, Prod.mk.injEq]
    constructor
    · rintro ⟨h, hw⟩; exact ⟨by rintro _ _ _ ⟨⟨rfl, _⟩, _⟩; exact h, hw⟩
    · rintro ⟨h, hw⟩; exact ⟨h _ _ _ ⟨⟨rfl, rfl⟩, rfl⟩, hw⟩

/-- Every write keeps the canonical form. -/
theorem Memory.wf_write (m : Memory) (a : Nat) (v : Byte) (h : m.wf = true) : (m.write a v).wf = true := by
  induction m with
  | nil => rfl
  | cons e rest ih =>
    obtain ⟨b, w⟩ := e
    obtain ⟨hb, hr⟩ := (Memory.wf_cons b w rest).mp h
    simp only [Memory.write]
    split
    · simp [Memory.wf, *]
    · split
      · subst a; exact (Memory.wf_cons b v rest).mpr ⟨hb, hr⟩
      · refine (Memory.wf_cons b w _).mpr ⟨?_, ih hr⟩
        intro c x r hc
        cases rest with
        | nil => simp only [Memory.write, List.cons.injEq, Prod.mk.injEq] at hc; omega
        | cons e' rest' =>
          obtain ⟨b', w'⟩ := e'
          have := hb b' w' rest' rfl
          simp only [Memory.write] at hc
          split at hc
          · simp only [List.cons.injEq, Prod.mk.injEq] at hc; omega
          · split at hc <;> simp only [List.cons.injEq, Prod.mk.injEq] at hc <;> omega

/-- A write lists no index but the old ones and its own. -/
theorem Memory.mem_write {m : Memory} {a : Nat} {v : Byte} {e : Host.Cell} (h : e ∈ m.write a v) :
    e = (a, v) ∨ e ∈ m := by
  induction m with
  | nil => simpa [Memory.write] using h
  | cons e' rest ih =>
    obtain ⟨b, w⟩ := e'
    simp only [Memory.write] at h
    split at h
    · simpa using h
    · split at h
      · rcases List.mem_cons.mp h with h | h
        · exact .inl h
        · exact .inr (List.mem_cons_of_mem _ h)
      · rcases List.mem_cons.mp h with h | h
        · exact .inr (h ▸ List.mem_cons_self ..)
        · rcases ih h with h | h
          · exact .inl h
          · exact .inr (List.mem_cons_of_mem _ h)

end Sys2Proof.Machine
end

