-- ==== Sys2Proof/Laws/Ring.lean ====
section
/-! SUPPORT. Laws of the pointer arithmetic (R11) and of walks round the ring: what `inc`, `dist` and `advance` are as
numbers, and how a walk's length changes when one of its positions moves. -/

namespace Sys2Proof.Machine

variable {N : Nat}

theorem dist_toNat (a b : BitVec N) :
    (dist a b).toNat = if a.toNat ≤ b.toNat then b.toNat - a.toNat else 2 ^ N - a.toNat + b.toNat := by
  have ha := a.isLt
  have hb := b.isLt
  simp only [dist, BitVec.toNat_sub]
  split
  · rw [show 2 ^ N - a.toNat + b.toNat = (b.toNat - a.toNat) + 2 ^ N by omega, Nat.add_mod_right,
      Nat.mod_eq_of_lt (by omega)]
  · rw [Nat.mod_eq_of_lt (by omega)]

theorem advance_toNat (a : BitVec N) (k : Nat) (hk : k < 2 ^ N) :
    (advance a k).toNat = if a.toNat + k < 2 ^ N then a.toNat + k else a.toNat + k - 2 ^ N := by
  have ha := a.isLt
  simp only [advance, BitVec.toNat_add, BitVec.toNat_ofNat, Nat.mod_eq_of_lt hk]
  split
  · exact Nat.mod_eq_of_lt ‹_›
  · rw [Nat.mod_eq_sub_mod (by omega), Nat.mod_eq_of_lt (by omega)]

theorem inc_eq_advance (a : BitVec N) : inc a = advance a 1 := by
  simp [inc, advance]

theorem advance_zero (a : BitVec N) : advance a 0 = a := by simp [advance]

theorem advance_advance (a : BitVec N) (j k : Nat) : advance (advance a j) k = advance a (j + k) := by
  simp [advance, BitVec.add_assoc, BitVec.ofNat_add]

theorem inc_advance (a : BitVec N) (k : Nat) : inc (advance a k) = advance a (k + 1) := by
  rw [inc_eq_advance, advance_advance]

theorem advance_dist (a b : BitVec N) : advance a (dist a b).toNat = b := by
  simp only [advance, dist, BitVec.ofNat_toNat, BitVec.setWidth_eq]
  rw [BitVec.add_comm, BitVec.sub_add_cancel]

theorem dist_lt (a b : BitVec N) : (dist a b).toNat < 2 ^ N := (dist a b).isLt

@[simp] theorem dist_self (a : BitVec N) : dist a a = 0 := by simp [dist]

theorem dist_eq_zero {a b : BitVec N} : dist a b = 0 ↔ a = b := by
  constructor
  · intro h
    have := advance_dist a b
    rwa [h, show (0 : BitVec N).toNat = 0 by simp, advance_zero] at this
  · rintro rfl; exact dist_self a

theorem dist_toNat_pos {a b : BitVec N} (h : a ≠ b) : 0 < (dist a b).toNat := by
  rcases Nat.eq_zero_or_pos (dist a b).toNat with h0 | h0
  · exact absurd (dist_eq_zero.mp (BitVec.eq_of_toNat_eq (by simpa using h0))) h
  · exact h0

theorem dist_advance_self (a : BitVec N) (k : Nat) (hk : k < 2 ^ N) : (dist a (advance a k)).toNat = k := by
  have ha := a.isLt
  rw [dist_toNat, advance_toNat a k hk]
  split <;> split <;> omega

/-- Two stretches that together do not lap the ring add up. -/
theorem dist_trans (a b c : BitVec N) (h : (dist a b).toNat + (dist b c).toNat < 2 ^ N) :
    (dist a c).toNat = (dist a b).toNat + (dist b c).toNat := by
  have ha := a.isLt
  have hb := b.isLt
  have hc := c.isLt
  simp only [dist_toNat] at *
  split at h <;> split at h <;> split <;> omega

/-- `dist_trans` when only the first stretch is known to lie on the way. -/
theorem dist_advance_left (a b : BitVec N) (k : Nat) (hk : k ≤ (dist a b).toNat) :
    (dist (advance a k) b).toNat = (dist a b).toNat - k := by
  have ha := a.isLt
  have hb := b.isLt
  have hd := dist_lt a b
  rw [dist_toNat (advance a k) b, advance_toNat a k (by omega)]
  rw [dist_toNat] at hk hd ⊢
  split at hk <;> split <;> split <;> omega

theorem dist_advance_right (a b : BitVec N) (k : Nat) (hk : (dist a b).toNat + k < 2 ^ N) :
    (dist a (advance b k)).toNat = (dist a b).toNat + k := by
  rw [dist_trans a b (advance b k) (by rw [dist_advance_self b k (by omega)]; exact hk),
    dist_advance_self b k (by omega)]

theorem inc_eq_iff {a b : BitVec N} (hN : 0 < N) : inc a = b ↔ (dist b a).toNat = 2 ^ N - 1 := by
  have h2 : 2 ≤ 2 ^ N := by
    calc 2 = 2 ^ 1 := rfl
      _ ≤ 2 ^ N := Nat.pow_le_pow_right (by omega) hN
  have ha := a.isLt
  have hb := b.isLt
  have key := advance_toNat a 1 (by omega)
  rw [← inc_eq_advance] at key
  rw [dist_toNat]
  constructor
  · rintro rfl
    split at key <;> split <;> omega
  · intro h
    apply BitVec.eq_of_toNat_eq
    split at key <;> split at h <;> omega

/-! ### Walks. -/

theorem walkLength_append (l : List (BitVec N)) (a : BitVec N) (r : List (BitVec N)) :
    walkLength (l ++ a :: r) = walkLength (l ++ [a]) + walkLength (a :: r) := by
  induction l with
  | nil => simp [walkLength]
  | cons x l ih =>
    cases l with
    | nil => cases r <;> simp [walkLength]
    | cons y l => simp only [List.cons_append, walkLength] at *; omega

theorem walkLength_le_cons (a : BitVec N) (l : List (BitVec N)) : walkLength l ≤ walkLength (a :: l) := by
  cases l <;> simp [walkLength]

theorem walkLength_tail_le (l : List (BitVec N)) : walkLength l.tail ≤ walkLength l := by
  cases l with
  | nil => simp
  | cons a l => exact walkLength_le_cons a l

/-- The walk to a repeated position is no longer. -/
theorem walkLength_repeat (l : List (BitVec N)) (a : BitVec N) (r : List (BitVec N)) :
    walkLength (l ++ a :: a :: r) = walkLength (l ++ a :: r) := by
  rw [walkLength_append l a (a :: r), walkLength_append l a r]
  simp [walkLength]

/-- The last stretch of a walk, moved `k` forward. -/
theorem walkLength_concat_advance (l : List (BitVec N)) (a : BitVec N) (k : Nat)
    (h : walkLength (l ++ [a]) + k < 2 ^ N) :
    walkLength (l ++ [advance a k]) ≤ walkLength (l ++ [a]) + k := by
  rcases List.eq_nil_or_concat l with rfl | ⟨l', p, rfl⟩
  · simp [walkLength]
  · simp only [List.concat_eq_append, List.append_assoc, List.cons_append, List.nil_append] at *
    rw [walkLength_append l' p [advance a k], walkLength_append l' p [a]] at *
    simp only [walkLength] at *
    rw [dist_advance_right p a k (by omega)]
    omega

/-- A position that moves forward, not past the next one, makes no walk longer. -/
theorem walkLength_move (l : List (BitVec N)) (a c : BitVec N) (r : List (BitVec N)) (k : Nat)
    (hk : k ≤ (dist a c).toNat) (h : walkLength (l ++ a :: c :: r) < 2 ^ N) :
    walkLength (l ++ advance a k :: c :: r) ≤ walkLength (l ++ a :: c :: r) := by
  rw [walkLength_append l a (c :: r)] at *
  rw [walkLength_append l (advance a k) (c :: r)]
  simp only [walkLength] at *
  rw [dist_advance_left a c k hk]
  have := walkLength_concat_advance l a k (by omega)
  omega

/-- A walk that does not lap the ring is as long as the stretch from its first position to its last. -/
theorem walkLength_eq_dist (a : BitVec N) (l : List (BitVec N)) (z : BitVec N)
    (h : walkLength (a :: l ++ [z]) < 2 ^ N) : walkLength (a :: l ++ [z]) = (dist a z).toNat := by
  induction l generalizing a with
  | nil => simp [walkLength]
  | cons b l ih =>
    simp only [List.cons_append, walkLength] at *
    have ih' := ih b (by omega)
    rw [ih'] at h ⊢
    exact (dist_trans a b z h).symm

end Sys2Proof.Machine
end

