-- ==== Sys2Proof/Laws/Block.lean ====
section
/-! SUPPORT. Laws of one block: what its invariant says, what each operation does to its positions, and that every
operation keeps the invariant. -/

namespace Sys2Proof.Machine

variable {N : Nat}

/-- Skipping a position makes no walk longer. -/
theorem walkLength_skip (l : List (BitVec N)) (a b c : BitVec N) (r : List (BitVec N))
    (h : walkLength (l ++ a :: b :: c :: r) < 2 ^ N) :
    walkLength (l ++ a :: c :: r) ≤ walkLength (l ++ a :: b :: c :: r) := by
  rw [walkLength_append l a (b :: c :: r)] at *
  rw [walkLength_append l a (c :: r)]
  simp only [walkLength] at *
  rw [dist_trans a b c (by omega)]
  omega

/-! ### The two parts of a block's positions. -/

/-- The positions behind `tail`, the producer's view first. -/
def Crossing.behind {N : Nat} : Crossing N → List (BitVec N)
  | .architectural _ t => [t]
  | .clocked _ tg _ ts => ts.reverse.map ungray ++ [ungray tg]

/-- The positions between `tail` and `head`, the consumer's view first. -/
def Crossing.ahead {N : Nat} : Crossing N → List (BitVec N)
  | .architectural h _ => [h]
  | .clocked _ _ hs _ => hs.reverse.map ungray

theorem Block.positions_eq (b : Block N) :
    b.positions = b.crossing.behind ++ b.tail :: (b.crossing.ahead ++ [b.head]) := by
  unfold Block.positions Crossing.behind Crossing.ahead
  cases b.crossing <;> simp

theorem head_map_ungray_reverse (c : List (BitVec N)) (h : c ≠ []) :
    ∃ r, c.reverse.map ungray = ungray (c.getLastD 0) :: r := by
  rcases List.eq_nil_or_concat c with rfl | ⟨c', x, rfl⟩
  · exact absurd rfl h
  · exact ⟨c'.reverse.map ungray, by simp [List.getLastD_eq_getLast?]⟩

theorem Crossing.chains_of_legal {S : Nat} {hg tg : BitVec N} {hs ts : List (BitVec N)}
    (h : (Crossing.clocked hg tg hs ts).legal S = true) : hs ≠ [] ∧ ts ≠ [] := by
  simp only [Crossing.legal, Config.legalS, Bool.and_eq_true, decide_eq_true_eq, beq_iff_eq] at h
  constructor <;> rintro rfl <;> simp at h <;> omega

theorem Crossing.ahead_cons {S : Nat} (c : Crossing N) (h : c.legal S = true) :
    ∃ r, c.ahead = c.headSeen :: r := by
  cases c with
  | architectural hd t => exact ⟨[], rfl⟩
  | clocked hg tg hs ts => exact head_map_ungray_reverse hs (Crossing.chains_of_legal h).1

theorem Crossing.behind_cons {S : Nat} (c : Crossing N) (h : c.legal S = true) :
    ∃ r, c.behind = c.tailSeen :: r := by
  cases c with
  | architectural hd t => exact ⟨[], rfl⟩
  | clocked hg tg hs ts =>
    obtain ⟨r, hr⟩ := head_map_ungray_reverse ts (Crossing.chains_of_legal h).2
    exact ⟨r ++ [ungray tg], by simp [Crossing.behind, Crossing.tailSeen, hr]⟩

theorem shiftIn_reverse {α : Type} (x : α) (c : List α) : (shiftIn x c).reverse = (c.reverse ++ [x]).tail := by
  rw [shiftIn, ← List.tail_reverse]; simp

theorem shiftIn_length {α : Type} (x : α) (c : List α) : (shiftIn x c).length = c.length := by
  simp [shiftIn]

/-- What the last of two or more stages takes at a shift: the stage before it. -/
theorem shiftIn_getLastD {α : Type} (x z : α) (c : List α) (h : 2 ≤ c.length) :
    (shiftIn x c).getLastD z = c.dropLast.getLastD z := by
  rcases List.eq_nil_or_concat c with rfl | ⟨l, u, rfl⟩
  · simp at h
  · rcases List.eq_nil_or_concat l with rfl | ⟨l, v, rfl⟩
    · simp at h
    · rw [shiftIn, List.concat_eq_append, ← List.cons_append, List.dropLast_concat, List.dropLast_concat,
        List.concat_eq_append, ← List.cons_append, List.getLastD_concat, List.getLastD_concat]

/-- Shifting a chain in: its first position goes, the sample comes in at the end. -/
theorem map_ungray_shiftIn (x : BitVec N) (c : List (BitVec N)) (h : c ≠ []) :
    (shiftIn x c).reverse.map ungray = (c.reverse.map ungray).tail ++ [ungray x] := by
  rw [shiftIn_reverse]
  have : c.reverse ≠ [] := by simpa using h
  cases hc : c.reverse with
  | nil => exact absurd hc this
  | cons y r => simp

/-! ### The edges keep a crossing legal. -/

theorem Crossing.producerEdge_legal (c : Crossing N) (S : Nat) (h' : BitVec N) :
    (c.producerEdge h').legal S = c.legal S := by
  cases c <;> simp [Crossing.producerEdge, Crossing.legal, shiftIn_length]

theorem Crossing.consumerEdge_legal (c : Crossing N) (S : Nat) (t' : BitVec N) :
    (c.consumerEdge t').legal S = c.legal S := by
  cases c <;> simp [Crossing.consumerEdge, Crossing.legal, shiftIn_length]

theorem Crossing.zeroed_legal (c : Crossing N) (S : Nat) : c.zeroed.legal S = c.legal S := by
  cases c <;> simp [Crossing.zeroed, Crossing.legal]

theorem Crossing.caughtUp_legal (c : Crossing N) (S : Nat) (h t : BitVec N) :
    (c.caughtUp h t).legal S = c.legal S := by
  cases c <;> simp [Crossing.caughtUp, Crossing.legal]

/-! ### The edges and the views. -/

@[simp] theorem Block.producerEdge_headSeen (b : Block N) : b.producerEdge.headSeen = b.headSeen := by
  unfold Block.headSeen Block.producerEdge; cases b.crossing <;> rfl

@[simp] theorem Block.consumerEdge_tailSeen (b : Block N) : b.consumerEdge.tailSeen = b.tailSeen := by
  unfold Block.tailSeen Block.consumerEdge; cases b.crossing <;> rfl

/-- At the architectural level an edge moves nothing. -/
theorem Block.producerEdge_architectural {b : Block N} (h : b.isArchitectural = true) : b.producerEdge = b := by
  unfold Block.isArchitectural at h
  cases hc : b.crossing with
  | clocked => simp [hc] at h
  | architectural => simp only [Block.producerEdge, hc, Crossing.producerEdge]; rw [← hc]

theorem Block.consumerEdge_architectural {b : Block N} (h : b.isArchitectural = true) : b.consumerEdge = b := by
  unfold Block.isArchitectural at h
  cases hc : b.crossing with
  | clocked => simp [hc] at h
  | architectural => simp only [Block.consumerEdge, hc, Crossing.consumerEdge]; rw [← hc]

theorem getLastD_map_zero (l : List (BitVec N)) : (l.map fun _ => (0 : BitVec N)).getLastD 0 = 0 := by
  rcases List.eq_nil_or_concat l with rfl | ⟨l', p, rfl⟩ <;> simp

@[simp] theorem Block.init_headSeen (b : Block N) : b.init.headSeen = 0 := by
  unfold Block.headSeen Block.init
  cases b.crossing with
  | architectural => rfl
  | clocked => simp only [Crossing.zeroed, Crossing.headSeen, getLastD_map_zero]; exact ungray_zero

@[simp] theorem Block.init_tailSeen (b : Block N) : b.init.tailSeen = 0 := by
  unfold Block.tailSeen Block.init
  cases b.crossing with
  | architectural => rfl
  | clocked => simp only [Crossing.zeroed, Crossing.tailSeen, getLastD_map_zero]; exact ungray_zero

/-! ### Ready copies. -/

theorem Fifo.ready_initDone {q : Fifo} (h : q.ready = true) : q.blk.initDone = true := by
  simp only [Fifo.ready, Bool.and_eq_true] at h; exact h.2

theorem Fifo.ready_legal {q : Fifo} (h : q.ready = true) : q.legal = true := by
  simp only [Fifo.ready, Bool.and_eq_true] at h; exact h.1

theorem Fifo.legal_pos {q : Fifo} (h : q.legal = true) : 0 < q.N := by
  simp only [Fifo.legal, Config.legalN, Bool.and_eq_true, decide_eq_true_eq] at h; omega

theorem Fifo.legal_crossing {q : Fifo} (h : q.legal = true) : q.blk.crossing.legal q.S = true := by
  simp only [Fifo.legal, Bool.and_eq_true] at h; exact h.2

/-- A producer command whose effect is known, run. -/
theorem producerStep_eq {s : State} (hr : s.fifo.ready = true) (f : Command) {b : Block s.fifo.N} {o : Outputs}
    (hf : f _ s.fifo.blk = .next (b, o)) : s.producerStep f = .next (s.after b.producerEdge o) := by
  unfold State.producerStep; rw [command_eq s _ f hr, hf]

/-- A consumer command whose effect is known, run. -/
theorem consumerStep_eq {s : State} (hr : s.fifo.ready = true) (f : Command) {b : Block s.fifo.N} {o : Outputs}
    (hf : f _ s.fifo.blk = .next (b, o)) : s.consumerStep f = .next (s.after b.consumerEdge o) := by
  unfold State.consumerStep; rw [command_eq s _ f hr, hf]

/-! ### How the walk's length changes. -/

/-- A producer step: the chain shifts, `head` may have advanced. -/
theorem walkLength_producerEdge {S : Nat} (c : Crossing N) (hl : c.legal S = true) (h' tl hd : BitVec N) :
    walkLength ((c.producerEdge h').behind ++ tl :: ((c.producerEdge h').ahead ++ [hd]))
      ≤ walkLength (c.behind ++ tl :: (c.ahead ++ [hd])) := by
  cases c with
  | architectural => exact Nat.le_refl _
  | clocked hg tg hs ts =>
    have ht := (Crossing.chains_of_legal hl).2
    simp only [Crossing.producerEdge, Crossing.behind, Crossing.ahead, map_ungray_shiftIn tg ts ht]
    have e : (ts.reverse.map ungray).tail ++ [ungray tg] ++ [ungray tg] ++ tl :: (hs.reverse.map ungray ++ [hd])
        = (ts.reverse.map ungray).tail ++ ungray tg :: ungray tg :: tl :: (hs.reverse.map ungray ++ [hd]) := by simp
    have e' : ts.reverse.map ungray ++ [ungray tg] ++ tl :: (hs.reverse.map ungray ++ [hd])
        = ts.reverse.map ungray ++ ungray tg :: tl :: (hs.reverse.map ungray ++ [hd]) := by simp
    rw [e, e', walkLength_repeat]
    obtain ⟨r, hr⟩ := head_map_ungray_reverse ts ht
    rw [hr]
    exact walkLength_le_cons _ _

/-- The last position of a walk, one further. -/
theorem walkLength_inc_head (l : List (BitVec N)) (hd : BitVec N) (h : walkLength (l ++ [hd]) + 1 < 2 ^ N) :
    walkLength (l ++ [inc hd]) ≤ walkLength (l ++ [hd]) + 1 := by
  rw [inc_eq_advance]
  exact walkLength_concat_advance l hd 1 h

theorem walk_position (tg t' : BitVec N) :
    ungray (walk tg t') = if ungray tg = t' then ungray tg else inc (ungray tg) := by
  unfold walk
  by_cases h : tg = gray t'
  · subst h; simp [ungray_gray]
  · rw [if_neg h, ungray_gray]
    split
    · exact absurd (by rw [← ‹ungray tg = t'›, gray_ungray]) h
    · rfl

/-- A consumer step: `tail` moves `j` forward, not past the view; the chain shifts; the gray register walks. -/
theorem walkLength_consumerEdge {S : Nat} (c : Crossing N) (hl : c.legal S = true) (tl hd : BitVec N) (j : Nat)
    (hj : j ≤ (dist tl c.headSeen).toNat)
    (hc : ∀ hg tg hs ts, c = .clocked hg tg hs ts → ungray hg = hd)
    (h : walkLength (c.behind ++ tl :: (c.ahead ++ [hd])) < 2 ^ N) :
    walkLength ((c.consumerEdge (advance tl j)).behind ++ advance tl j :: ((c.consumerEdge (advance tl j)).ahead ++ [hd]))
      ≤ walkLength (c.behind ++ tl :: (c.ahead ++ [hd])) := by
  obtain ⟨r, hr⟩ := Crossing.ahead_cons c hl
  have h1 : walkLength (c.behind ++ advance tl j :: (c.ahead ++ [hd]))
      ≤ walkLength (c.behind ++ tl :: (c.ahead ++ [hd])) := by
    rw [hr] at h ⊢
    exact walkLength_move c.behind tl c.headSeen (r ++ [hd]) j hj h
  refine Nat.le_trans ?_ h1
  have h2 := Nat.lt_of_le_of_lt h1 h
  generalize advance tl j = tl' at *
  cases c with
  | architectural => exact Nat.le_refl _
  | clocked hg tg hs ts =>
    have hh := hc _ _ _ _ rfl
    have hne := (Crossing.chains_of_legal hl).1
    simp only [Crossing.consumerEdge, Crossing.behind, Crossing.ahead, map_ungray_shiftIn hg hs hne, hh] at *
    rw [walk_position]
    rw [hr] at h2 ⊢
    have hs' : (Crossing.clocked hg tg hs ts).headSeen = ungray (hs.getLastD 0) := rfl
    rw [hs'] at h2 ⊢
    simp only [List.tail_cons, List.append_assoc, List.cons_append, List.nil_append] at h2 ⊢
    -- the head chain: its first position goes, `head` comes in again
    have h3 : walkLength (ts.reverse.map ungray ++ ungray tg :: tl' :: (r ++ hd :: [hd]))
        ≤ walkLength (ts.reverse.map ungray ++ ungray tg :: tl' :: ungray (hs.getLastD 0) :: (r ++ [hd])) := by
      have e1 : ts.reverse.map ungray ++ ungray tg :: tl' :: (r ++ hd :: [hd])
          = (ts.reverse.map ungray ++ ungray tg :: tl' :: r) ++ hd :: hd :: [] := by simp
      rw [e1, walkLength_repeat]
      cases r with
      | nil =>
        have := walkLength_skip (ts.reverse.map ungray ++ [ungray tg]) tl' (ungray (hs.getLastD 0)) hd [] (by simpa using h2)
        simpa using this
      | cons y r =>
        have := walkLength_skip (ts.reverse.map ungray ++ [ungray tg]) tl' (ungray (hs.getLastD 0)) y (r ++ [hd])
          (by simpa using h2)
        simpa using this
    refine Nat.le_trans ?_ h3
    have h4 := Nat.lt_of_le_of_lt h3 h2
    split
    · simp
    · rename_i hne'
      have hp := dist_toNat_pos hne'
      have := walkLength_move (ts.reverse.map ungray) (ungray tg) tl' (r ++ hd :: [hd]) 1 hp h4
      rw [← inc_eq_advance] at this
      simpa using this

/-! ### What the invariant says. -/

theorem Block.inv_iff (b : Block N) :
    b.inv = true ↔ b.storage.wf = true ∧ (∀ e ∈ b.storage, e.1 < 2 ^ N) ∧
      (b.initDone = true → walkLength b.positions < 2 ^ N ∧ b.headCoded = true ∧
        ∀ i < b.occupancy, (b.storage.read (b.slot i).toNat).isSome = true) := by
  unfold Block.inv Block.unreadWritten
  cases b.initDone <;> simp [and_assoc]

theorem Block.headCoded_iff (b : Block N) :
    b.headCoded = true ↔ ∀ hg tg hs ts, b.crossing = .clocked hg tg hs ts → hg = gray b.head := by
  unfold Block.headCoded
  cases b.crossing with
  | architectural => simp
  | clocked hg tg hs ts =>
    simp only [beq_iff_eq]
    constructor
    · rintro h _ _ _ _ ⟨⟩; exact h
    · intro h; exact h _ _ _ _ rfl

/-- The walk from the producer's view of `tail` to `head`, in stretches (R23, R24, R32). -/
theorem Block.inv_walk {b : Block N} {S : Nat} (hl : b.crossing.legal S = true) (h : walkLength b.positions < 2 ^ N) :
    (dist b.tailSeen b.tail).toNat + (dist b.tail b.headSeen).toNat + (dist b.headSeen b.head).toNat
      = walkLength b.positions := by
  obtain ⟨p, hp⟩ := Crossing.behind_cons b.crossing hl
  obtain ⟨q, hq⟩ := Crossing.ahead_cons b.crossing hl
  rw [Block.positions_eq, hp, hq] at h ⊢
  have e : b.crossing.tailSeen :: p ++ b.tail :: (b.crossing.headSeen :: q ++ [b.head])
      = (b.crossing.tailSeen :: p) ++ b.tail :: b.crossing.headSeen :: (q ++ [b.head]) := by simp
  rw [e, walkLength_append] at h ⊢
  have h1 := walkLength_eq_dist b.crossing.tailSeen p b.tail (by omega)
  rw [h1] at h ⊢
  have e2 : walkLength (b.tail :: b.crossing.headSeen :: (q ++ [b.head]))
      = (dist b.tail b.crossing.headSeen).toNat + walkLength (b.crossing.headSeen :: q ++ [b.head]) := rfl
  rw [e2] at h ⊢
  rw [walkLength_eq_dist b.crossing.headSeen q b.head (by omega)]
  show (dist b.crossing.tailSeen b.tail).toNat + (dist b.tail b.crossing.headSeen).toNat
    + (dist b.crossing.headSeen b.head).toNat = _
  omega

theorem Block.occupancy_eq {b : Block N} {S : Nat} (hl : b.crossing.legal S = true) (h : walkLength b.positions < 2 ^ N) :
    b.occupancy = (dist b.tail b.headSeen).toNat + (dist b.headSeen b.head).toNat := by
  have := Block.inv_walk hl h
  exact dist_trans _ _ _ (by omega)

end Sys2Proof.Machine
end

