-- ==== Sys2Proof/Laws/Queue.lean ====
section
/-! SUPPORT. Laws of the queue a block holds (R26, R65): what each operation does to the unread bytes, and that every
step of a block keeps its invariant and its parameters legal. -/

namespace Sys2Proof.Machine

variable {N : Nat}

theorem advance_inj {a : BitVec N} {j k : Nat} (hj : j < 2 ^ N) (hk : k < 2 ^ N) (h : advance a j = advance a k) :
    j = k := by
  rw [← dist_advance_self a j hj, h, dist_advance_self a k hk]

theorem filterMap_eq_of_mem {α β : Type} {f g : α → Option β} {l : List α} (h : ∀ x ∈ l, f x = g x) :
    l.filterMap f = l.filterMap g := by
  induction l with
  | nil => rfl
  | cons a l ih =>
    simp only [List.filterMap_cons, h a (by simp), ih fun x hx => h x (List.mem_cons_of_mem _ hx)]

/-! ### Each operation, once. -/

theorem Block.push_full {b : Block N} (d : Byte) (h : b.full = true) : b.push d = (b, Outputs.refusedFull) := by
  simp [Block.push, h]

theorem Block.push_ok {b : Block N} (d : Byte) (h : b.full = false) :
    b.push d = ({ b with storage := b.storage.write (inc b.head).toNat d, head := inc b.head },
      Outputs.stored (inc b.head).toNat d) := by
  simp [Block.push, h, Block.wrAddr]

theorem Block.pop_empty {b : Block N} (h : b.empty = true) : b.pop = .next (b, Outputs.noData) := by
  simp [Block.pop, h]

theorem Block.pop_byte {b : Block N} {v : Byte} (h : b.empty = false) (hv : b.storage.read (inc b.tail).toNat = some v) :
    b.pop = .next ({ b with tail := inc b.tail }, Outputs.popped (inc b.tail).toNat v) := by
  simp [Block.pop, h, Block.rdAddr, hv]

/-- A POP that answers did one of two things. -/
theorem Block.pop_next {b b' : Block N} {o : Outputs} (h : b.pop = .next (b', o)) :
    (b.empty = true ∧ b' = b ∧ o = Outputs.noData) ∨
      ∃ v, b.empty = false ∧ b.storage.read (inc b.tail).toNat = some v ∧ b' = { b with tail := inc b.tail } ∧
        o = Outputs.popped (inc b.tail).toNat v := by
  by_cases he : b.empty = true
  · rw [Block.pop_empty he] at h; cases h; exact .inl ⟨he, rfl, rfl⟩
  · have he : b.empty = false := by simpa using he
    cases hv : b.storage.read (inc b.tail).toNat with
    | none => simp [Block.pop, he, Block.rdAddr, hv] at h
    | some v => rw [Block.pop_byte he hv] at h; cases h; exact .inr ⟨v, he, rfl, rfl, rfl⟩

theorem Block.syncH_next {b b' : Block N} {o : Outputs} {k : Nat} (h : b.syncH k = .next (b', o)) :
    ∃ hs ts, b.crossing = .architectural hs ts ∧ 1 ≤ k ∧ k ≤ (dist hs b.head).toNat ∧
      b' = { b with crossing := .architectural (advance hs k) ts } ∧ o = {} := by
  unfold Block.syncH at h
  split at h
  · split at h
    · cases h; exact ⟨_, _, ‹_›, (‹_ ∧ _›).1, (‹_ ∧ _›).2, rfl, rfl⟩
    · cases h
  · cases h

theorem Block.syncT_next {b b' : Block N} {o : Outputs} {k : Nat} (h : b.syncT k = .next (b', o)) :
    ∃ hs ts, b.crossing = .architectural hs ts ∧ 1 ≤ k ∧ k ≤ (dist ts b.tail).toNat ∧
      b' = { b with crossing := .architectural hs (advance ts k) } ∧ o = {} := by
  unfold Block.syncT at h
  split at h
  · split at h
    · cases h; exact ⟨_, _, ‹_›, (‹_ ∧ _›).1, (‹_ ∧ _›).2, rfl, rfl⟩
    · cases h
  · cases h

theorem Block.full_iff (b : Block N) : b.full = true ↔ inc b.head = b.tailSeen := by simp [Block.full]
theorem Block.empty_iff (b : Block N) : b.empty = true ↔ b.headSeen = b.tail := by simp [Block.empty]

/-! ### What the invariant gives. -/

/-- The invariant's content for a block that has had its INIT. -/
structure Sound (b : Block N) : Prop where
  wf : b.storage.wf = true
  bound : ∀ e ∈ b.storage, e.1 < 2 ^ N
  walk : walkLength b.positions < 2 ^ N
  coded : b.headCoded = true
  written : ∀ i < b.occupancy, (b.storage.read (b.slot i).toNat).isSome = true

theorem sound_of_inv {b : Block N} (h : b.inv = true) (hi : b.initDone = true) : Sound b := by
  obtain ⟨h1, h2, h3⟩ := b.inv_iff.mp h
  obtain ⟨h4, h5, h6⟩ := h3 hi
  exact ⟨h1, h2, h4, h5, h6⟩

theorem Sound.inv {b : Block N} (h : Sound b) : b.inv = true :=
  b.inv_iff.mpr ⟨h.wf, h.bound, fun _ => ⟨h.walk, h.coded, h.written⟩⟩

/-- There is room for a byte when `full = 0`: the true occupancy is below `C - 1`. -/
theorem walk_of_not_full {b : Block N} {S : Nat} (hl : b.crossing.legal S = true) (hN : 0 < N)
    (hw : walkLength b.positions < 2 ^ N) (hf : b.full = false) : walkLength b.positions + 1 < 2 ^ N := by
  have hs := Block.inv_walk hl hw
  have ho := Block.occupancy_eq hl hw
  unfold Block.occupancy at ho
  have ht := dist_trans b.tailSeen b.tail b.head (by omega)
  have hne : ¬ inc b.head = b.tailSeen := fun h => by simp [(Block.full_iff b).mpr h] at hf
  rw [inc_eq_iff hN] at hne
  omega

/-- The true occupancy never exceeds what the walk allows. -/
theorem occupancy_le_walk {b : Block N} {S : Nat} (hl : b.crossing.legal S = true)
    (hw : walkLength b.positions < 2 ^ N) : b.occupancy ≤ walkLength b.positions := by
  have hs := Block.inv_walk hl hw
  have ho := Block.occupancy_eq hl hw
  omega

/-! ### A byte comes in. -/

section push
variable {b : Block N} (d : Byte)

/-- The block after a PUSH that stored. -/
abbrev Block.pushed (b : Block N) (d : Byte) : Block N :=
  { b with storage := b.storage.write (inc b.head).toNat d, head := inc b.head }

theorem pushed_occupancy (h : b.occupancy + 1 < 2 ^ N) : (b.pushed d).occupancy = b.occupancy + 1 := by
  show (dist b.tail (inc b.head)).toNat = _
  rw [inc_eq_advance]
  exact dist_advance_right b.tail b.head 1 h

theorem slot_occupancy (b : Block N) : b.slot b.occupancy = inc b.head := by
  unfold Block.slot Block.occupancy
  rw [← inc_advance, advance_dist]

theorem pushed_read_old {i : Nat} (h : b.occupancy + 1 < 2 ^ N) (hi : i < b.occupancy) :
    (b.pushed d).storage.read (b.slot i).toNat = b.storage.read (b.slot i).toNat := by
  refine Memory.read_write_other _ _ _ fun he => ?_
  have he := BitVec.eq_of_toNat_eq he
  rw [← slot_occupancy] at he
  have := advance_inj (by omega) (by omega) he
  omega

theorem pushed_read_new : (b.pushed d).storage.read (b.slot b.occupancy).toNat = some d := by
  rw [slot_occupancy]; exact Memory.read_write_same _ _ _

/-- A byte stored stands at the end of the queue. -/
theorem pushed_contents (h : b.occupancy + 1 < 2 ^ N) : (b.pushed d).contents = b.contents ++ [d] := by
  unfold Block.contents
  rw [pushed_occupancy d h, List.range_succ, List.filterMap_append]
  congr 1
  · exact filterMap_eq_of_mem fun i hi => pushed_read_old d h (List.mem_range.mp hi)
  · simp only [List.filterMap_cons, List.filterMap_nil]
    rw [show (b.pushed d).slot b.occupancy = b.slot b.occupancy from rfl, pushed_read_new]

end push

/-! ### The queue is made of storage and the two pointers: the crossing's moves leave it as it is. -/

section crossing
variable (b : Block N) (c : Crossing N)
@[simp] theorem producerEdge_contents : b.producerEdge.contents = b.contents := rfl
@[simp] theorem consumerEdge_contents : b.consumerEdge.contents = b.contents := rfl
@[simp] theorem caughtUp_contents : b.caughtUp.contents = b.contents := rfl
@[simp] theorem image_contents : b.image.contents = b.contents := rfl
@[simp] theorem crossing_contents : { b with crossing := c : Block N }.contents = b.contents := rfl
@[simp] theorem init_contents : b.init.contents = [] := by simp [Block.contents, Block.occupancy]
end crossing

/-! ### Bytes go out. -/

section advance
variable (b : Block N)

/-- The block with `tail` moved `j` slots forward. -/
abbrev Block.freed (b : Block N) (j : Nat) : Block N := { b with tail := advance b.tail j }

theorem freed_occupancy {j : Nat} (h : j ≤ b.occupancy) : (b.freed j).occupancy = b.occupancy - j :=
  dist_advance_left b.tail b.head j h

theorem freed_slot (j i : Nat) : (b.freed j).slot i = b.slot (j + i) := by
  unfold Block.slot; rw [advance_advance]; rfl

/-- The bytes at the front of the queue, up to `j` of them. -/
def Block.front (b : Block N) (j : Nat) : List Byte :=
  (List.range j).filterMap fun i => b.storage.read (b.slot i).toNat

/-- Moving `tail` forward takes the bytes off the front and leaves the rest in order. -/
theorem freed_contents {j : Nat} (h : j ≤ b.occupancy) : b.contents = b.front j ++ (b.freed j).contents := by
  unfold Block.contents Block.front
  rw [freed_occupancy b h]
  conv => lhs; rw [show b.occupancy = j + (b.occupancy - j) by omega, List.range_add, List.filterMap_append]
  congr 1
  rw [List.filterMap_map]
  exact filterMap_eq_of_mem fun i _ => by simp only [Function.comp, freed_slot]

theorem front_one {v : Byte} (h : b.storage.read (inc b.tail).toNat = some v) : b.front 1 = [v] := by
  unfold Block.front
  have : b.slot 0 = inc b.tail := by unfold Block.slot; rw [inc_eq_advance]
  simp [List.range_succ, this, h]

end advance

theorem drain_eq_freed (b : Block N) : b.drain = b.freed (dist b.tail b.headSeen).toNat := by
  unfold Block.drain Block.freed
  rw [advance_dist]

theorem freed_zero (b : Block N) : b.freed 0 = b := by
  unfold Block.freed
  rw [advance_zero]

/-! ### The invariant is kept. -/

theorem producerEdge_sound {b b' : Block N} {S : Nat} (hl : b.crossing.legal S = true) (hb : b'.crossing = b.crossing)
    (hw : walkLength b'.positions < 2 ^ N) (wf : b'.storage.wf = true) (bd : ∀ e ∈ b'.storage, e.1 < 2 ^ N)
    (wr : ∀ i < b'.occupancy, (b'.storage.read (b'.slot i).toNat).isSome = true) : Sound b'.producerEdge := by
  refine ⟨wf, bd, ?_, ?_, wr⟩
  · refine Nat.lt_of_le_of_lt ?_ hw
    rw [Block.positions_eq, Block.positions_eq]
    exact walkLength_producerEdge b'.crossing (hb ▸ hl) b'.head b'.tail b'.head
  · rw [Block.headCoded_iff]
    intro hg tg hs ts h
    rw [Block.producerEdge_crossing] at h
    cases hc : b'.crossing with
    | architectural => rw [hc] at h; cases h
    | clocked => rw [hc] at h; cases h; rfl

theorem consumerEdge_sound {b : Block N} {S : Nat} (hl : b.crossing.legal S = true) (hs : Sound b) {j : Nat}
    (hj : j ≤ (dist b.tail b.headSeen).toNat) : Sound (b.freed j).consumerEdge := by
  have ho := Block.occupancy_eq hl hs.walk
  have hjo : j ≤ b.occupancy := by omega
  refine ⟨hs.wf, hs.bound, ?_, ?_, ?_⟩
  · have hw := hs.walk
    refine Nat.lt_of_le_of_lt ?_ hw
    rw [Block.positions_eq] at hw
    rw [Block.positions_eq, Block.positions_eq]
    refine walkLength_consumerEdge b.crossing hl b.tail b.head j hj ?_ hw
    intro hg tg hs' ts h
    rw [(Block.headCoded_iff b).mp hs.coded _ _ _ _ h, ungray_gray]
  · rw [Block.headCoded_iff]
    intro hg tg hs' ts h
    have hc := (Block.headCoded_iff b).mp hs.coded
    rw [Block.consumerEdge_crossing] at h
    cases hb : b.crossing with
    | architectural =>
      have : (b.freed j).crossing = b.crossing := rfl
      rw [this, hb] at h; cases h
    | clocked =>
      have : (b.freed j).crossing = b.crossing := rfl
      rw [this, hb] at h; cases h; exact hc _ _ _ _ hb
  · intro i hi
    have hi : i < b.occupancy - j := (freed_occupancy b hjo) ▸ hi
    have := hs.written (j + i) (by omega)
    rw [← freed_slot] at this
    exact this

theorem consumerEdge_sound_still {b : Block N} {S : Nat} (hl : b.crossing.legal S = true) (hs : Sound b) :
    Sound b.consumerEdge := by
  have := consumerEdge_sound hl hs (j := 0) (Nat.zero_le _)
  rwa [freed_zero] at this

theorem walkLength_replicate (z : BitVec N) (l : List (BitVec N)) (h : ∀ x ∈ l, x = z) : walkLength l = 0 := by
  induction l with
  | nil => rfl
  | cons a l ih =>
    cases l with
    | nil => rfl
    | cons b l =>
      have ha := h a (by simp)
      have hb := h b (by simp)
      have := ih fun x hx => h x (List.mem_cons_of_mem _ hx)
      simp [walkLength, ha, hb] at *
      exact this

theorem init_sound {b : Block N} (hw : b.storage.wf = true) (hb : ∀ e ∈ b.storage, e.1 < 2 ^ N) : Sound b.init := by
  refine ⟨hw, hb, ?_, ?_, ?_⟩
  · rw [walkLength_replicate 0 _ ?_]
    · exact Nat.two_pow_pos N
    · intro x hx
      rw [Block.positions_eq] at hx
      cases hc : b.crossing with
      | architectural =>
        simp [hc, Crossing.zeroed, Crossing.behind, Crossing.ahead] at hx
        simpa using hx
      | clocked =>
        simp only [Block.init_crossing, hc, Crossing.zeroed, Crossing.behind, Crossing.ahead, Block.init_tail,
          Block.init_head, List.mem_append, List.mem_cons, List.mem_map, List.mem_reverse,
          List.not_mem_nil, or_false] at hx
        rcases hx with (⟨y, ⟨z, _, hz⟩, rfl⟩ | rfl) | rfl | ⟨y, ⟨z, _, hz⟩, rfl⟩ | rfl
        · rw [← hz]; exact ungray_zero
        · exact ungray_zero
        · rfl
        · rw [← hz]; exact ungray_zero
        · rfl
  · rw [Block.headCoded_iff]
    intro hg tg hs ts h
    cases hc : b.crossing with
    | architectural => simp [hc, Crossing.zeroed] at h
    | clocked =>
      rw [Block.init_crossing, hc] at h; cases h
      exact gray_zero.symm
  · intro i hi
    exfalso
    have : b.init.occupancy = 0 := by simp [Block.occupancy]
    omega

/-- Every step of a block keeps what the invariant says, from a block that is sound or by an INIT. -/
theorem blockStep_sound {b b' : Block N} {o : Outputs} {S : Nat} (hN : 0 < N) (hl : b.crossing.legal S = true)
    (hs : Sound b) (h : BlockStep b o b') : Sound b' := by
  cases h with
  | pNop => exact producerEdge_sound hl rfl hs.walk hs.wf hs.bound hs.written
  | push d =>
    by_cases hf : b.full = true
    · rw [Block.push_full d hf]
      exact producerEdge_sound hl rfl hs.walk hs.wf hs.bound hs.written
    · have hf : b.full = false := by simpa using hf
      rw [Block.push_ok d hf]
      have hw := walk_of_not_full hl hN hs.walk hf
      have ho := occupancy_le_walk hl hs.walk
      refine producerEdge_sound (b := b) hl rfl ?_ (Memory.wf_write _ _ _ hs.wf) ?_ ?_
      · refine Nat.lt_of_le_of_lt ?_ hw
        rw [Block.positions_eq] at hw ⊢
        rw [Block.positions_eq]
        have := walkLength_inc_head (b.crossing.behind ++ b.tail :: b.crossing.ahead) b.head (by simpa using hw)
        simpa using this
      · intro e he
        rcases Memory.mem_write he with rfl | he
        · exact (inc b.head).isLt
        · exact hs.bound e he
      · intro i hi
        have ho' : (b.pushed d).occupancy = b.occupancy + 1 := pushed_occupancy d (by omega)
        have hi : i < b.occupancy + 1 := ho' ▸ hi
        rcases Nat.lt_succ_iff_lt_or_eq.mp hi with h1 | rfl
        · have := pushed_read_old d (b := b) (by omega) h1
          exact this ▸ hs.written i h1
        · have := pushed_read_new d (b := b)
          exact this ▸ rfl
  | cNop => exact consumerEdge_sound_still hl hs
  | pop hp =>
    rcases Block.pop_next hp with ⟨_, rfl, _⟩ | ⟨v, he, _, rfl, _⟩
    · exact consumerEdge_sound_still hl hs
    · have hne : b.tail ≠ b.headSeen := fun h => by simp [(Block.empty_iff b).mpr h.symm] at he
      rw [inc_eq_advance]
      exact consumerEdge_sound hl hs (dist_toNat_pos hne)
  | drain => rw [drain_eq_freed]; exact consumerEdge_sound hl hs (Nat.le_refl _)
  | count => exact consumerEdge_sound_still hl hs
  | init => exact init_sound hs.wf hs.bound
  | syncH k hk =>
    obtain ⟨h, t, hc, h1, h2, rfl, _⟩ := Block.syncH_next hk
    refine ⟨hs.wf, hs.bound, ?_, by simp [Block.headCoded], hs.written⟩
    have hw := hs.walk
    simp only [Block.positions, hc] at hw ⊢
    exact Nat.lt_of_le_of_lt (walkLength_move [t, b.tail] h b.head [] k h2 hw) hw
  | syncT k hk =>
    obtain ⟨h, t, hc, h1, h2, rfl, _⟩ := Block.syncT_next hk
    refine ⟨hs.wf, hs.bound, ?_, by simp [Block.headCoded], hs.written⟩
    have hw := hs.walk
    simp only [Block.positions, hc] at hw ⊢
    exact Nat.lt_of_le_of_lt (walkLength_move [] t b.tail [h, b.head] k h2 hw) hw

theorem caughtUp_sound {b : Block N} (hs : Sound b) : Sound b.caughtUp := by
  cases hc : b.crossing with
  | clocked =>
    have : b.caughtUp = b := by
      cases b; simp only at hc; subst hc; rfl
    rwa [this]
  | architectural h t =>
    refine ⟨hs.wf, hs.bound, ?_, by simp [Block.headCoded, Block.caughtUp, hc, Crossing.caughtUp], hs.written⟩
    simp only [Block.positions, Block.caughtUp, hc, Crossing.caughtUp, walkLength, dist_self]
    have := dist_lt b.tail b.head
    simpa using this

/-- The parameters stay legal and the level stays what it is. -/
theorem blockStep_legal {b b' : Block N} {o : Outputs} (S : Nat) (h : BlockStep b o b') :
    b'.crossing.legal S = b.crossing.legal S := by
  cases h with
  | pNop => exact Crossing.producerEdge_legal _ _ _
  | push d =>
    rw [Block.producerEdge_crossing, Crossing.producerEdge_legal]
    unfold Block.push; split <;> rfl
  | cNop => exact Crossing.consumerEdge_legal _ _ _
  | pop hp =>
    rcases Block.pop_next hp with ⟨_, rfl, _⟩ | ⟨_, _, _, rfl, _⟩ <;> exact Crossing.consumerEdge_legal _ _ _
  | drain => exact Crossing.consumerEdge_legal _ _ _
  | count => exact Crossing.consumerEdge_legal _ _ _
  | init => exact Crossing.zeroed_legal _ _
  | syncH k hk => obtain ⟨h, t, hc, _, _, rfl, _⟩ := Block.syncH_next hk; simp [hc, Crossing.legal]
  | syncT k hk => obtain ⟨h, t, hc, _, _, rfl, _⟩ := Block.syncT_next hk; simp [hc, Crossing.legal]

/-- INIT is never undone. -/
theorem blockStep_initDone {b b' : Block N} {o : Outputs} (h : BlockStep b o b') (hi : b.initDone = true) :
    b'.initDone = true := by
  cases h with
  | pNop => exact hi
  | push d => unfold Block.push; split <;> exact hi
  | cNop => exact hi
  | pop hp => rcases Block.pop_next hp with ⟨_, rfl, _⟩ | ⟨_, _, _, rfl, _⟩ <;> exact hi
  | drain => exact hi
  | count => exact hi
  | init => rfl
  | syncH k hk => obtain ⟨_, _, _, _, _, rfl, _⟩ := Block.syncH_next hk; exact hi
  | syncT k hk => obtain ⟨_, _, _, _, _, rfl, _⟩ := Block.syncT_next hk; exact hi

/-! ### What a step stored and what it returned. -/

theorem pushedBy_same {ch : Channel} {t : State} (h : t.sel = ch) : pushedBy ch t = (t.out.wr.map Prod.snd).toList :=
  if_pos h
theorem poppedBy_same {ch : Channel} {t : State} (h : t.sel = ch) : poppedBy ch t = t.out.cData.toList := if_pos h
theorem pushedBy_other {ch : Channel} {t : State} (h : t.sel ≠ ch) : pushedBy ch t = [] := if_neg h
theorem poppedBy_other {ch : Channel} {t : State} (h : t.sel ≠ ch) : poppedBy ch t = [] := if_neg h
theorem pushedBy_none {ch : Channel} {t : State} (h : t.out.wr = none) : pushedBy ch t = [] := by
  unfold pushedBy; rw [h]; split <;> rfl
theorem poppedBy_none {ch : Channel} {t : State} (h : t.out.cData = none) : poppedBy ch t = [] := by
  unfold poppedBy; rw [h]; split <;> rfl

end Sys2Proof.Machine
end

