-- ==== Sys2Proof/Laws/Exec.lean ====
section
/-! SUPPORT. One equation per command and outcome: what `exec` answers where the copy is ready. -/

namespace Sys2Proof.Machine

variable {s : State}

theorem exec_pNop (hr : s.fifo.ready = true) : exec .pNop s = .next (s.after s.fifo.blk.producerEdge {}) :=
  producerStep_eq hr (fun _ b => .next (b, {})) rfl

theorem exec_push_stored (d : Byte) (hr : s.fifo.ready = true) (hf : s.fifo.blk.full = false) :
    exec (.push d) s =
      .next (s.after (s.fifo.blk.pushed d).producerEdge (Outputs.stored (inc s.fifo.blk.head).toNat d)) :=
  producerStep_eq hr (fun _ b => .next (b.push d)) (congrArg _ (Block.push_ok d hf))

theorem exec_push_full (d : Byte) (hr : s.fifo.ready = true) (hf : s.fifo.blk.full = true) :
    exec (.push d) s = .next (s.after s.fifo.blk.producerEdge Outputs.refusedFull) :=
  producerStep_eq hr (fun _ b => .next (b.push d)) (congrArg _ (Block.push_full d hf))

theorem exec_cNop (hr : s.fifo.ready = true) : exec .cNop s = .next (s.after s.fifo.blk.consumerEdge {}) :=
  consumerStep_eq hr (fun _ b => .next (b, {})) rfl

theorem exec_pop_byte {v : Byte} (hr : s.fifo.ready = true) (he : s.fifo.blk.empty = false)
    (hv : s.fifo.blk.storage.read (inc s.fifo.blk.tail).toNat = some v) :
    exec .pop s =
      .next (s.after { s.fifo.blk with tail := inc s.fifo.blk.tail : Block s.fifo.N }.consumerEdge
        (Outputs.popped (inc s.fifo.blk.tail).toNat v)) :=
  consumerStep_eq hr (fun _ b => b.pop) (Block.pop_byte he hv)

theorem exec_pop_empty (hr : s.fifo.ready = true) (he : s.fifo.blk.empty = true) :
    exec .pop s = .next (s.after s.fifo.blk.consumerEdge Outputs.noData) :=
  consumerStep_eq hr (fun _ b => b.pop) (Block.pop_empty he)

theorem exec_drain (hr : s.fifo.ready = true) : exec .drain s = .next (s.after s.fifo.blk.drain.consumerEdge {}) :=
  consumerStep_eq hr (fun _ b => .next (b.drain, {})) rfl

theorem exec_count (hr : s.fifo.ready = true) :
    exec .count s = .next (s.after s.fifo.blk.consumerEdge (Outputs.counted s.fifo.blk.available.toNat)) :=
  consumerStep_eq hr (fun _ b => .next (b, Outputs.counted b.available.toNat)) rfl

theorem exec_init (hl : s.fifo.legal = true) (hq : s.quiescent = true) :
    exec .init s = .next (s.after s.fifo.blk.init {}) := by
  simp [exec, execInit, hl, hq, State.after]

/-! ### Inversions: what a command did, where it answers a next state. -/

/-- A command but INIT answers only where the copy is ready. -/
theorem exec_ready {i : Instr} {t : State} (hi : i ≠ .init) (h : exec i s = .next t) : s.fifo.ready = true := by
  cases i with
  | pNop => simp only [exec, execPNop, State.producerStep] at h; exact (command_next h).1
  | push d => simp only [exec, execPush, State.producerStep] at h; exact (command_next h).1
  | cNop => simp only [exec, execCNop, State.consumerStep] at h; exact (command_next h).1
  | pop => simp only [exec, execPop, State.consumerStep] at h; exact (command_next h).1
  | drain => simp only [exec, execDrain, State.consumerStep] at h; exact (command_next h).1
  | count => simp only [exec, execCount, State.consumerStep] at h; exact (command_next h).1
  | init => exact absurd rfl hi

/-- A producer command left the block alone or stored one byte; its edge follows. -/
theorem exec_producer {i : Instr} {t : State} (hp : i.port = .pcmd) (h : exec i s = .next t) :
    s.fifo.ready = true ∧ ∃ (b : Block s.fifo.N) (o : Outputs), t = s.after b.producerEdge o ∧
      ((b = s.fifo.blk ∧ ((i = .pNop ∧ o = {}) ∨ ∃ d, i = .push d ∧ s.fifo.blk.full = true ∧ o = Outputs.refusedFull)) ∨
        ∃ d, i = .push d ∧ s.fifo.blk.full = false ∧ b = s.fifo.blk.pushed d ∧
          o = Outputs.stored (inc s.fifo.blk.head).toNat d) := by
  cases i with
  | pNop =>
    have hr := exec_ready (by simp) h
    rw [exec_pNop hr] at h; cases h
    exact ⟨hr, _, _, rfl, .inl ⟨rfl, .inl ⟨rfl, rfl⟩⟩⟩
  | push d =>
    have hr := exec_ready (by simp) h
    cases hf : s.fifo.blk.full with
    | true => rw [exec_push_full d hr hf] at h; cases h; exact ⟨hr, _, _, rfl, .inl ⟨rfl, .inr ⟨d, rfl, rfl, rfl⟩⟩⟩
    | false => rw [exec_push_stored d hr hf] at h; cases h; exact ⟨hr, _, _, rfl, .inr ⟨d, rfl, rfl, rfl, rfl⟩⟩
  | cNop => cases hp
  | pop => cases hp
  | drain => cases hp
  | count => cases hp
  | init => cases hp

/-- A consumer command moved `tail` forward, not past the view, or left it; its edge follows. -/
theorem exec_consumer {i : Instr} {t : State} (hp : i.port = .ccmd) (h : exec i s = .next t) :
    s.fifo.ready = true ∧ ∃ (j : Nat) (o : Outputs), t = s.after (s.fifo.blk.freed j).consumerEdge o ∧
      j ≤ (dist s.fifo.blk.tail s.fifo.blk.headSeen).toNat ∧ o.wr = none ∧
      ((i = .pop ∧ ∃ v, j = 1 ∧ s.fifo.blk.empty = false ∧
          s.fifo.blk.storage.read (inc s.fifo.blk.tail).toNat = some v ∧
          o = Outputs.popped (inc s.fifo.blk.tail).toNat v) ∨
        (o.cData = none ∧ (i = .drain ∨ j = 0))) := by
  have still : s.fifo.blk = s.fifo.blk.freed 0 := (freed_zero _).symm
  cases i with
  | pNop => cases hp
  | push d => cases hp
  | cNop =>
    have hr := exec_ready (by simp) h
    rw [exec_cNop hr, still] at h; cases h
    exact ⟨hr, 0, _, rfl, Nat.zero_le _, rfl, .inr ⟨rfl, .inr rfl⟩⟩
  | pop =>
    simp only [exec, execPop, State.consumerStep] at h
    obtain ⟨hr, b, o, hb, rfl⟩ := command_next h
    rcases Block.pop_next hb with ⟨_, rfl, rfl⟩ | ⟨v, he, hv, rfl, rfl⟩
    · exact ⟨hr, 0, _, by rw [← still], Nat.zero_le _, rfl, .inr ⟨rfl, .inr rfl⟩⟩
    · refine ⟨hr, 1, _, by rw [inc_eq_advance], dist_toNat_pos fun h => ?_, rfl, .inl ⟨rfl, v, rfl, he, hv, rfl⟩⟩
      simp [(Block.empty_iff s.fifo.blk).mpr h.symm] at he
  | drain =>
    have hr := exec_ready (by simp) h
    rw [exec_drain hr, drain_eq_freed] at h; cases h
    exact ⟨hr, _, _, rfl, Nat.le_refl _, rfl, .inr ⟨rfl, .inl rfl⟩⟩
  | count =>
    have hr := exec_ready (by simp) h
    rw [exec_count hr] at h; cases h
    exact ⟨hr, 0, _, by rw [← still], Nat.zero_le _, rfl, .inr ⟨rfl, .inr rfl⟩⟩
  | init => cases hp

end Sys2Proof.Machine
end

