-- ==== Sys2Proof/Laws/PerInstr.lean ====
section
/-! SUPPORT. A statement made per instruction: the word of a command fits the input it is presented on (R81 to R83, R85). -/

namespace Sys2Proof.Laws.Fits

/-- The word of the command is a word of its input. -/
def Statement (i : Instr) : Prop := i.port.fits (encode i) = true

theorem pNop : Statement .pNop := rfl

/-- `0x100 | b` has nine bits, whatever the byte. -/
theorem push (data : Byte) : Statement (.push data) := by
  have h : 0x100 ||| data.toNat < 2 ^ 9 := Nat.or_lt_two_pow (by decide) (Nat.lt_trans data.isLt (by decide))
  exact decide_eq_true h

theorem cNop : Statement .cNop := rfl
theorem pop : Statement .pop := rfl
theorem drain : Statement .drain := rfl
theorem count : Statement .count := rfl
theorem init : Statement .init := rfl

end Sys2Proof.Laws.Fits
end

