-- ==== Sys2Proof/Laws/Steps.lean ====
section
/-! SUPPORT. Laws of a whole step: what it keeps of the invariant, of INIT's having been taken, of a byte that can be
seen, and what it does to the queue a block holds. -/

namespace Sys2Proof.Machine

variable {N : Nat}

/-! ### What a step keeps of one copy. -/

/-- A step of a copy leaves it legal and sound, if its invariant held. -/
theorem moved_inv {s t : State} {ch : Channel} (h : Moved s t ch) (hi : (s.fifoOf ch).blk.inv = true) :
    (t.fifoOf ch).legal = true ∧ (t.fifoOf ch).blk.inv = true := by
  obtain ⟨b', e, hb, hi'⟩ := h.blk
  have hl := h.legal
  have key : Sound b' := by
    rcases hi' with hd | rfl
    · exact blockStep_sound (Fifo.legal_pos hl) (Fifo.legal_crossing hl) (sound_of_inv hi hd) hb
    · obtain ⟨h1, h2, _⟩ := (Block.inv_iff _).mp hi
      exact init_sound h1 h2
  rw [e]
  refine ⟨?_, key.inv⟩
  simp only [Fifo.legal, Bool.and_eq_true] at hl ⊢
  exact ⟨hl.1, (blockStep_legal _ hb).trans hl.2⟩

/-- So does a step of the machine, for both copies. -/
theorem touched_inv {s t : State} (h : Touched s t) (ch : Channel)
    (hl : (s.fifoOf ch).legal = true) (hi : (s.fifoOf ch).blk.inv = true) :
    (t.fifoOf ch).legal = true ∧ (t.fifoOf ch).blk.inv = true := by
  rcases h with h | ⟨c, h⟩
  · cases ch
    · simp only [State.fifoOf_rx] at *; rw [h.rx]; exact ⟨hl, hi⟩
    · simp only [State.fifoOf_tx] at *; rw [h.tx]; exact ⟨hl, hi⟩
  · by_cases e : ch = c
    · subst e; exact moved_inv h hi
    · rw [h.other ch e]; exact ⟨hl, hi⟩

theorem caughtUp_inv {q : Fifo} (hl : q.legal = true) (hi : q.blk.inv = true) :
    q.caughtUp.legal = true ∧ q.caughtUp.blk.inv = true := by
  constructor
  · simp only [Fifo.legal, Fifo.caughtUp, Bool.and_eq_true, Block.caughtUp] at hl ⊢
    exact ⟨hl.1, (Crossing.caughtUp_legal _ _ _ _).trans hl.2⟩
  · cases hd : q.blk.initDone with
    | true => exact (caughtUp_sound (sound_of_inv hi hd)).inv
    | false =>
      rw [Block.inv_iff] at hi ⊢
      exact ⟨hi.1, hi.2.1, fun h => by simp [Fifo.caughtUp, hd] at h⟩

/-- So does letting the views settle. -/
theorem settle_inv {t : State} (ch : Channel) (hl : (t.fifoOf ch).legal = true) (hi : (t.fifoOf ch).blk.inv = true) :
    ((settle t).fifoOf ch).legal = true ∧ ((settle t).fifoOf ch).blk.inv = true := by
  rw [settle_fifoOf]
  cases t.platform
  · exact caughtUp_inv hl hi
  · exact ⟨hl, hi⟩

/-- INIT is never undone. -/
theorem touched_initDone {s t : State} (h : Touched s t) (ch : Channel) (hi : (s.fifoOf ch).blk.initDone = true) :
    (t.fifoOf ch).blk.initDone = true := by
  rcases h with h | ⟨c, h⟩
  · cases ch
    · simp only [State.fifoOf_rx] at *; rw [h.rx]; exact hi
    · simp only [State.fifoOf_tx] at *; rw [h.tx]; exact hi
  · by_cases e : ch = c
    · subst e; obtain ⟨b', e, hb, hi'⟩ := h.blk
      rw [e]; exact blockStep_initDone hb hi
    · rw [h.other ch e]; exact hi

theorem settle_initDone (t : State) (ch : Channel) : ((settle t).fifoOf ch).blk.initDone = (t.fifoOf ch).blk.initDone := by
  obtain ⟨c, h⟩ := settled_moves_views t.platform (t.fifoOf ch)
  rw [settle_fifoOf, h]

/-- The machine's invariant, for one copy. -/
theorem inv_fifo {s : State} (h : s.inv = true) (ch : Channel) :
    (s.fifoOf ch).legal = true ∧ (s.fifoOf ch).blk.inv = true := by
  simp only [State.inv, Bool.and_eq_true] at h
  obtain ⟨⟨⟨⟨hrl, htl⟩, hri⟩, hti⟩, hp⟩ := h
  cases ch <;> exact ⟨by assumption, by assumption⟩

/-! ### What the consumer can see. -/

theorem dist_ne {N} {a b : BitVec N} : a ≠ b ↔ 0 < (dist a b).toNat := by
  constructor
  · exact dist_toNat_pos
  · intro h e; subst e; simp at h

/-- A byte can be seen when the view is ahead of `tail`. -/
theorem nonempty_iff {N} {b : Block N} : b.empty = false ↔ 0 < (dist b.tail b.headSeen).toNat := by
  rw [← dist_ne, ne_eq, eq_comm (a := b.tail), ← Block.empty_iff]; simp

/-- A consumer edge shows no less than before (R124). -/
theorem consumerEdge_view {N} {b : Block N} {S : Nat} (hl : b.crossing.legal S = true) (hs : Sound b) :
    (dist b.tail b.headSeen).toNat ≤ (dist b.tail b.consumerEdge.headSeen).toNat := by
  have h1 := Block.occupancy_eq hl hs.walk
  cases hc : b.crossing with
  | architectural => exact Nat.le_of_eq (by rw [Block.consumerEdge_architectural (by simp [Block.isArchitectural, hc])])
  | clocked hg tg hs' ts =>
    have hl1 := hl
    rw [hc] at hl1
    have hlen : 2 ≤ hs'.length := by
      simp [Crossing.legal, Config.legalS] at hl1; omega
    have e2 : b.consumerEdge.headSeen = ungray (hs'.dropLast.getLastD 0) := by
      simp only [Block.headSeen, Block.consumerEdge_crossing, hc, Crossing.consumerEdge, Crossing.headSeen]
      rw [shiftIn_getLastD _ _ _ hlen]
    have e1 : b.headSeen = ungray (hs'.getLastD 0) := by simp [Block.headSeen, hc, Crossing.headSeen]
    obtain ⟨r, hr'⟩ : ∃ r, hs'.reverse.map ungray =
        ungray (hs'.getLastD 0) :: ungray (hs'.dropLast.getLastD 0) :: r := by
        rcases List.eq_nil_or_concat hs' with rfl | ⟨l, x, rfl⟩
        · simp at hlen
        · rcases List.eq_nil_or_concat l with rfl | ⟨l, y, rfl⟩
          · simp at hlen
          · exact ⟨l.reverse.map ungray, by simp [List.getLastD_eq_getLast?]⟩
    have hw := hs.walk
    rw [Block.positions_eq, hc] at hw
    simp only [Crossing.ahead, hr'] at hw
    have := walkLength_append (Crossing.behind (.clocked hg tg hs' ts)) b.tail
      (ungray (hs'.getLastD 0) :: ungray (hs'.dropLast.getLastD 0) :: r ++ [b.head])
    rw [this] at hw
    simp only [List.cons_append, walkLength] at hw
    rw [e1, e2, dist_trans b.tail (ungray (hs'.getLastD 0)) (ungray (hs'.dropLast.getLastD 0)) (by omega)]
    omega

theorem caughtUp_nonempty {b : Block N} {S : Nat} (hl : b.crossing.legal S = true) (hs : Sound b) (he : b.empty = false) :
    b.caughtUp.empty = false := by
  cases hc : b.crossing with
  | clocked =>
    have : b.caughtUp = b := by cases b; simp only at hc; subst hc; rfl
    rwa [this]
  | architectural h t =>
    rw [nonempty_iff] at he ⊢
    have := Block.occupancy_eq hl hs.walk
    have e : b.caughtUp.headSeen = b.head := by
      simp [Block.headSeen, Block.caughtUp, hc, Crossing.caughtUp, Crossing.headSeen]
    rw [e]
    show 0 < b.occupancy
    omega

/-- What can be seen can be popped. -/
theorem nonempty_popped {b : Block N} {S : Nat} (hl : b.crossing.legal S = true) (hs : Sound b) (he : b.empty = false) :
    ∃ v, b.storage.read (inc b.tail).toNat = some v := by
  have := Block.occupancy_eq hl hs.walk
  have he' := nonempty_iff.mp he
  have h := hs.written 0 (by omega)
  have e : b.slot 0 = inc b.tail := by unfold Block.slot; rw [inc_eq_advance]
  rw [e] at h
  exact Option.isSome_iff_exists.mp h

/-! ### Commands on one copy. -/

/-- A command leaves the other copy as it is. -/
theorem exec_on_other {i : Instr} {s t : State} {ch c : Channel} (hc : c ≠ ch)
     (h : exec i (s.on ch) = .next t) : t.fifoOf c = s.fifoOf c := by
  have := (moved_of_exec h).other c hc
  simpa using this

/-- Only POP, DRAIN and INIT can hide the last byte seen. -/
theorem exec_nonempty {i : Instr} {s t : State} (hi : i ≠ .pop ∧ i ≠ .drain ∧ i ≠ .init) (hs : Sound s.fifo.blk)
    (he : s.fifo.blk.empty = false) (h : exec i s = .next t) : t.fifo.blk.empty = false := by
  have hr := exec_ready hi.2.2 h
  have hl := Fifo.legal_crossing (Fifo.ready_legal hr)
  cases hp : i.port with
  | pcmd =>
    obtain ⟨_, b, o, rfl, hb⟩ := exec_producer hp h
    rw [State.after_fifo]
    rcases hb with ⟨rfl, _⟩ | ⟨d, _, _, rfl, _⟩
    · show (_ : Block _).empty = _
      rw [nonempty_iff] at he ⊢; simpa using he
    · show (_ : Block _).empty = _
      rw [nonempty_iff] at he ⊢; rw [Block.producerEdge_headSeen]; exact he
  | ccmd =>
    obtain ⟨_, j, o, rfl, hj, _, hb⟩ := exec_consumer hp h
    rw [State.after_fifo]
    rcases hb with ⟨rfl, _⟩ | ⟨_, rfl | rfl⟩
    · simp at hi
    · simp at hi
    · show (_ : Block _).empty = _
      rw [freed_zero]
      rw [nonempty_iff] at he ⊢; exact Nat.lt_of_lt_of_le he (consumerEdge_view hl hs)
  | init => cases i <;> simp [Instr.port] at hp hi

theorem exec_on_nonempty {i : Instr} {s t : State} (hi : i ≠ .pop ∧ i ≠ .drain ∧ i ≠ .init) {ch : Channel}
    (hs : Sound (s.fifoOf ch).blk)
    (he : (s.fifoOf ch).blk.empty = false) (h : exec i (s.on ch) = .next t) : (t.fifoOf ch).blk.empty = false := by
  have hsel : t.sel = ch := (moved_of_exec h).sel
  have := exec_nonempty hi (by rw [State.on_fifo]; exact hs) (by rw [State.on_fifo]; exact he) h
  unfold State.fifo at this
  rw [hsel] at this
  exact this

theorem continueWith_fault {o : Host.Outcome State Fault Refusal} {f} {r : Fault} :
    continueWith o f = .fault r ↔ o = .fault r ∨ ∃ u, o = .next u ∧ f u = .fault r := by
  cases o <;> simp [continueWith]

/-- No command faults on a block whose invariant holds. -/
theorem exec_no_fault {i : Instr} {s : State} {r : Fault} (hi : s.fifo.blk.inv = true) : exec i s ≠ .fault r := by
  by_cases hI : i = .init
  · subst hI; unfold exec execInit; dsimp only; split
    · split <;> simp
    · simp
  by_cases hr : s.fifo.ready = true
  · have hs := sound_of_inv hi (Fifo.ready_initDone hr)
    cases i with
    | pNop => rw [exec_pNop hr]; simp
    | push d => cases hf : s.fifo.blk.full with
      | true => rw [exec_push_full d hr hf]; simp
      | false => rw [exec_push_stored d hr hf]; simp
    | cNop => rw [exec_cNop hr]; simp
    | pop => cases he : s.fifo.blk.empty with
      | true => rw [exec_pop_empty hr he]; simp
      | false =>
        obtain ⟨v, hv⟩ := nonempty_popped (Fifo.legal_crossing (Fifo.ready_legal hr)) hs he
        rw [exec_pop_byte hr he hv]; simp
    | drain => rw [exec_drain hr]; simp
    | count => rw [exec_count hr]; simp
    | init => exact absurd rfl hI
  · have : s.fifo.legal = false ∨ (s.fifo.legal = true ∧ s.fifo.blk.initDone = false) := by
      simp only [Fifo.ready, Bool.and_eq_true, not_and] at hr
      cases h : s.fifo.legal <;> simp [h] at hr ⊢; exact hr
    rcases this with h | ⟨h1, h2⟩
    · cases i <;> simp [exec, execPNop, execPush, execCNop, execPop, execDrain, execCount, execInit,
        State.producerStep, State.consumerStep, State.command, Fifo.whenReady, h]
    · cases i <;> simp [exec, execPNop, execPush, execCNop, execPop, execDrain, execCount,
        State.producerStep, State.consumerStep, State.command, Fifo.whenReady, h1, h2] at hI ⊢

theorem exec_on_no_fault {i : Instr} {s : State} {r : Fault} {ch : Channel}
    (hi : (s.fifoOf ch).blk.inv = true) : exec i (s.on ch) ≠ .fault r :=
  exec_no_fault (by rw [State.on_fifo]; exact hi)

/-! ### The queue. -/

/-- A step of a block adds the stored byte at the end of its queue and takes bytes off the front; the
byte returned is one of them. -/
theorem step_contents {b b' : Block N} {o : Outputs} {S : Nat} (hN : 0 < N) (hl : b.crossing.legal S = true) (hs : Sound b)
    (h : BlockStep b o b') :
    ∃ taken, b.contents ++ (o.wr.map Prod.snd).toList = taken ++ b'.contents ∧ List.Sublist o.cData.toList taken := by
  have hoc := Block.occupancy_eq hl hs.walk
  cases h with
  | pNop => exact ⟨[], by simp, by simp⟩
  | push d =>
    by_cases hf : b.full = true
    · rw [Block.push_full d hf]
      exact ⟨[], by simp [Outputs.refusedFull], by simp [Outputs.refusedFull]⟩
    · have hf : b.full = false := by simpa using hf
      rw [Block.push_ok d hf]
      have hw := walk_of_not_full hl hN hs.walk hf
      have ho := occupancy_le_walk hl hs.walk
      refine ⟨[], ?_, by simp [Outputs.stored]⟩
      have := pushed_contents (b := b) d (by omega)
      simp [Outputs.stored, this]
  | cNop => exact ⟨[], by simp, by simp⟩
  | count => exact ⟨[], by simp [Outputs.counted], by simp [Outputs.counted]⟩
  | pop hp =>
    rcases Block.pop_next hp with ⟨_, rfl, rfl⟩ | ⟨v, he', hv, rfl, rfl⟩
    · exact ⟨[], by simp [Outputs.noData], by simp [Outputs.noData]⟩
    · rw [nonempty_iff] at he'
      refine ⟨[v], ?_, by simp [Outputs.popped]⟩
      have := freed_contents b (j := 1) (by omega)
      rw [front_one b hv] at this
      rw [inc_eq_advance]
      simpa [Outputs.popped] using this
  | drain =>
    refine ⟨b.front (dist b.tail b.headSeen).toNat, ?_, by simp⟩
    have := freed_contents b (j := (dist b.tail b.headSeen).toNat) (by omega)
    rw [drain_eq_freed]
    simpa using this
  | init => exact ⟨b.contents, by simp, by simp⟩
  | syncH k hk =>
    obtain ⟨h, t, hc, h1, h2, rfl, rfl⟩ := Block.syncH_next hk
    exact ⟨[], by simp, by simp⟩
  | syncT k hk =>
    obtain ⟨h, t, hc, h1, h2, rfl, rfl⟩ := Block.syncT_next hk
    exact ⟨[], by simp, by simp⟩

theorem settle_contents (t : State) (ch : Channel) : ((settle t).fifoOf ch).blk.contents = (t.fifoOf ch).blk.contents := by
  obtain ⟨c, h⟩ := settled_moves_views t.platform (t.fifoOf ch)
  rw [settle_fifoOf, h]; rfl

/-- The same for a step of the machine and one copy. -/
theorem touched_contents {s t : State} (h : Touched s t) (ch : Channel) (hinv : s.inv = true)
    (hd : (s.fifoOf ch).blk.initDone = true)     (ho : s.out = {}) :
    ∃ taken, (s.fifoOf ch).blk.contents ++ pushedBy ch t = taken ++ (t.fifoOf ch).blk.contents ∧
      List.Sublist (poppedBy ch t) taken := by
  obtain ⟨hl, hi⟩ := inv_fifo hinv ch
  rcases h with h | ⟨c, h⟩
  · have e : t.fifoOf ch = s.fifoOf ch := by
      cases ch
      · exact h.rx
      · exact h.tx
    exact ⟨[], by rw [pushedBy_none (by rw [h.out, ho]), e]; simp,
      (poppedBy_none (by rw [h.out, ho])).symm ▸ List.nil_sublist _⟩
  · by_cases e : ch = c
    · subst e; obtain ⟨b', e, hb, hi'⟩ := h.blk
      obtain ⟨tk, h1, h2⟩ := step_contents (Fifo.legal_pos hl) (Fifo.legal_crossing hl) (sound_of_inv hi hd) hb
      exact ⟨tk, by rw [e]; simpa [pushedBy, h.sel] using h1, by simpa [poppedBy, h.sel] using h2⟩
    · have e2 := h.other ch e
      exact ⟨[], by rw [pushedBy_other (by rw [h.sel]; exact Ne.symm e), e2]; simp,
        (poppedBy_other (by rw [h.sel]; exact Ne.symm e)).symm ▸ List.nil_sublist _⟩

/-! ### The architectural image (R149). -/

/-- The image of the state a command leaves. -/
theorem image_after (s : State) (b : Block s.fifo.N) (o : Outputs) :
    (s.after b o).image = (s.image.setFifo { N := s.fifo.N, S := s.fifo.S, blk := b.image }).setOut o := by
  cases s with | mk rx tx sel out cl pf dr inp =>
  cases sel <;> rfl

theorem image_fifo (s : State) : s.image.fifo = s.fifo.image := by
  cases s with | mk rx tx sel out cl pf dr inp =>
  cases sel <;> rfl

theorem image_ready {q : Fifo} (h : q.ready = true) : q.image.ready = true := by
  simp [Fifo.ready, Fifo.legal, Fifo.image] at *
  exact ⟨⟨h.1.1, rfl⟩, h.2⟩

end Sys2Proof.Machine
end

