-- ==== Sys2Proof/Tests/Slice0.lean ====
section
/-! SUPPORT. Tests. Every expected result is taken from spec/95_test_vectors.md or worked out by hand from the rule named;
the last part shows, for every statement with hypotheses, a concrete state and operands that meet all of them. -/

namespace Sys2Proof.Tests

open Sys2Proof.Machine

/-! ### Small states. -/

/-- An architectural copy `(head, tail, head_seen, tail_seen)`, written as spec/95 section 0 writes it. -/
def fifo (N head tail headSeen tailSeen : Nat) (storage : Memory := []) : Fifo :=
  { N := N, S := 2, blk :=
    { storage := storage, head := .ofNat N head, tail := .ofNat N tail,
      crossing := .architectural (.ofNat N headSeen) (.ofNat N tailSeen), initDone := true } }

/-- A clocked copy, its chains `[stage 0, stage 1]` as in section 4. -/
def clocked (N head headGray : Nat) (headSync : List Nat) (tail tailGray : Nat) (tailSync : List Nat)
    (storage : Memory := []) : Fifo :=
  { N := N, S := 2, blk :=
    { storage := storage, head := .ofNat N head, tail := .ofNat N tail,
      crossing := .clocked (.ofNat N headGray) (.ofNat N tailGray) (headSync.map (.ofNat N)) (tailSync.map (.ofNat N)),
      initDone := true } }

/-- The clients of a driver that has been initialised. -/
def initialised : Clients :=
  { lastRxError := .noError, txIrqEnable := false, mainline := .idle, receiveHandler := .idle,
    transmitHandler := .idle, returned := none, started := true,
    serial := { baudConfig := 0, receiverOn := true, transmitterOn := true, receiveInterruptOn := true,
                globalInterruptsOn := true, sent := [] } }

/-- A copy on the receive side, driven from outside. -/
def bench (q : Fifo) (inputs : List Input := []) : State :=
  { rx := q, tx := fifo 3 0 0 0 0, sel := .rx, out := {}, clients := initialised, platform := .twoDomains,
    driver := .ports, inputs := inputs }

/-- The whole system, the clients driving both copies. -/
def system (p : Platform) (rx tx : Fifo) (c : Clients := initialised) : State :=
  { rx := rx, tx := tx, sel := .rx, out := {}, clients := c, platform := p, driver := .clients, inputs := [] }

/-- What a step leaves on one copy: its results, the four pointers, `full` and `empty`. -/
def seen (ch : Channel) (o : Host.Outcome State Fault Refusal) : Option (Outputs × List Nat × Bool × Bool) :=
  match o with
  | .next t =>
    let b := (t.fifoOf ch).blk
    some (t.out, [b.head.toNat, b.tail.toNat, b.headSeen.toNat, b.tailSeen.toNat], b.full, b.empty)
  | .fault _ => none
  | .refused _ => none

/-- The gray registers and chains a step leaves on the receive copy. -/
def chains (o : Host.Outcome State Fault Refusal) : Option (List Nat × List Nat × List Nat) :=
  match o with
  | .next t =>
    match t.rx.blk.crossing with
    | .clocked hg tg hs ts => some ([hg.toNat, tg.toNat], hs.map (·.toNat), ts.map (·.toNat))
    | .architectural _ _ => none
  | .fault _ => none
  | .refused _ => none

def storageOf (o : Host.Outcome State Fault Refusal) : Option Memory :=
  match o with
  | .next t => some t.rx.blk.storage
  | .fault _ => none
  | .refused _ => none

/-- One step with a word on one input of the receive copy. -/
def present (q : Fifo) (p : Port) (w : Nat) : Host.Outcome State Fault Refusal :=
  step (bench q [.ports .rx (Ports.present p w).1 (Ports.present p w).2])

def run (q : Fifo) (p : Port) (w : Nat) : Option (Outputs × List Nat × Bool × Bool) := seen .rx (present q p w)

def refusalOf (o : Host.Outcome State Fault Refusal) : Option Refusal :=
  match o with
  | .next _ => none
  | .fault _ => none
  | .refused r => some r

def faultOf (o : Host.Outcome State Fault Refusal) : Option Fault :=
  match o with
  | .next _ => none
  | .fault r => some r
  | .refused _ => none

/-! ### Well-formedness: each check refuses an ill-formed term. -/

theorem test_pcmd_too_wide_refused : Port.fits .pcmd 512 = false ∧ Port.fits .pcmd 511 = true := by decide
theorem test_ccmd_too_wide_refused : Port.fits .ccmd 4 = false ∧ Port.fits .ccmd 3 = true := by decide
theorem test_init_too_wide_refused : Port.fits .init 2 = false ∧ Port.fits .init 1 = true := by decide
theorem test_illegal_sizes_refused :
    Config.wellFormed 0 2 = false ∧ Config.wellFormed 9 2 = false ∧ Config.wellFormed 3 1 = false ∧
    Config.wellFormed 1 2 = true ∧ Config.wellFormed 8 2 = true := by decide
theorem test_illegal_sizes_have_no_step :
    [refusalOf (present (fifo 0 0 0 0 0) .pcmd 0x000), refusalOf (present (fifo 9 0 0 0 0) .ccmd 0b01),
      refusalOf (present { clocked 3 0 0 [0] 0 0 [0] with S := 1 } .init 1)] =
      [some .illegalParameters, some .illegalParameters, some .illegalParameters] := by decide

/-! ### Decoding (section 2.1), the words written out bit by bit from R81 to R83. -/

theorem test_decode_p_nop :
    decode .pcmd 0b0_0000_0000 = .command .pNop ∧ decode .pcmd 0b0_1111_1111 = .command .pNop := by decide
theorem test_decode_push :
    decode .pcmd 0b1_0000_0000 = .command (.push 0x00) ∧ decode .pcmd 0b1_0100_0001 = .command (.push 0x41) ∧
    decode .pcmd 0b1_1111_1111 = .command (.push 0xFF) := by decide
theorem test_decode_consumer :
    decode .ccmd 0b00 = .command .cNop ∧ decode .ccmd 0b01 = .command .pop ∧ decode .ccmd 0b10 = .command .drain ∧
    decode .ccmd 0b11 = .command .count := by decide
theorem test_decode_init : decode .init 1 = .command .init ∧ decode .init 0 = .rejected .noOperation := by decide
theorem test_decode_too_wide :
    decode .pcmd 0x200 = .rejected .tooWide ∧ decode .ccmd 4 = .rejected .tooWide ∧
    decode .init 2 = .rejected .tooWide := by decide
theorem test_init_wins :
    Ports.command .producer { pcmd := 0x141, ccmd := 0b01, init := 1 } = .init ∧
    Ports.command .consumer { pcmd := 0x141, ccmd := 0b01, init := 1 } = .init := by decide
theorem test_table_words :
    decodeTableWord 9 0x141 = some (.push 0x41) ∧ decodeTableWord 16 0x141 = some (.push 0x41) ∧
    decodeTableWord 16 0 = some .pNop ∧ decodeTableWord 2 0b10 = some .drain ∧ decodeTableWord 8 0b11 = some .count ∧
    decodeTableWord 1 1 = some .init ∧ decodeTableWord 1 0 = none ∧ decodeTableWord 8 4 = none ∧
    decodeTableWord 24 0 = none := by decide

/-- From reset, the word is the very next command, on an empty copy: slot 1 is written first (VP1). -/
theorem test_first_command_after_reset :
    seen .rx (step (State.reset.withFetchWord 9 0x141)) =
      some ({ pOk := some true, wr := some (1, 0x41) }, [1, 0, 0, 0], false, true) ∧
    seen .rx (step (State.reset.withFetchWord 8 0b11)) = some ({ cCount := some 0 }, [0, 0, 0, 0], false, true) := by
  decide

/-! ### The commands (sections 2.2 to 2.5, 2.8). -/

theorem test_p_nop : -- VP13, VP14
    [run (fifo 3 3 1 1 1) .pcmd 0x000,
      run (fifo 3 2 3 3 3) .pcmd 0x0A5] =
      [some ({}, [3, 1, 1, 1], false, true),
        some ({}, [2, 3, 3, 3], true, true)] := by decide

theorem test_push_stores : -- VP2, VP4, VP6, VP7, VP9, VP10, VP12
    [run (fifo 3 7 3 3 3) .pcmd 0x15A,
      run (fifo 3 1 3 3 3) .pcmd 0x1FF,
      run (fifo 3 6 0 0 0) .pcmd 0x101,
      run (fifo 1 0 0 0 0) .pcmd 0x1A1,
      run (fifo 8 255 10 10 10) .pcmd 0x177,
      run (fifo 8 254 0 0 0) .pcmd 0x177,
      run (fifo 3 3 3 3 3) .pcmd 0x15A] =
      [some ({ pOk := some true, wr := some (0, 0x5A) }, [0, 3, 3, 3], false, true),
        some ({ pOk := some true, wr := some (2, 0xFF) }, [2, 3, 3, 3], true, true),
        some ({ pOk := some true, wr := some (7, 0x01) }, [7, 0, 0, 0], true, true),
        some ({ pOk := some true, wr := some (1, 0xA1) }, [1, 0, 0, 0], true, true),
        some ({ pOk := some true, wr := some (0, 0x77) }, [0, 10, 10, 10], false, true),
        some ({ pOk := some true, wr := some (255, 0x77) }, [255, 0, 0, 0], true, true),
        some ({ pOk := some true, wr := some (4, 0x5A) }, [4, 3, 3, 3], false, true)] := by decide

theorem test_push_full : -- VP3, VP5, VP8, VP11
    [run (fifo 3 2 3 3 3) .pcmd 0x15A,
      run (fifo 3 7 0 0 0) .pcmd 0x101,
      run (fifo 1 1 0 0 0) .pcmd 0x1A2,
      run (fifo 3 2 5 5 3) .pcmd 0x15A] =
      [some ({ pOk := some false }, [2, 3, 3, 3], true, true),
        some ({ pOk := some false }, [7, 0, 0, 0], true, true),
        some ({ pOk := some false }, [1, 0, 0, 0], true, true),
        some ({ pOk := some false }, [2, 5, 5, 3], true, true)] := by decide

theorem test_c_nop : run (fifo 3 5 2 5 2) .ccmd 0b00 = some ({}, [5, 2, 5, 2], false, false) := by decide -- VC7

theorem test_pop_byte : -- VC2, VC3, VC5, VC6, VC8
    [run (fifo 3 1 0 1 0 [(1, 0x41)]) .ccmd 0b01,
      run (fifo 3 2 7 2 7 [(0, 0x11)]) .ccmd 0b01,
      run (fifo 1 0 1 0 1 [(0, 0xA2)]) .ccmd 0b01,
      run (fifo 8 0 255 0 255 [(0, 0x77)]) .ccmd 0b01,
      run (fifo 3 5 2 5 2 [(3, 0x00)]) .ccmd 0b01] =
      [some ({ cValid := some true, cData := some 0x41, rd := some 1 }, [1, 1, 1, 0], false, true),
        some ({ cValid := some true, cData := some 0x11, rd := some 0 }, [2, 0, 2, 7], false, false),
        some ({ cValid := some true, cData := some 0xA2, rd := some 0 }, [0, 0, 0, 1], true, true),
        some ({ cValid := some true, cData := some 0x77, rd := some 0 }, [0, 0, 0, 255], false, true),
        some ({ cValid := some true, cData := some 0x00, rd := some 3 }, [5, 3, 5, 2], false, false)] := by decide

theorem test_pop_no_data : -- VC1, VC4; and a slot no PUSH wrote (U8)
    [run (fifo 3 0 0 0 0) .ccmd 0b01,
      run (fifo 3 6 4 4 4) .ccmd 0b01] =
      [some ({ cValid := some false }, [0, 0, 0, 0], false, true),
        some ({ cValid := some false }, [6, 4, 4, 4], false, true)] ∧
    faultOf (present (fifo 3 1 0 1 0) .ccmd 0b01) = some .unwrittenSlot := by decide

/-- Section 2.4: `C` as its width, `head_seen`, `tail`, the count. -/
theorem test_count :
    [(3, 0, 0, 0), (3, 5, 2, 3), (3, 1, 6, 3), (3, 7, 0, 7), (3, 0, 1, 7), (3, 6, 7, 7), (3, 3, 3, 0), (1, 0, 1, 1),
      (1, 1, 1, 0), (4, 2, 13, 5), (8, 0, 255, 1), (8, 254, 255, 255)].all (fun (N, hs, t, n) =>
        (run (fifo N hs t hs t) .ccmd 0b11).map (fun r => r.1) == some (Outputs.counted n)) = true := by decide

theorem test_drain : -- VD1, VD4, VD5, VD6
    [run (fifo 3 2 6 1 6) .ccmd 0b10,
      run (fifo 3 4 2 2 2) .ccmd 0b10,
      run (fifo 1 1 0 1 0) .ccmd 0b10,
      run (fifo 3 0 1 0 1) .ccmd 0b10] =
      [some ({}, [2, 1, 1, 6], false, true),
        some ({}, [4, 2, 2, 2], false, true),
        some ({}, [1, 1, 1, 0], true, true),
        some ({}, [0, 0, 0, 1], true, true)] := by decide

theorem test_init_architectural : -- section 2.8, S9: storage stays
    run (fifo 3 5 2 4 1 [(0, 0x21), (3, 0x12)]) .init 1 = some ({}, [0, 0, 0, 0], false, true) ∧
    storageOf (present (fifo 3 5 2 4 1 [(0, 0x21), (3, 0x12)]) .init 1) = some [(0, 0x21), (3, 0x12)] := by decide

theorem test_init_clocked : -- section 2.8
    chains (present (clocked 3 5 0b111 [0b111, 0b010] 2 0b011 [0b011, 0b001]) .init 1) =
      some ([0, 0], [0, 0], [0, 0]) := by decide

theorem test_before_first_init : -- R231: INIT alone has a step
    refusalOf (present { fifo 3 0 0 0 0 with blk := { (fifo 3 0 0 0 0).blk with initDone := false } } .pcmd 0x141) =
      some .beforeInit ∧
    run { fifo 3 0 0 0 0 with blk := { (fifo 3 0 0 0 0).blk with initDone := false } } .init 1 =
      some ({}, [0, 0, 0, 0], false, true) := by decide

/-! ### The crossing (sections 2.6, 3, 4). -/

def sync (q : Fifo) (inp : Input) : Option (Outputs × List Nat × Bool × Bool) := seen .rx (step (bench q [inp]))

theorem test_sync_h :
    sync (fifo 3 5 2 2 2) (.syncH .rx 2) = some ({}, [5, 2, 4, 2], false, false) ∧
    sync (fifo 3 5 2 2 2) (.syncH .rx 3) = some ({}, [5, 2, 5, 2], false, false) ∧
    sync (fifo 3 1 6 6 6) (.syncH .rx 3) = some ({}, [1, 6, 1, 6], false, false) ∧
    refusalOf (step (bench (fifo 3 5 2 2 2) [.syncH .rx 4])) = some .syncNotEnabled ∧
    refusalOf (step (bench (fifo 3 5 5 5 5) [.syncH .rx 0])) = some .syncNotEnabled := by decide

theorem test_sync_t :
    sync (fifo 3 4 4 4 0) (.syncT .rx 2) = some ({}, [4, 4, 4, 2], false, true) ∧
    sync (fifo 3 2 2 2 7) (.syncT .rx 3) = some ({}, [2, 2, 2, 2], false, true) ∧
    sync (fifo 3 2 2 2 7) (.syncT .rx 1) = some ({}, [2, 2, 2, 0], false, true) ∧
    refusalOf (step (bench (fifo 3 2 2 2 7) [.syncT .rx 4])) = some .syncNotEnabled ∧
    refusalOf (step (bench (clocked 3 0 0 [0, 0] 0 0 [0, 0]) [.syncT .rx 1])) = some .noSyncStep := by decide

theorem test_gray_table : -- section 3, `N = 3` and the `N = 8` vectors
    ((List.range 8).map fun b => (gray (BitVec.ofNat 3 b)).toNat) =
      [0b000, 0b001, 0b011, 0b010, 0b110, 0b111, 0b101, 0b100] ∧
    gray (0xFF : BitVec 8) = 0x80 ∧ gray (0x7F : BitVec 8) = 0x40 ∧ gray (0x80 : BitVec 8) = 0xC0 ∧
    gray (0xAA : BitVec 8) = 0xFF ∧ gray (0 : BitVec 1) = 0 ∧ gray (1 : BitVec 1) = 1 := by decide

theorem test_ungray :
    ungray (0b100 : BitVec 3) = 7 ∧ ungray (0b111 : BitVec 3) = 5 ∧ ungray (0b101 : BitVec 3) = 6 ∧
    ungray (0b1000 : BitVec 4) = 15 ∧ ungray (0b1010 : BitVec 4) = 12 ∧ ungray (0xFF : BitVec 8) = 0xAA := by decide

theorem test_producer_edge : -- K1, its sixth line
    run (clocked 3 1 0b001 [0b001, 0b001] 1 0b001 [0, 0] [(1, 0x61)]) .pcmd 0x162 =
      some ({ pOk := some true, wr := some (2, 0x62) }, [2, 1, 1, 0], false, true) ∧
    chains (present (clocked 3 1 0b001 [0b001, 0b001] 1 0b001 [0, 0] [(1, 0x61)]) .pcmd 0x162) =
      some ([0b011, 0b001], [0b001, 0b001], [0b001, 0]) := by decide

theorem test_push_refused_while_the_chain_shifts : -- K4: the second refusal after the POP, then `full = 0`
    run (clocked 2 3 0b10 [0b10, 0b10] 1 0b01 [0b01, 0]) .pcmd 0x194 =
      some ({ pOk := some false }, [3, 1, 3, 1], false, false) := by decide

theorem test_drain_starts_the_walk : -- K2, its DRAIN line
    run (clocked 3 5 0b111 [0b111, 0b111] 0 0 [0, 0]) .ccmd 0b10 = some ({}, [5, 5, 5, 0], false, true) ∧
    chains (present (clocked 3 5 0b111 [0b111, 0b111] 0 0 [0, 0]) .ccmd 0b10) =
      some ([0b111, 0b001], [0b111, 0b111], [0, 0]) := by decide

theorem test_count_lets_the_walk_go_on : -- K2, its COUNT line
    chains (present (clocked 3 5 0b111 [0b111, 0b111] 5 0b001 [0b001, 0]) .ccmd 0b11) =
      some ([0b111, 0b011], [0b111, 0b111], [0b001, 0]) := by decide

theorem test_pop_uses_the_view_before_the_edge : -- K1: the fourth line
    run (clocked 3 1 0b001 [0b001, 0] 0 0 [0, 0] [(1, 0x61)]) .ccmd 0b01 =
      some ({ cValid := some false }, [1, 0, 1, 0], false, false) := by decide

/-! ### The clients (sections 1 and 5), one step each. -/

def latchOf (o : Host.Outcome State Fault Refusal) : Option (ErrorKind × ReceiveHandler × List Nat) :=
  match o with
  | .next t => some (t.clients.lastRxError, t.clients.receiveHandler,
      [t.rx.blk.head.toNat, t.rx.blk.tail.toNat, t.rx.blk.headSeen.toNat, t.rx.blk.tailSeen.toNat])
  | .fault _ => none
  | .refused _ => none

theorem test_overflow_outranks_the_status : -- S8, its second event, in the handler's PUSH step
    latchOf (stepWith (.advance .receiveHandler)
      (system .singleProcessor (fifo 3 7 0 7 0) (fifo 3 0 0 0 0)
        { initialised with receiveHandler := .pushing 0x9A .overrunError })) =
      some (.noError, .latching .bufferOverflow, [7, 0, 7, 0]) := by decide

theorem test_classify : -- S6, P5 step 4
    classify { framing := true, overrun := true } = .overrunError ∧
    classify { framing := true, overrun := false } = .framingError ∧
    classify { framing := false, overrun := false } = .noError := by decide

theorem test_views_settle_on_one_processor : -- P5 step 2: `(1, 0, 1, 0)` right after the PUSH
    latchOf (stepWith (.advance .receiveHandler)
      (system .singleProcessor (fifo 2 0 0 0 0) (fifo 2 0 0 0 0)
        { initialised with receiveHandler := .pushing 0x41 .noError })) =
      some (.noError, .latching .noError, [1, 0, 1, 0]) := by decide

def txOf (o : Host.Outcome State Fault Refusal) : Option (Bool × List Byte × TransmitHandler) :=
  match o with
  | .next t => some (t.clients.txIrqEnable, t.clients.serial.sent, t.clients.transmitHandler)
  | .fault _ => none
  | .refused _ => none

theorem test_transmit_ready_on_stale_empty : -- CL4: `(1, 0, 0, 0)`, the event sees `empty = 1` and will disable
    txOf (stepWith .transmitReady
      (system .twoDomains (fifo 2 0 0 0 0) (fifo 2 1 0 0 0) { initialised with txIrqEnable := true })) =
      some (true, [], .disabling) := by decide

def returnOf (o : Host.Outcome State Fault Refusal) : Option (Option CallResult × ErrorKind) :=
  match o with
  | .next t => some (t.clients.returned, t.clients.lastRxError)
  | .fault _ => none
  | .refused _ => none

theorem test_latch_is_read_after_the_pop : -- CL3
    returnOf (stepWith (.advance .mainline)
      (system .singleProcessor (fifo 2 2 1 2 1) (fifo 2 0 0 0 0)
        { initialised with mainline := .sampling 0x41, lastRxError := .framingError })) =
      some (some (.read (.byte 0x41 .framingError)), .framingError) := by decide

/-! ### Witnesses: for each statement with hypotheses, data that meet all of them. -/

/-- Three unread bytes of seven, the consumer's view one behind, the producer's two behind. -/
def lagging : Fifo := fifo 3 4 1 3 7 [(2, 0x22), (3, 0x33), (4, 0x44)]
/-- Seven unread bytes, both views current. -/
def fullCopy : Fifo :=
  fifo 3 7 0 7 0 [(1, 0x31), (2, 0x32), (3, 0x33), (4, 0x34), (5, 0x35), (6, 0x36), (7, 0x37)]
/-- K2 after its second C_NOP. -/
def k2 : Fifo :=
  clocked 3 5 0b111 [0b111, 0b111] 0 0 [0, 0] [(1, 0x71), (2, 0x72), (3, 0x73), (4, 0x74), (5, 0x75)]
/-- K2 after its first C_NOP. -/
def k2Early : Fifo :=
  clocked 3 5 0b111 [0b111, 0] 0 0 [0, 0] [(1, 0x71), (2, 0x72), (3, 0x73), (4, 0x74), (5, 0x75)]
/-- K4 after its first refusal after the POP. -/
def k4 : Fifo := clocked 2 3 0b10 [0b10, 0b10] 1 0b01 [0b01, 0] [(1, 0x91), (2, 0x92), (3, 0x93)]

theorem witness_EveryPortWordDecodesAsTabled :
    (0x100 : BitVec 9).getLsbD 8 = true ∧ (0x1FF : BitVec 9).getLsbD 8 = true ∧
    (0x000 : BitVec 9).getLsbD 8 = false ∧ (0x0FF : BitVec 9).getLsbD 8 = false := by decide
theorem witness_DecodeOfEncodeIsTheCommand :
    (Instr.push 0xFF).wellFormed = true ∧ 2 ^ Port.pcmd.width ≤ 512 ∧ 2 ^ Port.ccmd.width ≤ 4 ∧
    2 ^ Port.init.width ≤ 2 := by decide
theorem witness_InitWinsOverCommands : ({ pcmd := 0x141, ccmd := 0b01, init := 1 } : Ports).init = 1 := by decide
theorem witness_StepRunsTheDecodedCommand :
    ((bench lagging [.ports .rx .producer { pcmd := 0x141 }]).inputs = .ports .rx .producer { pcmd := 0x141 } :: [] ∧
      (bench lagging [.ports .rx .producer { pcmd := 0x141 }]).driver = .ports ∧
      (bench lagging [.ports .rx .producer { pcmd := 0x141 }]).platform = .twoDomains) ∧
    ((system .singleProcessor lagging lagging).setInputs [.ports .tx .consumer {}]).inputs =
      .ports .tx .consumer {} :: [] ∧ isIdle (Ports.command .consumer {}) = true ∧ (bench lagging).inputs = [] :=
  ⟨⟨rfl, rfl, rfl⟩, rfl, rfl, rfl⟩
theorem witness_SecondDriverIsRefused :
    ((system .twoDomains lagging lagging).setInputs [.ports .rx .consumer { ccmd := 0b01 }]).inputs =
      .ports .rx .consumer { ccmd := 0b01 } :: [] ∧ (system .twoDomains lagging lagging).driver = .clients ∧
    isIdle (Ports.command .consumer { ccmd := 0b01 }) = false := ⟨rfl, rfl, rfl⟩

/-- P_NOP, C_NOP, COUNT and DRAIN ask only for a ready copy: at both levels, at the smallest and the largest width. -/
theorem witness_ready :
    (bench lagging).fifo.ready = true ∧ (bench k2).fifo.ready = true ∧ (bench (fifo 1 0 0 0 0)).fifo.ready = true ∧
    (bench (fifo 8 255 10 10 10)).fifo.ready = true ∧ lagging.blk.isArchitectural = true := by decide
theorem witness_PNopWritesNothing : (bench lagging).fifo.ready = true := witness_ready.1
theorem witness_CNopWritesNothing : (bench lagging).fifo.ready = true := witness_ready.1
theorem witness_CountReturnsTheMaskedDifference : (bench lagging).fifo.ready = true := witness_ready.1
theorem witness_DrainSetsTailToTheView : (bench lagging).fifo.ready = true := witness_ready.1
theorem witness_PushStoresAtTheSlotAfterHead :
    (bench (fifo 3 6 0 0 0)).fifo.ready = true ∧
    inc (bench (fifo 3 6 0 0 0)).fifo.blk.head ≠ (bench (fifo 3 6 0 0 0)).fifo.blk.tailSeen := by decide
theorem witness_PushAtFullWritesNothing :
    (bench fullCopy).fifo.ready = true ∧ inc (bench fullCopy).fifo.blk.head = (bench fullCopy).fifo.blk.tailSeen := by
  decide
theorem witness_PopReturnsTheByteAfterTail :
    (bench lagging).fifo.ready = true ∧ (bench lagging).fifo.blk.headSeen ≠ (bench lagging).fifo.blk.tail ∧
    (bench lagging).fifo.blk.storage.read (inc (bench lagging).fifo.blk.tail).toNat = some 0x22 := by decide
theorem witness_PopAtEmptyWritesNothing :
    (bench (fifo 3 6 4 4 4)).fifo.ready = true ∧
    (bench (fifo 3 6 4 4 4)).fifo.blk.headSeen = (bench (fifo 3 6 4 4 4)).fifo.blk.tail := by decide
theorem witness_InitZeroesEveryRegister :
    ((bench k2).fifo.legal = true ∧ (bench k2).quiescent = true) ∧
    (system .singleProcessor lagging lagging { initialised with
      serial := { initialised.serial with globalInterruptsOn := false } }).quiescent = true := by decide
/-- R170, R237: a handler past its PUSH, its source masked, is no hindrance to INIT; one before its PUSH is. -/
theorem test_init_beside_a_handler_past_its_command :
    let masked : Clients := { initialised with serial := { initialised.serial with receiveInterruptOn := false } }
    (system .twoDomains lagging lagging { masked with receiveHandler := .latching .noError }).quiescent = true ∧
    (system .twoDomains lagging lagging { masked with receiveHandler := .pushing 0x41 .noError }).quiescent = false := by
  decide
theorem witness_CommandsOutsideTheContractAreRefused :
    (bench (fifo 0 0 0 0 0)).fifo.legal = false ∧ (bench (fifo 9 0 0 0 0)).fifo.legal = false ∧
    ((bench lagging).setFifo { lagging with blk := { lagging.blk with initDone := false } }).fifo.legal = true ∧
    ((bench lagging).setFifo { lagging with blk := { lagging.blk with initDone := false } }).fifo.blk.initDone = false ∧
    (system .twoDomains lagging lagging).fifo.legal = true ∧ (system .twoDomains lagging lagging).quiescent = false ∧
    (bench (fifo 3 1 0 1 0)).fifo.ready = true ∧
    (bench (fifo 3 1 0 1 0)).fifo.blk.headSeen ≠ (bench (fifo 3 1 0 1 0)).fifo.blk.tail ∧
    (bench (fifo 3 1 0 1 0)).fifo.blk.storage.read (inc (bench (fifo 3 1 0 1 0)).fifo.blk.tail).toNat = none := by
  decide
/-- The transmit-ready event and its handler's disable, on a copy with `N = 9` and on one before its INIT. -/
theorem witness_CommandsOutsideTheContractAreRefused_clients :
    let fresh : Fifo := { lagging with blk := { lagging.blk with initDone := false } }
    let on : Clients := { initialised with txIrqEnable := true }
    let off : Clients := { initialised with transmitHandler := .disabling }
    (system .twoDomains lagging (fifo 9 0 0 0 0) on).tx.legal = false ∧
    ((system .twoDomains lagging fresh on).tx.legal = true ∧ (system .twoDomains lagging fresh on).tx.blk.initDone = false) ∧
    ((system .singleProcessor lagging fresh on).driver = .clients ∧
      (system .singleProcessor lagging fresh on).handlersIdle = true ∧ on.serial.globalInterruptsOn = true) ∧
    (system .singleProcessor lagging fresh off).clients.transmitHandler = .disabling := by decide
/-- Before the facade's `init`: a state with each event's interrupt on, and a step that runs (`init`'s own INIT). -/
theorem witness_CommandsOutsideTheContractAreRefused_start :
    let first : Clients := { initialised with started := false, txIrqEnable := true }
    ((system .twoDomains lagging lagging first).driver = .clients ∧ first.started = false ∧
      (system .twoDomains lagging lagging first).handlersIdle = true ∧ first.mainline = .idle ∧
      first.serial.receiveInterruptOn = true ∧ first.serial.globalInterruptsOn = true ∧ lagging.ready = true) ∧
    ∃ t, stepWith (.advance .mainline) (system .singleProcessor lagging lagging { Clients.reset with
      mainline := .initialising .resetRx 0 }) = .next t := ⟨by decide, _, rfl⟩
/-- R190 (2): from reset, the clients driving, `write_byte` has no step, and `init` has. -/
theorem test_no_call_before_init :
    refusalOf (stepWith (.call (.writeByte 0x41)) (system .twoDomains Fifo.reset Fifo.reset Clients.reset)) =
      some .beforeFacadeInit ∧
    refusalOf (stepWith (.call (.init 0)) (system .twoDomains Fifo.reset Fifo.reset Clients.reset)) = none := by decide
/-- R5, D17: with an illegal `N` the transmit-ready event has no step. -/
theorem test_transmit_ready_on_an_illegal_copy :
    refusalOf (stepWith .transmitReady (system .twoDomains lagging (fifo 9 0 0 0 0) { initialised with txIrqEnable := true })) =
      some .illegalParameters := by decide
theorem witness_ProducerCommandsKeepTheRest :
    (Instr.push 0x41).port = .pcmd ∧ ∃ t, exec (.push 0x41) (bench lagging) = .next t := ⟨rfl, _, rfl⟩
theorem witness_ConsumerCommandsKeepTheRest :
    Instr.pop.port = .ccmd ∧ ∃ t, exec .pop (bench lagging) = .next t := ⟨rfl, _, rfl⟩

theorem witness_ProducerEdgeShiftsTheTailChain :
    Instr.pNop.port = .pcmd ∧
    (bench k4).fifo.blk.crossing = .clocked (0b10 : BitVec 2) (0b01 : BitVec 2) [0b10, 0b10] [0b01, 0] ∧
    ∃ t, exec .pNop (bench k4) = .next t := ⟨rfl, rfl, _, rfl⟩
/-- One state for each clause: a DRAIN at which the register moves, a C_NOP at which it stays. -/
theorem witness_ConsumerEdgeShiftsTheHeadChainAndWalks :
    (bench k2).fifo.blk.crossing = .clocked (0b111 : BitVec 3) 0 [0b111, 0b111] [0, 0] ∧
    (∃ t, exec .drain (bench k2) = .next t ∧ (0 : BitVec t.rx.N) ≠ gray t.rx.blk.tail) ∧
    (∃ t, exec .cNop (bench k2) = .next t ∧ (0 : BitVec t.rx.N) = gray t.rx.blk.tail) :=
  ⟨rfl, ⟨_, rfl, by decide⟩, ⟨_, rfl, by decide⟩⟩
/-- `1 <= k <= 1` on `lagging`: both ends, and the two values outside. -/
theorem witness_SyncHMovesTheConsumersView :
    ((bench lagging).fifoOf .rx).ready = true ∧
    ((bench lagging).fifoOf .rx).blk.crossing = .architectural (3 : BitVec 3) 7 ∧
    ((bench lagging).fifoOf .rx).blk.inv = true ∧ (dist (3 : BitVec 3) (4 : BitVec 3)).toNat = 1 :=
  ⟨by decide, rfl, by decide, by decide⟩
theorem witness_SyncTMovesTheProducersView :
    ((bench lagging).fifoOf .rx).ready = true ∧
    ((bench lagging).fifoOf .rx).blk.crossing = .architectural (3 : BitVec 3) 7 ∧
    ((bench lagging).fifoOf .rx).blk.inv = true ∧ (dist (7 : BitVec 3) (1 : BitVec 3)).toNat = 2 :=
  ⟨by decide, rfl, by decide, by decide⟩
/-- The gray statements ask only for a width that is not 0. -/
theorem witness_GrayIsTheReflectedCode : 0 < 1 ∧ 0 + 1 < 2 ∧ 6 + 1 < 8 := by decide
theorem witness_UngrayInvertsGray : 0 < 1 ∧ 0 + 1 < 2 ∧ 6 + 1 < 8 := by decide
theorem witness_NeighbouringCodesDifferInOneBit : 0 < 1 ∧ 0 < 8 := by decide
theorem witness_LaunchedRegistersMoveOneBitAtATime :
    Instr.drain ≠ .init ∧ (bench k2).fifo.blk.inv = true ∧
    (bench k2).fifo.blk.crossing = .clocked (0b111 : BitVec 3) 0 [0b111, 0b111] [0, 0] ∧
    ∃ (t : State) (b' : Block 3), exec .drain (bench k2) = .next t ∧ t.fifo = { (bench k2).fifo with blk := b' } ∧
      b'.crossing = .clocked (0b111 : BitVec 3) 0b001 [0b111, 0b111] [0, 0] :=
  ⟨by decide, by decide, rfl, _, _, rfl, rfl, rfl⟩
/-- `k = 1` on `k4`, `k = 0` on `k2`. -/
theorem witness_ProducerEdgeIsCommandThenSyncT :
    ((bench k4).fifo.blk.inv = true ∧
      (bench k4).fifo.blk.crossing = .clocked (0b10 : BitVec 2) (0b01 : BitVec 2) [0b10, 0b10] [0b01, 0] ∧
      (dist (ungray (0 : BitVec 2)) (ungray (0b01 : BitVec 2))).toNat = 1 ∧
      ∃ t, exec (.push 0x94) (bench k4) = .next t) ∧
    (bench k2).fifo.blk.inv = true ∧ (dist (ungray (0 : BitVec 3)) (ungray (0 : BitVec 3))).toNat = 0 ∧
      ∃ t, exec (.push 0x76) (bench k2) = .next t :=
  ⟨⟨by decide, rfl, by decide, _, rfl⟩, by decide, by decide, _, rfl⟩
/-- `k = 5` on `k2Early`, `k = 0` on `k2`. -/
theorem witness_ConsumerEdgeIsCommandThenSyncH :
    ((bench k2Early).fifo.blk.inv = true ∧
      (bench k2Early).fifo.blk.crossing = .clocked (0b111 : BitVec 3) 0 [0b111, 0] [0, 0] ∧
      (dist (ungray (0 : BitVec 3)) (ungray (0b111 : BitVec 3))).toNat = 5 ∧
      ∃ t, exec .pop (bench k2Early) = .next t) ∧
    (bench k2).fifo.blk.inv = true ∧ ∃ t, exec .drain (bench k2) = .next t :=
  ⟨⟨by decide, rfl, by decide, _, rfl⟩, by decide, _, rfl⟩
theorem witness_PointersCrossInSEdges :
    (bench k2Early).driver = .ports ∧ ((bench k2Early).fifoOf .rx).ready = true ∧
    ((bench k2Early).fifoOf .rx).blk.inv = true ∧
    ((bench k2Early).fifoOf .rx).blk.crossing = .clocked (0b111 : BitVec 3) 0 [0b111, 0] [0, 0] ∧
    ([{ ccmd := 0b10 }, {}] : List Ports).length = ((bench k2Early).fifoOf .rx).S ∧
    (∃ t, follow (([{ ccmd := 0b10 }, {}] : List Ports).map (.ports .rx .consumer)) (bench k2Early) = .next t) ∧
    (∃ t, follow (([{ pcmd := 0x176 }, {}] : List Ports).map (.ports .rx .producer)) (bench k2Early) = .next t) :=
  ⟨rfl, by decide, by decide, rfl, rfl, ⟨_, rfl⟩, ⟨_, rfl⟩⟩

/-- A fair run: `lagging` sees its last byte in the first step, its freed slots in the second, and then nothing but the
global mechanism is switched. -/
def fairRun : Nat → State
  | 0 => bench lagging
  | 1 => bench (fifo 3 4 1 4 7 lagging.blk.storage)
  | _ + 2 => bench (fifo 3 4 1 4 1 lagging.blk.storage)

theorem fairRun_isRun : isRun fairRun := by
  rintro (_ | _ | n)
  · exact ⟨.syncH .rx 1, rfl⟩
  · exact ⟨.syncT .rx 2, rfl⟩
  · exact ⟨.globalInterrupts true, rfl⟩

theorem syncH_needs_lag (k : Nat) (t : State) (n : Nat) : stepWith (.syncH .rx k) (fairRun (n + 2)) ≠ .next t := by
  intro h
  obtain ⟨u, hu, -⟩ := stepWith_next.mp h
  simp only [takeInput, stepSyncH] at hu
  obtain ⟨-, b, o, hb, -⟩ := command_next hu
  obtain ⟨h0, t0, hc, h1, h2, -, -⟩ := Block.syncH_next hb
  have hc : Crossing.architectural (4 : BitVec 3) 1 = .architectural h0 t0 := hc
  cases hc
  have h2 : k ≤ (dist (4 : BitVec 3) 4).toNat := h2
  rw [dist_self] at h2
  exact absurd h1 (by simp at h2; omega)

theorem syncT_needs_lag (k : Nat) (t : State) (n : Nat) : stepWith (.syncT .rx k) (fairRun (n + 2)) ≠ .next t := by
  intro h
  obtain ⟨u, hu, -⟩ := stepWith_next.mp h
  simp only [takeInput, stepSyncT] at hu
  obtain ⟨-, b, o, hb, -⟩ := command_next hu
  obtain ⟨h0, t0, hc, h1, h2, -, -⟩ := Block.syncT_next hb
  have hc : Crossing.architectural (4 : BitVec 3) 1 = .architectural h0 t0 := hc
  cases hc
  have h2 : k ≤ (dist (1 : BitVec 3) 1).toNat := h2
  rw [dist_self] at h2
  exact absurd h1 (by simp at h2; omega)

theorem witness_FairCrossingsCatchUp :
    isRun fairRun ∧ ((fairRun 0).fifoOf .rx).ready = true ∧ ((fairRun 0).fifoOf .rx).blk.isArchitectural = true ∧
    weaklyFair (.syncH .rx) fairRun ∧ weaklyFair (.syncT .rx) fairRun ∧
    (∀ m, 0 ≤ m → ((fairRun m).fifoOf .rx).blk.head.toNat = 4) ∧
    (∀ m, 0 ≤ m → ((fairRun m).fifoOf .rx).blk.tail.toNat = 1) := by
  refine ⟨fairRun_isRun, by decide, by decide, fun n h => ?_, fun n h => ?_, ?_, ?_⟩
  · obtain ⟨k, t, ht⟩ := h (n + 2) (by omega)
    exact absurd ht (syncH_needs_lag k t n)
  · obtain ⟨k, t, ht⟩ := h (n + 2) (by omega)
    exact absurd ht (syncT_needs_lag k t n)
  · rintro (_ | _ | m) - <;> rfl
  · rintro (_ | _ | m) - <;> rfl

theorem witness_OneProcessorHasNoLag :
    ((system .singleProcessor lagging lagging).setInputs [.receive 0x41 { framing := false, overrun := false }]).platform =
      .singleProcessor ∧ lagging.blk.isArchitectural = true ∧
    (∃ t, step ((system .singleProcessor lagging lagging).setInputs
      [.receive 0x41 { framing := false, overrun := false }]) = .next t) ∧
    fullCopy.blk.current = true ∧ ∃ t, step (system .singleProcessor fullCopy lagging) = .next t :=
  ⟨rfl, rfl, ⟨_, rfl⟩, rfl, ⟨_, rfl⟩⟩

/-! ### The invariant and the queue. -/

theorem witness_EveryStepKeepsTheInvariant :
    (bench lagging [commandInput .rx .drain]).inv = true ∧
    (∃ t, step (bench lagging [commandInput .rx .drain]) = .next t) ∧
    (system .singleProcessor lagging lagging { initialised with transmitHandler := .popping }).inv = true :=
  ⟨by decide, ⟨_, rfl⟩, by decide⟩
theorem witness_NoStepFaults :
    (bench fullCopy [commandInput .rx .pop]).inv = true ∧ (bench k2 [commandInput .rx .pop]).inv = true := by decide
/-- `occ = 7`, `occ = 0` and a wrapped copy. -/
theorem witness_ViewsAndOccupancyStayInBounds :
    (fullCopy.legal = true ∧ fullCopy.blk.inv = true ∧ fullCopy.blk.initDone = true ∧ fullCopy.blk.occupancy = 7) ∧
    ((fifo 3 4 4 4 4).blk.inv = true ∧ (fifo 3 4 4 4 4).blk.occupancy = 0) ∧
    (fifo 3 1 6 1 6 [(0, 0x10), (1, 0x11), (7, 0x17)]).blk.inv = true := by decide
theorem witness_FlagsArePessimistic :
    (fullCopy.legal = true ∧ fullCopy.blk.inv = true ∧ fullCopy.blk.initDone = true ∧
      inc fullCopy.blk.head = fullCopy.blk.tail) ∧
    (fifo 3 4 4 4 1).blk.inv = true ∧ (fifo 3 4 4 4 1).blk.head = (fifo 3 4 4 4 1).blk.tail := by decide
theorem witness_ConfigurationNeverChanges : ∃ t, step (bench lagging [commandInput .rx .init]) = .next t := ⟨_, rfl⟩
/-- One input for each clause. -/
theorem witness_EachPointerHasOneWriter :
    (∃ t, stepWith (.ports .rx .consumer { ccmd := 0b10 }) (bench lagging) = .next t) ∧
    (∃ t, stepWith (.ports .rx .producer { pcmd := 0x141 }) (bench lagging) = .next t) ∧
    (∃ t, stepWith (.syncH .rx 1) (bench lagging) = .next t) ∧
    (∃ t, stepWith (.syncT .rx 2) (bench lagging) = .next t) ∧
    (∃ t, stepWith (.ports .rx .producer { init := 1 }) (bench lagging) = .next t) :=
  ⟨⟨_, rfl⟩, ⟨_, rfl⟩, ⟨_, rfl⟩, ⟨_, rfl⟩, ⟨_, rfl⟩⟩
theorem witness_EachPointerHasOneWriter_clients :
    (∃ t, stepWith (.advance .receiveHandler)
      (system .twoDomains lagging lagging { initialised with receiveHandler := .pushing 0x41 .noError }) = .next t) ∧
    (∃ t, stepWith (.advance .transmitHandler)
      (system .singleProcessor lagging lagging { initialised with transmitHandler := .popping }) = .next t) ∧
    (∃ t, stepWith (.advance .mainline)
      (system .twoDomains lagging lagging { initialised with mainline := .flushing }) = .next t) ∧
    (∃ t, stepWith (.advance .mainline) (system .twoDomains lagging lagging { initialised with
      mainline := .initialising .resetTx 0 }) = .next t) ∧
    (∃ t, stepWith (.call .tryReadByte) (system .singleProcessor lagging lagging) = .next t) :=
  ⟨⟨_, rfl⟩, ⟨_, rfl⟩, ⟨_, rfl⟩, ⟨_, rfl⟩, ⟨_, rfl⟩⟩
theorem witness_CopiesAreIndependent :
    Channel.tx ≠ .rx ∧ (bench lagging).platform = .twoDomains ∧ (bench lagging).driver = .ports ∧
    (bench lagging).fifoOf .rx = ({ bench lagging with tx := fullCopy } : State).fifoOf .rx ∧
    ∃ t, stepWith (.ports .rx .consumer { ccmd := 0b01 }) (bench lagging) = .next t :=
  ⟨by decide, rfl, rfl, rfl, _, rfl⟩

/-- A POP, a SYNC.H and a PUSH on `lagging`. -/
def mixed : State := bench lagging [commandInput .rx .pop, .syncH .rx 1, commandInput .rx (.push 0x55)]

theorem witness_BytesLeaveInTheOrderTheyEntered :
    mixed.inv = true ∧ (mixed.fifoOf .rx).blk.initDone = true ∧ ∃ u, trace .rx 3 mixed = some (u, [0x55], [0x22]) :=
  ⟨by decide, rfl, _, rfl⟩
theorem witness_NothingIsLostWithoutADiscard :
    mixed.inv = true ∧ (mixed.fifoOf .rx).blk.initDone = true ∧ mixed.driver = .ports ∧
    (∀ inp ∈ mixed.inputs, keepsBytes inp = true) ∧ ∃ u, trace .rx 3 mixed = some (u, [0x55], [0x22]) :=
  ⟨by decide, rfl, rfl, by decide, _, rfl⟩

/-- Seven bytes, the most a copy of eight slots holds, starting at slot 5 so that the pointers wrap. -/
def fillAndEmpty : State :=
  bench (fifo 3 5 5 5 5) (([1, 2, 3, 4, 5, 6, 7] : List Byte).map (fun b => commandInput .rx (.push b)) ++
    [.syncH .rx 7] ++ List.replicate 7 (commandInput .rx .pop))

theorem witness_PushesThenPopsReturnTheSameBytes :
    fillAndEmpty.inv = true ∧ (fillAndEmpty.fifoOf .rx).blk.initDone = true ∧ fillAndEmpty.driver = .ports ∧
    fillAndEmpty.platform = .twoDomains ∧ (fillAndEmpty.fifoOf .rx).blk.isArchitectural = true ∧
    (fillAndEmpty.fifoOf .rx).blk.current = true ∧
    (fillAndEmpty.fifoOf .rx).blk.head = (fillAndEmpty.fifoOf .rx).blk.tail ∧
    ([1, 2, 3, 4, 5, 6, 7] : List Byte) ≠ [] ∧
    ([1, 2, 3, 4, 5, 6, 7] : List Byte).length ≤ 2 ^ (fillAndEmpty.fifoOf .rx).N - 1 ∧
    fillAndEmpty.inputs = ([1, 2, 3, 4, 5, 6, 7] : List Byte).map (fun b => commandInput .rx (.push b)) ++
      [.syncH .rx 7] ++ List.replicate 7 (commandInput .rx .pop) :=
  ⟨by decide, rfl, rfl, rfl, rfl, rfl, rfl, by decide, by decide, rfl⟩
theorem witness_RoomSeenStaysUntilUsed :
    mixed.inv = true ∧ (mixed.fifoOf .rx).blk.initDone = true ∧ (mixed.fifoOf .rx).blk.full = false ∧
    ∃ u, trace .rx 2 mixed = some (u, [], [0x22]) := ⟨by decide, rfl, rfl, _, rfl⟩

/-- A PUSH, a SYNC.T and a COUNT: nothing is taken. -/
def untaken : State := bench lagging [commandInput .rx (.push 0x55), .syncT .rx 2, commandInput .rx .count]

theorem witness_ByteSeenStaysUntilTaken :
    untaken.inv = true ∧ (untaken.fifoOf .rx).blk.initDone = true ∧ (untaken.fifoOf .rx).blk.empty = false ∧
    untaken.driver = .ports ∧ (∀ inp ∈ untaken.inputs, keepsBytes inp = true) ∧
    ∃ u, trace .rx 3 untaken = some (u, [0x55], []) := ⟨by decide, rfl, rfl, rfl, by decide, _, rfl⟩
theorem witness_CountIsHowManyPopsSucceed :
    (bench lagging (List.replicate 2 (commandInput .rx .pop))).inv = true ∧ lagging.blk.initDone = true ∧
    lagging.blk.isArchitectural = true ∧
    (bench lagging (List.replicate 2 (commandInput .rx .pop))).inputs =
      List.replicate lagging.blk.available.toNat (commandInput .rx .pop) := by decide
theorem witness_AtMostCMinusOnePushesWithoutSyncT :
    mixed.inv = true ∧ mixed.driver = .ports ∧ mixed.platform = .twoDomains ∧
    (mixed.fifoOf .rx).blk.isArchitectural = true ∧ (∀ inp ∈ mixed.inputs, leavesTailView .rx inp = true) ∧
    ∃ u, trace .rx 3 mixed = some (u, [0x55], [0x22]) := ⟨by decide, rfl, rfl, rfl, by decide, _, rfl⟩

/-! ### The clients. -/

/-- The source's system: both sides on one processor. -/
def together (rx tx : Fifo) (c : Clients := initialised) : State := system .singleProcessor rx tx c
/-- The clients in two domains, both copies lagging. -/
def apart (c : Clients := initialised) : State := system .twoDomains lagging lagging c

theorem witness_ErrorKindsFollowThePriority :
    ({ framing := true, overrun := true } : HwStatus).overrun = true ∧
    ({ framing := true, overrun := false } : HwStatus).framing = true ∧
    ({ framing := false, overrun := false } : HwStatus).framing = false := by decide
/-- One state for each clause: not full, full. -/
theorem witness_ReceiveEventStoresAndLatches :
    (apart.driver = .clients ∧ apart.clients.started = true ∧ apart.rx.ready = true ∧ apart.handlersIdle = true ∧
      apart.steady .rx = true ∧ apart.clients.serial.receiveInterruptOn = true ∧ apart.clients.serial.globalInterruptsOn = true ∧
      apart.rx.blk.full = false) ∧
    (together fullCopy lagging).rx.ready = true ∧ (together fullCopy lagging).steady .rx = true ∧
    (together fullCopy lagging).rx.blk.full = true := by decide
theorem witness_TransmitReadyEventSendsOrDisables :
    ((apart { initialised with txIrqEnable := true }).driver = .clients ∧ apart.clients.started = true ∧ apart.tx.ready = true ∧
      apart.handlersIdle = true ∧ apart.steady .tx = true ∧ apart.clients.serial.globalInterruptsOn = true ∧
      apart.tx.blk.empty = false ∧ apart.tx.blk.storage.read (inc apart.tx.blk.tail).toNat = some 0x22) ∧
    (together lagging (fifo 3 4 4 4 4)).tx.ready = true ∧ (together lagging (fifo 3 4 4 4 4)).steady .tx = true ∧
    (together lagging (fifo 3 4 4 4 4)).tx.blk.empty = true := by decide
theorem witness_TryReadByteReadsTheLatchAfterThePop :
    (apart.driver = .clients ∧ apart.clients.started = true ∧ apart.rx.ready = true ∧ apart.handlersIdle = true ∧
      apart.steady .rx = true ∧ apart.clients.mainline = .idle ∧ apart.rx.blk.empty = false ∧
      apart.rx.blk.storage.read (inc apart.rx.blk.tail).toNat = some 0x22) ∧
    (together (fifo 3 4 4 4 4) lagging).steady .rx = true ∧ (together (fifo 3 4 4 4 4) lagging).rx.blk.empty = true := by
  decide
theorem witness_TryReadBytePairsWithTheCurrentLatch :
    (apart { initialised with mainline := .sampling 0x41 }).driver = .clients ∧
    (apart { initialised with mainline := .sampling 0x41 }).handlersIdle = true ∧
    (apart { initialised with mainline := .sampling 0x41 }).clients.mainline = .sampling 0x41 := by decide
theorem witness_WriteByteStoresThenEnables :
    (apart.driver = .clients ∧ apart.clients.started = true ∧ apart.tx.ready = true ∧ apart.handlersIdle = true ∧
      apart.steady .tx = true ∧ apart.clients.mainline = .idle ∧ apart.tx.blk.full = false) ∧
    (together lagging (fifo 3 4 4 4 4)).tx.ready = true ∧ (together lagging (fifo 3 4 4 4 4)).steady .tx = true ∧
    (together lagging (fifo 3 4 4 4 4)).tx.blk.full = false := by decide
/-- On either platform. -/
theorem witness_WriteByteSpinsWhileFull (p : Platform) :
    let s := system p lagging fullCopy { initialised with mainline := .writing 0x64 [] }
    s.driver = .clients ∧ s.clients.started = true ∧ s.tx.ready = true ∧ s.handlersIdle = true ∧ s.steady .tx = true ∧
    s.tx.blk.isArchitectural = true ∧ s.clients.mainline = .writing 0x64 [] ∧ s.tx.blk.full = true := by
  cases p <;> decide
/-- The last of the seven places, and an empty sequence; on one processor, seven bytes into an empty copy. -/
theorem witness_WriteStringQueuesItsBytesInOrder :
    (apart.inv = true ∧ apart.driver = .clients ∧ apart.clients.started = true ∧ apart.tx.blk.initDone = true ∧ apart.handlersIdle = true ∧
      apart.steady .tx = true ∧ apart.tx.blk.isArchitectural = true ∧ apart.clients.mainline = .idle ∧
      (dist apart.tx.blk.tailSeen apart.tx.blk.head).toNat + ([0x61, 0x62] : List Byte).length = 2 ^ apart.tx.N - 1 ∧
      (dist apart.tx.blk.tailSeen apart.tx.blk.head).toNat + ([] : List Byte).length ≤ 2 ^ apart.tx.N - 1) ∧
    (together lagging (fifo 3 4 4 4 4)).inv = true ∧ (together lagging (fifo 3 4 4 4 4)).steady .tx = true ∧
    (dist (4 : BitVec 3) 4).toNat + ([1, 2, 3, 4, 5, 6, 7] : List Byte).length = 2 ^ 3 - 1 := by decide
theorem witness_FlushThenBytesAvailableIsZero :
    (apart.driver = .clients ∧ apart.clients.started = true ∧ apart.rx.ready = true ∧ apart.handlersIdle = true ∧
      apart.steady .rx = true ∧ apart.rx.blk.isArchitectural = true ∧ apart.clients.mainline = .idle) ∧
    (together fullCopy lagging).rx.ready = true ∧ (together fullCopy lagging).steady .rx = true := by decide
/-- On either platform with no handler running, and in two domains with both handlers past their commands. -/
theorem witness_FacadeInitResetsBothCopies :
    let off : Clients := { initialised with serial := { initialised.serial with globalInterruptsOn := false } }
    let late := apart { off with receiveHandler := .latching .noError, transmitHandler := .sending 0x41 }
    (off.mainline = .idle ∧ off.serial.globalInterruptsOn = false ∧ off.receiveHandler.commandPending = false ∧
      off.transmitHandler.commandPending = false) ∧
    ((together lagging fullCopy off).driver = .clients ∧ (together lagging fullCopy off).rx.legal = true ∧
      (together lagging fullCopy off).tx.legal = true ∧ (together lagging fullCopy off).processorTaken = false) ∧
    late.processorTaken = false ∧ late.clients.receiveHandler.commandPending = false ∧
    late.clients.transmitHandler.commandPending = false := by decide
theorem witness_OnlyTheReceiveHandlerWritesTheLatch :
    ∃ t, stepWith (.advance .receiveHandler) (apart { initialised with receiveHandler := .latching .framingError }) =
      .next t ∧ t.clients.lastRxError ≠ initialised.lastRxError := ⟨_, rfl, by decide⟩
theorem witness_HandlersRunToCompletion :
    let s := together lagging lagging { initialised with receiveHandler := .latching .noError, txIrqEnable := true }
    s.platform = .singleProcessor ∧ s.driver = .clients ∧ s.handlersIdle = false ∧
    s.clients.serial.globalInterruptsOn = true ∧ s.clients.txIrqEnable = true ∧
    s.clients.serial.receiveInterruptOn = true := by decide
theorem witness_MaskedInterruptsDoNotOccur :
    apart.driver = .clients ∧ apart.clients.txIrqEnable = false ∧
    (apart { initialised with
      serial := { initialised.serial with receiveInterruptOn := false } }).clients.serial.receiveInterruptOn = false := by
  decide
theorem witness_NoWrittenByteIsStrandedOnOneProcessor :
    let s := (together lagging fullCopy
      { initialised with txIrqEnable := true, mainline := .writing 0x64 [] }).setInputs [.advance .mainline]
    s.inv = true ∧ s.transmitWatched ∧ ∃ t, step s = .next t :=
  ⟨by decide, ⟨rfl, rfl, rfl, rfl, fun _ => .inl rfl, fun h => by cases h⟩, _, rfl⟩

end Sys2Proof.Tests
end

section
/-! SUPPORT. The scope of the model (spec/00_scope.md): the pointer arithmetic as the integer formulas of R11, and the two
copies of the block as two machines apart (R9, R66). -/

namespace Sys2Proof.Machine

/-! ### The pointer arithmetic as numbers (R11). -/

theorem inc_toNat {N : Nat} (a : BitVec N) : (inc a).toNat = (a.toNat + 1) % 2 ^ N := by
  simp [inc, BitVec.toNat_add]

/-- The borrow of a word subtraction is one whole turn of the ring, which the floor modulus drops. -/
theorem dist_toNat_eq_emod {N : Nat} (a b : BitVec N) :
    ((dist a b).toNat : Int) = ((b.toNat : Int) - (a.toNat : Int)) % (2 ^ N : Nat) := by
  have ha : a.toNat ≤ 2 ^ N := Nat.le_of_lt a.isLt
  calc ((dist a b).toNat : Int)
      = ((2 ^ N - a.toNat + b.toNat : Nat) : Int) % (2 ^ N : Nat) := by
        rw [dist, BitVec.toNat_sub, Int.natCast_emod]
    _ = ((b.toNat : Int) - a.toNat + (2 ^ N : Nat)) % (2 ^ N : Nat) := by
        congr 1; omega
    _ = ((b.toNat : Int) - a.toNat) % (2 ^ N : Nat) := Int.add_emod_right _ _

/-! ### What a command reads: the selected copy, and for INIT who drives the inputs. -/

/-- Every command but INIT is the shared operation with an edge and an effect of its own, whatever the state. -/
theorem exec_eq_command {i : Instr} (hi : i ≠ .init) : ∃ edge f, ∀ s : State, exec i s = s.command edge f := by
  cases i with
  | pNop => exact ⟨fun _ b => b.producerEdge, fun _ b => .next (b, {}), fun _ => rfl⟩
  | push data => exact ⟨fun _ b => b.producerEdge, fun _ b => .next (b.push data), fun _ => rfl⟩
  | cNop => exact ⟨fun _ b => b.consumerEdge, fun _ b => .next (b, {}), fun _ => rfl⟩
  | pop => exact ⟨fun _ b => b.consumerEdge, fun _ b => b.pop, fun _ => rfl⟩
  | drain => exact ⟨fun _ b => b.consumerEdge, fun _ b => .next (b.drain, {}), fun _ => rfl⟩
  | count => exact ⟨fun _ b => b.consumerEdge, fun _ b => .next (b, Outputs.counted b.available.toNat), fun _ => rfl⟩
  | init => exact absurd rfl hi

theorem command_congr {s s' t : State} {edge : (N : Nat) → Block N → Block N} {f : Command}
    (hq : s.fifo = s'.fifo) (h : s.command edge f = .next t) :
    ∃ t', s'.command edge f = .next t' ∧ t'.fifo = t.fifo ∧ t'.out = t.out := by
  obtain ⟨hr, b, o, hb, rfl⟩ := command_next h
  exact ⟨(s'.setFifo { s.fifo with blk := edge _ b }).setOut o, by rw [command_at hq.symm edge f hr, hb], by simp, rfl⟩

theorem execInit_congr {s s' t : State} (hq : s.fifo = s'.fifo) (hs' : s'.quiescent = true)
    (h : execInit s = .next t) : ∃ t', execInit s' = .next t' ∧ t'.fifo = t.fifo ∧ t'.out = t.out := by
  obtain ⟨hl, -, rfl⟩ := execInit_next h
  exact ⟨_, exec_init (hq ▸ hl) hs', by rw [State.after_fifo, State.after_fifo, hq], rfl⟩

/-- A block driven from outside is between commands at every step (R170). -/
theorem quiescent_of_ports {s : State} (h : s.driver = .ports) : s.quiescent = true := by
  simp [State.quiescent, h]

theorem exec_congr {i : Instr} {s s' t : State} (hq : s.fifo = s'.fifo) (hd' : s'.driver = .ports)
    (h : exec i s = .next t) : ∃ t', exec i s' = .next t' ∧ t'.fifo = t.fifo ∧ t'.out = t.out := by
  by_cases hi : i = .init
  · subst hi
    exact execInit_congr hq (quiescent_of_ports hd') h
  · obtain ⟨edge, f, he⟩ := exec_eq_command hi
    rw [he] at h ⊢
    exact command_congr hq h

/-- In two domains with the outside driving, a step with words on the inputs is their command and nothing else. -/
theorem stepWith_ports_next {ch : Channel} {side : Side} {p : Ports} {s t : State} (hp : s.platform = .twoDomains)
    (hd : s.driver = .ports) :
    stepWith (.ports ch side p) s = .next t ↔ exec (p.command side) ((s.setOut {}).on ch) = .next t := by
  have htake : takeInput (.ports ch side p) (s.setOut {}) = exec (p.command side) ((s.setOut {}).on ch) := by
    simp [takeInput, presentPorts, hd]
  have hsettle {u : State} (hu : exec (p.command side) ((s.setOut {}).on ch) = .next u) : settle u = u := by
    obtain ⟨-, hplat, -, -⟩ := exec_rest hu
    exact settle_twoDomains (hplat.trans hp)
  rw [stepWith_next, htake]
  constructor
  · rintro ⟨u, hu, rfl⟩
    rwa [hsettle hu]
  · exact fun h => ⟨t, h, (hsettle h).symm⟩

end Sys2Proof.Machine

open Sys2Proof Sys2Proof.Machine

/-- Settles O6: the mask is the modulus `2^N`, of the sum in `inc` and of the integer difference in `dist`. -/
theorem pointerArithmeticIsMasked : Obligations.PointerArithmeticIsMasked := by
  unfold Obligations.PointerArithmeticIsMasked
  intro N a b
  rw [Nat.and_two_pow_sub_one_eq_mod]
  exact ⟨inc_toNat a, dist_toNat_eq_emod a b⟩

/-- Settles O39: the step is a command on the selected copy, which moves no other copy and reads no other. -/
theorem copiesAreIndependent : Obligations.CopiesAreIndependent := by
  unfold Obligations.CopiesAreIndependent
  intro ch other side p s s' t hne hp hp' hd hd' hq h
  rw [stepWith_ports_next hp hd] at h
  have hq' : ((s.setOut {}).on ch).fifo = ((s'.setOut {}).on ch).fifo := by simpa using hq
  obtain ⟨t', ht', hf, ho⟩ := exec_congr hq' hd' h
  have hsel : t.sel = ch := (moved_of_exec h).sel
  have hsel' : t'.sel = ch := (moved_of_exec ht').sel
  refine ⟨by simpa using exec_on_other hne h, t', (stepWith_ports_next hp' hd').mpr ht', ?_, ho⟩
  rwa [State.fifo, State.fifo, hsel, hsel'] at hf
end

section
/-! SUPPORT. The state and its invariant (spec/10_state.md): what the agent of a step does besides its command, and what
keeps a byte in sight of the transmit-ready handler that is about to pop it (R124). -/

namespace Sys2Proof.Machine

/-! ### Everything the agent of an input can do: one operation on one copy, then a write of the clients' state. -/

/-- The command takes no byte out of a queue. -/
def takesNothing (i : Instr) : Prop := i ≠ .pop ∧ i ≠ .drain ∧ i ≠ .init

/-- The transmit copy has had its INIT and its consumer sees a byte. -/
def State.byteInSight (s : State) : Prop := s.tx.blk.initDone = true ∧ s.tx.blk.empty = false

/-- The transmit-ready handler has seen a byte and has still to pop it. -/
def Clients.popping (c : Clients) : Prop := c.transmitHandler = .popping

/-- What the agent named by an input did. Beside each write of the clients' state stands how the transmit-ready handler
can be about to pop after it: it saw a byte in this step, or was about to pop before, and then a client's command on the
transmit copy took no byte. -/
inductive Acted (s : State) : State → Prop
  | clients (c : Clients) (hpop : c.popping → s.clients.popping ∨ s.byteInSight) : Acted s (s.setClients c)
  | command {ch : Channel} {i : Instr} {u : State} (h : exec i (s.on ch) = .next u) (c : Clients)
      (hpop : s.driver = .clients → c.popping → s.clients.popping ∧ (ch = .tx → takesNothing i)) :
      Acted s (u.setClients c)
  | syncH {ch : Channel} {k : Nat} {t : State} (h : stepSyncH k (s.on ch) = .next t) : Acted s t
  | syncT {ch : Channel} {k : Nat} {t : State} (h : stepSyncT k (s.on ch) = .next t) : Acted s t

/-- A write of the clients' state that leaves the transmit-ready handler where it stands. -/
theorem Acted.of_setClients {s t : State} (ht : t = s.setClients t.clients)
    (hc : t.clients.transmitHandler = s.clients.transmitHandler) : Acted s t :=
  ht ▸ .clients t.clients fun h => .inl (hc.symm.trans h)

/-- A write of the clients' state after which the transmit-ready handler is not about to pop. -/
theorem Acted.of_notPopping {s t : State} (ht : t = s.setClients t.clients) (hc : ¬ t.clients.popping) : Acted s t :=
  ht ▸ .clients t.clients fun h => absurd h hc

/-- A command that takes no byte from the transmit copy, and a write that leaves the transmit-ready handler alone. -/
theorem Acted.of_exec {i : Instr} {ch : Channel} {s u t : State} (h : exec i (s.on ch) = .next u)
    (hi : ch = .tx → takesNothing i) (ht : t = u.setClients t.clients)
    (hc : t.clients.transmitHandler = u.clients.transmitHandler) : Acted s t := by
  have hu : u.clients = s.clients := (exec_rest h).1
  refine ht ▸ .command h t.clients fun _ hp => ⟨?_, hi⟩
  rw [Clients.popping, ← hu, ← hc]
  exact hp

theorem Acted.of_exec_rx {i : Instr} {s u t : State} (h : exec i (s.on .rx) = .next u) (ht : t = u.setClients t.clients)
    (hc : t.clients.transmitHandler = u.clients.transmitHandler) : Acted s t :=
  .of_exec h nofun ht hc

/-- INIT of the transmit copy waits until the transmit-ready handler has popped (R170, R237). -/
theorem not_popping_of_quiescent {s : State} (hd : s.driver = .clients) (hq : (s.on .tx).quiescent = true) :
    ¬ s.clients.popping := by
  intro h
  simp [State.quiescent, hd, Clients.transmitActive, show s.clients.transmitHandler = .popping from h,
    TransmitHandler.commandPending] at hq

theorem acted_of_initStep {stage : InitStage} {cfg : Nat} {s t : State} (h : initStep stage cfg s = .next t) :
    Acted s t := by
  cases stage
  case resetRx =>
    obtain ⟨u, hu, h⟩ := continueWith_next.mp h
    cases h; exact .of_exec_rx (i := .init) hu rfl rfl
  case resetTx =>
    obtain ⟨u, hu, h⟩ := continueWith_next.mp h
    cases h
    have hq : (s.on .tx).quiescent = true := (execInit_next hu).2.1
    have hc : u.clients = s.clients := (exec_rest (i := .init) hu).1
    refine .command (i := .init) hu _ fun hd hp => absurd ?_ (not_popping_of_quiescent hd hq)
    rwa [← hc]
  all_goals (cases h; exact .of_setClients rfl rfl)

theorem acted_writeNext {s t : State} (bs : List Byte) (ht : t = s.setClients t.clients)
    (hc : t.clients.transmitHandler = s.clients.transmitHandler) : Acted s (t.writeNext bs) := by
  rw [ht]
  cases bs <;> exact .of_setClients rfl hc

theorem acted_of_mainlineStep {s t : State} (h : mainlineStep s = .next t) : Acted s t := by
  unfold mainlineStep at h
  split at h
  case isTrue => cases h
  case isFalse =>
    split at h
    case h_1 => cases h
    case h_2 => exact acted_of_initStep h
    case h_3 =>
      obtain ⟨u, hu, h⟩ := continueWith_next.mp (onceStarted_next.mp h).2
      split at h <;> (cases h; exact .of_exec_rx (i := .pop) hu rfl rfl)
    case h_4 => cases h; exact .of_setClients rfl rfl
    case h_5 b rest _ =>
      obtain ⟨u, hu, h⟩ := continueWith_next.mp (onceStarted_next.mp h).2
      have hi : takesNothing (.push b) := ⟨nofun, nofun, nofun⟩
      split at h <;> (cases h; exact .of_exec (i := .push b) hu (fun _ => hi) rfl rfl)
    case h_6 => cases h; exact acted_writeNext _ rfl rfl
    case h_7 =>
      obtain ⟨u, hu, h⟩ := continueWith_next.mp (onceStarted_next.mp h).2
      cases h; exact .of_exec_rx (i := .count) hu rfl rfl
    case h_8 =>
      obtain ⟨u, hu, h⟩ := continueWith_next.mp (onceStarted_next.mp h).2
      cases h; exact .of_exec_rx (i := .drain) hu rfl rfl

theorem acted_of_receiveHandlerStep {s t : State} (h : receiveHandlerStep s = .next t) : Acted s t := by
  unfold receiveHandlerStep at h
  split at h
  case h_1 => cases h
  case h_2 b k _ =>
    obtain ⟨u, hu, h⟩ := continueWith_next.mp (onceStarted_next.mp h).2
    cases h; exact .of_exec_rx (i := .push b) hu rfl rfl
  case h_3 => cases h; exact .of_setClients rfl rfl

theorem acted_of_transmitHandlerStep {s t : State} (h : transmitHandlerStep s = .next t) : Acted s t := by
  unfold transmitHandlerStep at h
  split at h
  case h_1 => cases h
  case h_2 =>
    obtain ⟨u, hu, h⟩ := continueWith_next.mp (onceStarted_next.mp h).2
    split at h
    · cases h; exact .command (i := .pop) hu _ fun _ => nofun
    · cases h
  case h_3 => cases h; exact .of_notPopping rfl nofun
  case h_4 => cases (whenReady_next.mp h).2; exact .of_notPopping rfl nofun

theorem acted_of_startCall {c : Call} {s t : State} (h : startCall c s = .next t) : Acted s t := by
  unfold startCall at h
  split at h
  case isTrue => cases h
  case isFalse =>
    split at h
    case isTrue => cases h
    case isFalse =>
      cases c with
      | init cfg => cases h; exact .of_setClients rfl rfl
      | writeString bs => cases (onceStarted_next.mp h).2; exact acted_writeNext bs rfl rfl
      | tryReadByte => cases (onceStarted_next.mp h).2; exact .of_setClients rfl rfl
      | writeByte b => cases (onceStarted_next.mp h).2; exact .of_setClients rfl rfl
      | bytesAvailable => cases (onceStarted_next.mp h).2; exact .of_setClients rfl rfl
      | flushReceive => cases (onceStarted_next.mp h).2; exact .of_setClients rfl rfl

theorem acted_of_receiveEvent {b : Byte} {st : HwStatus} {s t : State} (h : receiveEvent b st s = .next t) :
    Acted s t := by
  unfold receiveEvent at h
  split at h
  · split at h
    · cases (onceStarted_next.mp h).2; exact .of_setClients rfl rfl
    · cases h
  · cases h

/-- The handler starts towards its POP only where the event saw a byte (R179). -/
theorem acted_of_transmitReadyEvent {s t : State} (h : transmitReadyEvent s = .next t) : Acted s t := by
  unfold transmitReadyEvent at h
  split at h
  · split at h
    · obtain ⟨hr, h⟩ := whenReady_next.mp h
      cases (onceStarted_next.mp h).2
      cases he : s.tx.blk.empty with
      | true => exact .of_notPopping rfl nofun
      | false => exact .clients _ fun _ => .inr ⟨Fifo.ready_initDone hr, he⟩
    · cases h
  · cases h

/-- An idle command takes no byte. -/
theorem takesNothing_of_isIdle {i : Instr} (h : isIdle i = true) : takesNothing i := by
  refine ⟨?_, ?_, ?_⟩ <;> rintro rfl <;> cases h

/-- While the clients drive the inputs, only an idle command comes from outside (R210). -/
theorem acted_of_presentPorts {ch : Channel} {side : Side} {p : Ports} {s t : State}
    (h : presentPorts ch side p s = .next t) : Acted s t := by
  unfold presentPorts at h
  split at h
  case isFalse => cases h
  case isTrue hd =>
    refine .command h t.clients fun hc hp => ⟨?_, fun _ => takesNothing_of_isIdle ?_⟩
    · rw [Clients.popping, ← show t.clients = s.clients from (exec_rest h).1]; exact hp
    · simpa [hc] using hd

/-- What any input can do. -/
theorem acted_of_takeInput {inp : Input} {s t : State} (h : takeInput inp s = .next t) : Acted s t := by
  cases inp with
  | ports ch side p => exact acted_of_presentPorts h
  | syncH ch k => exact .syncH h
  | syncT ch k => exact .syncT h
  | call c => exact acted_of_startCall (asClient_next h).2
  | receive b st => exact acted_of_receiveEvent (asClient_next h).2
  | transmitReady => exact acted_of_transmitReadyEvent (asClient_next h).2
  | advance c =>
    have h := (asClient_next h).2
    cases c with
    | mainline => exact acted_of_mainlineStep h
    | receiveHandler => exact acted_of_receiveHandlerStep h
    | transmitHandler => exact acted_of_transmitHandlerStep h
  | globalInterrupts on => cases h; exact .of_setClients rfl rfl

/-- No agent changes the platform or who drives the inputs. -/
theorem Acted.schedule {s t : State} (h : Acted s t) : t.platform = s.platform ∧ t.driver = s.driver := by
  cases h with
  | clients => exact ⟨rfl, rfl⟩
  | command h =>
    obtain ⟨-, hp, hd, -⟩ := exec_rest h
    exact ⟨hp, hd⟩
  | syncH h => obtain ⟨-, b, o, -, rfl⟩ := command_next h; simp
  | syncT h => obtain ⟨-, b, o, -, rfl⟩ := command_next h; simp

/-! ### A byte in sight stays in sight until it is taken (R124). -/

section sync
variable {N : Nat} {b b' : Block N} {o : Outputs} {k : Nat}

/-- The consumer's view moves towards `head`, so away from `tail`. -/
theorem syncH_nonempty {S : Nat} (hl : b.crossing.legal S = true) (hs : Sound b) (he : b.empty = false)
    (h : b.syncH k = .next (b', o)) : b'.empty = false := by
  have hw := hs.walk
  rw [← Block.inv_walk hl hw] at hw
  obtain ⟨v, w, hc, -, hk, rfl, -⟩ := Block.syncH_next h
  have hv : b.headSeen = v := by rw [Block.headSeen, hc]; rfl
  rw [hv] at hw
  rw [nonempty_iff, hv] at he
  rw [nonempty_iff]
  show 0 < (dist b.tail (advance v k)).toNat
  rw [dist_advance_right b.tail v k (by omega)]
  omega

theorem syncT_nonempty (he : b.empty = false) (h : b.syncT k = .next (b', o)) : b'.empty = false := by
  obtain ⟨v, w, hc, -, -, rfl, -⟩ := Block.syncT_next h
  rw [Block.empty, Block.headSeen, hc] at he
  exact he

end sync

/-- A step of the crossing that leaves a byte in sight on its copy leaves one in sight on both. -/
theorem command_nonempty {s t : State} {f : Command} (h : s.command (fun _ b => b) f = .next t)
    (hf : ∀ {b o}, f s.fifo.N s.fifo.blk = .next (b, o) → s.fifo.blk.empty = false → b.empty = false)
    {ch : Channel} (he : (s.fifoOf ch).blk.empty = false) : (t.fifoOf ch).blk.empty = false := by
  obtain ⟨-, b, o, hb, rfl⟩ := command_next h
  by_cases hc : ch = s.sel
  · subst hc
    rw [State.after_fifoOf_same]
    exact hf hb he
  · rw [State.after_fifoOf_other _ _ _ hc]
    exact he

theorem sound_on {s : State} (hi : s.inv = true) {ch : Channel} (hr : (s.on ch).fifo.ready = true) :
    (s.on ch).fifo.blk.crossing.legal (s.on ch).fifo.S = true ∧ Sound (s.on ch).fifo.blk := by
  refine ⟨Fifo.legal_crossing (Fifo.ready_legal hr), sound_of_inv ?_ (Fifo.ready_initDone hr)⟩
  rw [State.on_fifo]
  exact (inv_fifo hi ch).2

theorem stepSyncH_on_nonempty {s t : State} {c : Channel} {k : Nat} (hi : s.inv = true)
    (h : stepSyncH k (s.on c) = .next t) (ch : Channel) (he : (s.fifoOf ch).blk.empty = false) :
    (t.fifoOf ch).blk.empty = false := by
  obtain ⟨hl, hs⟩ := sound_on hi (command_next h).1
  exact command_nonempty h (fun hb he => syncH_nonempty hl hs he hb) ((State.on_fifoOf s c ch).symm ▸ he)

theorem stepSyncT_on_nonempty {s t : State} {c : Channel} {k : Nat}
    (h : stepSyncT k (s.on c) = .next t) (ch : Channel) (he : (s.fifoOf ch).blk.empty = false) :
    (t.fifoOf ch).blk.empty = false :=
  command_nonempty h (fun hb he => syncT_nonempty he hb) ((State.on_fifoOf s c ch).symm ▸ he)

/-- A command hides the byte in sight on the transmit copy only if it is one that takes a byte there. -/
theorem exec_on_tx_nonempty {i : Instr} {s t : State} {c : Channel} (hs : Sound s.tx.blk)
    (hn : c = .tx → takesNothing i) (h : exec i (s.on c) = .next t) (he : s.tx.blk.empty = false) :
    t.tx.blk.empty = false := by
  by_cases hc : c = .tx
  · subst hc
    exact exec_on_nonempty (ch := .tx) (hn rfl) hs he h
  · have e : t.tx = s.tx := exec_on_other (c := .tx) (Ne.symm hc) h
    rwa [e]

/-! ### The invariant of the machine. -/

/-- R124, in words: where the clients drive the inputs, a handler about to pop has a byte in sight. -/
theorem popReady_iff {s : State} :
    s.popReady = true ↔ (s.driver = .clients → s.clients.popping → s.byteInSight) := by
  unfold State.popReady State.byteInSight Clients.popping
  cases s.driver <;> by_cases hp : s.clients.transmitHandler = .popping <;> simp [hp]

theorem inv_iff {s : State} :
    s.inv = true ↔ (∀ ch, (s.fifoOf ch).legal = true ∧ (s.fifoOf ch).blk.inv = true) ∧ s.popReady = true := by
  constructor
  · intro h
    refine ⟨inv_fifo h, ?_⟩
    simp only [State.inv, Bool.and_eq_true] at h
    exact h.2
  · rintro ⟨h, hp⟩
    obtain ⟨hrl, hri⟩ := h .rx
    obtain ⟨htl, hti⟩ := h .tx
    simp only [State.fifoOf_rx, State.fifoOf_tx] at hrl hri htl hti
    simp [State.inv, hrl, hri, htl, hti, hp]

/-- Whatever an agent does, a handler that is about to pop after it has a byte in sight. -/
theorem Acted.popReady {s t : State} (h : Acted s t) (ht : Touched s t) (hi : s.inv = true) : t.popReady = true := by
  obtain ⟨hf, hp⟩ := inv_iff.mp hi
  rw [popReady_iff] at hp ⊢
  obtain ⟨-, hdrv⟩ := h.schedule
  rw [hdrv]
  intro hd hpop
  have keep (hb : s.byteInSight) (he : s.tx.blk.empty = false → t.tx.blk.empty = false) : t.byteInSight :=
    ⟨touched_initDone ht .tx hb.1, he hb.2⟩
  cases h with
  | clients c hc =>
    rcases hc hpop with hs | hs
    · exact hp hd hs
    · exact hs
  | @command _ _ u hx c hc =>
    obtain ⟨hs, hn⟩ := hc hd hpop
    have hb := hp hd hs
    exact keep hb (exec_on_tx_nonempty (t := u) (sound_of_inv (hf .tx).2 hb.1) hn hx)
  | syncH hx =>
    have hc : t.clients = s.clients := by obtain ⟨-, b, o, -, rfl⟩ := command_next hx; simp
    exact keep (hp hd (hc ▸ hpop)) (stepSyncH_on_nonempty hi hx .tx)
  | syncT hx =>
    have hc : t.clients = s.clients := by obtain ⟨-, b, o, -, rfl⟩ := command_next hx; simp
    exact keep (hp hd (hc ▸ hpop)) (stepSyncT_on_nonempty hx .tx)

theorem acted_inv {s t : State} (h : Acted s t) (ht : Touched s t) (hi : s.inv = true) : t.inv = true :=
  inv_iff.mpr ⟨fun ch => touched_inv ht ch (inv_fifo hi ch).1 (inv_fifo hi ch).2, h.popReady ht hi⟩

/-- Letting the views settle brings bytes in sight and hides none. -/
theorem settle_keeps_inv {t : State} (hi : t.inv = true) : (settle t).inv = true := by
  obtain ⟨hf, hp⟩ := inv_iff.mp hi
  refine inv_iff.mpr ⟨fun ch => settle_inv ch (hf ch).1 (hf ch).2, ?_⟩
  rw [popReady_iff] at hp ⊢
  intro hd hpop
  obtain ⟨hdone, he⟩ := hp (settle_driver t ▸ hd) (settle_clients t ▸ hpop)
  refine ⟨(settle_initDone t .tx).trans hdone, ?_⟩
  rw [← State.fifoOf_tx, settle_fifoOf]
  cases t.platform with
  | singleProcessor => exact caughtUp_nonempty (Fifo.legal_crossing (hf .tx).1) (sound_of_inv (hf .tx).2 hdone) he
  | twoDomains => exact he

theorem stepWith_keeps_inv {inp : Input} {s t : State} (hi : s.inv = true) (h : stepWith inp s = .next t) :
    t.inv = true := by
  obtain ⟨u, hu, rfl⟩ := stepWith_next.mp h
  exact settle_keeps_inv (acted_inv (acted_of_takeInput hu) (touched_of_takeInput hu) hi)

theorem step_keeps_inv {s t : State} (hi : s.inv = true) (h : step s = .next t) : t.inv = true := by
  rcases step_next h with ⟨-, rfl⟩ | ⟨inp, rest, -, h⟩
  · exact hi
  · exact stepWith_keeps_inv (s := s.setInputs rest) hi h

end Sys2Proof.Machine

open Sys2Proof Sys2Proof.Machine

/-- Settles O33: a step is idle or an agent's, settled; each block stays sound, and a byte the transmit-ready handler saw
stays in sight until its own POP. -/
theorem everyStepKeepsTheInvariant : Obligations.EveryStepKeepsTheInvariant :=
  fun _ _ => step_keeps_inv
end


section
/-! SUPPORT. What an implementation fixed stays fixed (R29): the sizes and the level of each copy, the platform and the
driver. -/

namespace Sys2Proof.Machine

/-! ### The level of a block. -/

section level
variable {N : Nat} (b : Block N)

@[simp] theorem Block.producerEdge_isArchitectural : b.producerEdge.isArchitectural = b.isArchitectural := by
  unfold Block.isArchitectural Block.producerEdge; cases b.crossing <;> rfl

@[simp] theorem Block.consumerEdge_isArchitectural : b.consumerEdge.isArchitectural = b.isArchitectural := by
  unfold Block.isArchitectural Block.consumerEdge; cases b.crossing <;> rfl

@[simp] theorem Block.init_isArchitectural : b.init.isArchitectural = b.isArchitectural := by
  unfold Block.isArchitectural Block.init; cases b.crossing <;> rfl

@[simp] theorem Block.caughtUp_isArchitectural : b.caughtUp.isArchitectural = b.isArchitectural := by
  unfold Block.isArchitectural Block.caughtUp; cases b.crossing <;> rfl

@[simp] theorem Block.push_isArchitectural (d : Byte) : (b.push d).1.isArchitectural = b.isArchitectural := by
  unfold Block.push; split <;> rfl

end level

/-- A block stays at the level it was built at. -/
theorem blockStep_isArchitectural {N : Nat} {b b' : Block N} {o : Outputs} (h : BlockStep b o b') :
    b'.isArchitectural = b.isArchitectural := by
  cases h with
  | pNop => simp
  | push d => simp
  | cNop => simp
  | pop hp =>
    rcases Block.pop_next hp with ⟨-, rfl, -⟩ | ⟨v, -, -, rfl, -⟩
    · simp
    · exact Block.consumerEdge_isArchitectural _
  | drain => exact Block.consumerEdge_isArchitectural _
  | count => simp
  | init => simp
  | syncH k hk => obtain ⟨v, w, hc, -, -, rfl, -⟩ := Block.syncH_next hk; simp [Block.isArchitectural, hc]
  | syncT k hk => obtain ⟨v, w, hc, -, -, rfl, -⟩ := Block.syncT_next hk; simp [Block.isArchitectural, hc]

/-! ### How a copy is built. -/

/-- What is fixed when a copy is built: `N`, `S` and the level. -/
def Fifo.build (q : Fifo) : Nat × Nat × Bool := (q.N, q.S, q.blk.isArchitectural)

theorem touched_build {s t : State} (h : Touched s t) (ch : Channel) : (t.fifoOf ch).build = (s.fifoOf ch).build := by
  rcases h with h | ⟨c, h⟩
  · cases ch with
    | rx => exact congrArg Fifo.build h.rx
    | tx => exact congrArg Fifo.build h.tx
  · by_cases e : ch = c
    · subst e
      obtain ⟨b', e, hb, -⟩ := h.blk
      rw [e, Fifo.build, Fifo.build, blockStep_isArchitectural hb]
    · rw [h.other ch e]

theorem settle_build (t : State) (ch : Channel) : ((settle t).fifoOf ch).build = (t.fifoOf ch).build := by
  rw [settle_fifoOf]
  cases t.platform with
  | singleProcessor => simp [Platform.settled, Fifo.build, Fifo.caughtUp]
  | twoDomains => rfl

theorem stepWith_keeps_configuration {inp : Input} {s t : State} (h : stepWith inp s = .next t) (ch : Channel) :
    (t.fifoOf ch).build = (s.fifoOf ch).build ∧ t.platform = s.platform ∧ t.driver = s.driver := by
  obtain ⟨u, hu, rfl⟩ := stepWith_next.mp h
  obtain ⟨hp, hd⟩ := (acted_of_takeInput hu).schedule
  refine ⟨(settle_build u ch).trans ((touched_build (touched_of_takeInput hu) ch).trans ?_), ?_, ?_⟩
  · rw [State.setOut_fifoOf]
  · rw [settle_platform, hp, State.setOut_platform]
  · rw [settle_driver, hd, State.setOut_driver]

theorem step_keeps_configuration {s t : State} (h : step s = .next t) (ch : Channel) :
    (t.fifoOf ch).build = (s.fifoOf ch).build ∧ t.platform = s.platform ∧ t.driver = s.driver := by
  rcases step_next h with ⟨-, rfl⟩ | ⟨inp, rest, -, h⟩
  · rw [State.setOut_fifoOf]; exact ⟨rfl, rfl, rfl⟩
  · have := stepWith_keeps_configuration h ch
    rwa [State.setInputs_fifoOf] at this

end Sys2Proof.Machine

open Sys2Proof Sys2Proof.Machine

/-- Settles O37: no step of a block changes how its copy is built, no agent changes the platform or the driver, and
settling moves views only. -/
theorem configurationNeverChanges : Obligations.ConfigurationNeverChanges := by
  unfold Obligations.ConfigurationNeverChanges
  intro s t ch h
  obtain ⟨hb, hp, hd⟩ := step_keeps_configuration h ch
  simp only [Fifo.build, Prod.mk.injEq] at hb
  obtain ⟨hN, hS, hlevel⟩ := hb
  exact ⟨hN, hS, hlevel, hp, hd⟩
end

section
/-! SUPPORT. What the invariant says of the views, the flags and the unread slots (R23, R24, R26, R27, R54). -/

namespace Sys2Proof.Machine

variable {N : Nat} {b : Block N}

/-! ### The two arcs. -/

/-- R24, R26: from the producer's view of `tail` to `tail` and on to `head` is less than a turn of the ring. -/
theorem Sound.arc_lt {S : Nat} (hl : b.crossing.legal S = true) (hs : Sound b) :
    (dist b.tailSeen b.tail).toNat + (dist b.tail b.head).toNat < 2 ^ N := by
  have hw := Block.inv_walk hl hs.walk
  have ho : (dist b.tail b.head).toNat = _ := Block.occupancy_eq hl hs.walk
  have := hs.walk
  omega

/-- R23: the consumer's view of `head` lies between `tail` and `head`. -/
theorem Sound.available_le {S : Nat} (hl : b.crossing.legal S = true) (hs : Sound b) :
    (dist b.tail b.headSeen).toNat ≤ (dist b.tail b.head).toNat := by
  have ho : (dist b.tail b.head).toNat = _ := Block.occupancy_eq hl hs.walk
  omega

/-- With every usable slot taken, the producer's view has nowhere to lie but at `tail`. -/
theorem Sound.full_of_inc_head {S : Nat} (hN : 0 < N) (hl : b.crossing.legal S = true) (hs : Sound b)
    (h : inc b.head = b.tail) : b.full = true := by
  have hocc := (inc_eq_iff hN).mp h
  have harc := hs.arc_lt hl
  have hview : b.tailSeen = b.tail := Decidable.byContradiction fun hne => by
    have := dist_toNat_pos hne
    omega
  rw [Block.full_iff, h, hview]

/-- With no byte unread, the consumer's view has nowhere to lie but at `tail`. -/
theorem Sound.empty_of_head {S : Nat} (hl : b.crossing.legal S = true) (hs : Sound b) (h : b.head = b.tail) :
    b.empty = true := by
  have hle := hs.available_le hl
  rw [h, dist_self, BitVec.ofNat_eq_ofNat, BitVec.toNat_zero] at hle
  rw [Block.empty_iff]
  refine Decidable.byContradiction fun hne => ?_
  have := dist_toNat_pos (Ne.symm hne)
  omega

/-! ### The unread slots. -/

theorem Block.slot_zero (b : Block N) : b.slot 0 = inc b.tail := (inc_eq_advance b.tail).symm

theorem Block.occupancy_lt (b : Block N) : b.occupancy < 2 ^ N := dist_lt b.tail b.head

/-- No unread slot is the slot at `tail`. -/
theorem Block.slot_ne_tail (b : Block N) {i : Nat} (hi : i < b.occupancy) : b.slot i ≠ b.tail := by
  intro h
  have hocc := b.occupancy_lt
  have := advance_inj (k := 0) (by omega) (by omega) (h.trans (advance_zero b.tail).symm)
  omega

/-- The youngest unread slot is the one at `head`. -/
theorem Block.slot_last (b : Block N) (h : 0 < b.occupancy) : b.slot (b.occupancy - 1) = b.head := by
  rw [Block.slot, Nat.sub_add_cancel h]
  exact advance_dist b.tail b.head

/-- Every unread slot gives a byte, so there are as many bytes as unread slots. -/
theorem Sound.contents_length (hs : Sound b) : b.contents.length = b.occupancy := by
  rw [Block.contents, List.length_filterMap_eq_countP, List.countP_eq_length.mpr, List.length_range]
  exact fun i hi => hs.written i (List.mem_range.mp hi)

end Sys2Proof.Machine

open Sys2Proof Sys2Proof.Machine

/-- Settles O35: the walk through the views does not lap the ring, so its stretches add up. -/
theorem viewsAndOccupancyStayInBounds : Obligations.ViewsAndOccupancyStayInBounds := by
  unfold Obligations.ViewsAndOccupancyStayInBounds
  intro q hl hi hd
  have hs := sound_of_inv hi hd
  have hc := Fifo.legal_crossing hl
  have harc := hs.arc_lt hc
  exact ⟨hs.available_le hc, Nat.le_sub_one_of_lt harc, dist_trans _ _ _ harc, hs.contents_length, q.blk.slot_zero,
    fun i => q.blk.slot_ne_tail, q.blk.slot_last⟩

/-- Settles O36: where no slot is free or none is taken, the invariant leaves the view of the flag one place. -/
theorem flagsArePessimistic : Obligations.FlagsArePessimistic := by
  unfold Obligations.FlagsArePessimistic
  intro q hl hi hd
  have hs := sound_of_inv hi hd
  have hc := Fifo.legal_crossing hl
  exact ⟨hs.full_of_inc_head (Fifo.legal_pos hl) hc, hs.empty_of_head hc⟩
end

section
/-! SUPPORT. The launched gray registers (R32 (d), R142, R147): a step of the ring changes one bit of the code, and a
clock edge takes a launched register at most one step. -/

namespace Sys2Proof.Machine

variable {N : Nat}

/-! ### Neighbouring codes. -/

theorem gray_getLsbD (b : BitVec N) (i : Nat) : (gray b).getLsbD i = (b.getLsbD i ^^ b.getLsbD (i + 1)) := by
  simp [gray, Nat.add_comm 1 i]

/-- Counting up carries into bit `i`: every bit below it is 1. -/
def CarriesInto (b : BitVec N) (i : Nat) : Prop := i < N ∧ ∀ j < i, b.getLsbD j = true

theorem CarriesInto.mono {b : BitVec N} {i j : Nat} (h : CarriesInto b j) (hij : i ≤ j) : CarriesInto b i :=
  ⟨Nat.lt_of_le_of_lt hij h.1, fun k hk => h.2 k (Nat.lt_of_lt_of_le hk hij)⟩

/-- Counting up flips the bits it carries into. -/
theorem inc_getLsbD_ne (b : BitVec N) (i : Nat) : (inc b).getLsbD i ≠ b.getLsbD i ↔ CarriesInto b i := by
  have hinc : inc b = -(~~~b) := by rw [BitVec.neg_eq_not_add, BitVec.not_not]; rfl
  by_cases hi : i < N
  · have hcarry : (∃ j < i, (~~~b).getLsbD j = true) ↔ ¬ CarriesInto b i := by
      simp only [CarriesInto, hi, true_and, Classical.not_forall, exists_prop, Bool.not_eq_true, BitVec.getLsbD_not, Bool.and_eq_true,
        decide_eq_true_eq, Bool.not_eq_true']
      constructor
      · rintro ⟨j, hj, -, hb⟩; exact ⟨j, hj, hb⟩
      · rintro ⟨j, hj, hb⟩; exact ⟨j, hj, by omega, hb⟩
    rw [hinc, BitVec.getLsbD_neg, BitVec.getLsbD_not]
    by_cases hz : ∃ j < i, (~~~b).getLsbD j = true
    · rw [decide_eq_true hz]; simp [hi, hcarry.mp hz]
    · rw [decide_eq_false hz]; simp [hi, Classical.not_not.mp (mt hcarry.mpr hz)]
  · simp [CarriesInto, hi, BitVec.getLsbD_of_ge _ _ (Nat.le_of_not_lt hi)]

/-- The code of the next position differs in the last bit that counting up carries into. -/
theorem gray_inc_getLsbD_ne (b : BitVec N) (i : Nat) :
    (gray b).getLsbD i ≠ (gray (inc b)).getLsbD i ↔ CarriesInto b i ∧ ¬ CarriesInto b (i + 1) := by
  have hmono : CarriesInto b (i + 1) → CarriesInto b i := fun h => h.mono (Nat.le_succ i)
  simp only [gray_getLsbD, ← inc_getLsbD_ne] at hmono ⊢
  revert hmono
  generalize b.getLsbD i = x, b.getLsbD (i + 1) = y, (inc b).getLsbD i = x', (inc b).getLsbD (i + 1) = y'
  revert x y x' y'
  decide

/-- The carry of one count stops at one place. -/
theorem carry_stops_once (hN : 0 < N) (b : BitVec N) :
    ∃ n < N, ∀ i, CarriesInto b i ∧ ¬ CarriesInto b (i + 1) ↔ i = n := by
  have hex : ∃ n, CarriesInto b n ∧ ¬ CarriesInto b (n + 1) := Classical.byContradiction fun h => by
    have hall : ∀ n, CarriesInto b n := by
      intro n
      induction n with
      | zero => exact ⟨hN, nofun⟩
      | succ n ih => exact Classical.not_not.mp fun hn => h ⟨n, ih, hn⟩
    exact Nat.lt_irrefl N (hall N).1
  obtain ⟨n, hinto, hstop⟩ := hex
  refine ⟨n, hinto.1, fun i => ⟨?_, ?_⟩⟩
  · rintro ⟨hi, hi'⟩
    rcases Nat.lt_trichotomy i n with h | h | h
    · exact absurd (hinto.mono h) hi'
    · exact h
    · exact absurd (hi.mono h) hstop
  · rintro rfl
    exact ⟨hinto, hstop⟩

/-- R142: the codes of neighbouring positions differ in exactly one bit, at the wrap too. -/
theorem gray_inc_differs_in_one_bit (hN : 0 < N) (b : BitVec N) :
    ∃ n < N, ∀ i, (gray b).getLsbD i ≠ (gray (inc b)).getLsbD i ↔ i = n := by
  simp only [gray_inc_getLsbD_ne]
  exact carry_stops_once hN b

/-! ### Registers that move one bit at a time. -/

/-- The two words differ in one bit at most. -/
def WithinOneBit (w w' : BitVec N) : Prop := ∃ n, ∀ j, j ≠ n → w'.getLsbD j = w.getLsbD j

theorem WithinOneBit.refl (w : BitVec N) : WithinOneBit w w := ⟨0, fun _ _ => rfl⟩

theorem withinOneBit_gray_inc (hN : 0 < N) (b : BitVec N) : WithinOneBit (gray b) (gray (inc b)) := by
  obtain ⟨n, -, hn⟩ := gray_inc_differs_in_one_bit hN b
  exact ⟨n, fun j hj => Decidable.not_not.mp fun hne => hj ((hn j).mp (Ne.symm hne))⟩

/-- R147: the walking register moves one position at most, however far `tail` jumped. -/
theorem withinOneBit_walk (hN : 0 < N) (tg t' : BitVec N) : WithinOneBit tg (walk tg t') := by
  unfold walk
  split
  · exact .refl tg
  · have := withinOneBit_gray_inc hN (ungray tg)
    rwa [gray_ungray] at this

/-- Each launched register of the crossing moved by one bit at most. An architectural crossing has none. -/
def Crossing.LaunchesWithinOneBit (c c' : Crossing N) : Prop :=
  ∀ hg tg hs ts hg' tg' hs' ts', c = .clocked hg tg hs ts → c' = .clocked hg' tg' hs' ts' →
    WithinOneBit hg hg' ∧ WithinOneBit tg tg'

/-- A producer edge launches the code of `head'`, from the code of `head`. -/
theorem producerEdge_launches {b : Block N} (hcoded : b.headCoded = true) {h' : BitVec N}
    (hh : WithinOneBit (gray b.head) (gray h')) : b.crossing.LaunchesWithinOneBit (b.crossing.producerEdge h') := by
  intro hg tg hs ts hg' tg' hs' ts' hc hc'
  rw [hc, Crossing.producerEdge] at hc'
  cases hc'
  rw [(Block.headCoded_iff b).mp hcoded _ _ _ _ hc]
  exact ⟨hh, .refl tg⟩

/-- A consumer edge lets `tail_gray` walk, wherever the command left `tail`. -/
theorem consumerEdge_launches (hN : 0 < N) (c : Crossing N) (t' : BitVec N) :
    c.LaunchesWithinOneBit (c.consumerEdge t') := by
  intro hg tg hs ts hg' tg' hs' ts' hc hc'
  rw [hc, Crossing.consumerEdge] at hc'
  cases hc'
  exact ⟨.refl hg, withinOneBit_walk hN tg t'⟩

/-- No command but INIT moves a launched register by more than one bit. -/
theorem exec_launches {i : Instr} {s t : State} (hi : i ≠ .init) (hinv : s.fifo.blk.inv = true)
    (h : exec i s = .next t) :
    ∃ b' : Block s.fifo.N, t.fifo = { s.fifo with blk := b' } ∧
      s.fifo.blk.crossing.LaunchesWithinOneBit b'.crossing := by
  have hr := exec_ready hi h
  have hN := Fifo.legal_pos (Fifo.ready_legal hr)
  have hcoded := (sound_of_inv hinv (Fifo.ready_initDone hr)).coded
  cases hp : i.port with
  | pcmd =>
    obtain ⟨-, b, o, rfl, ⟨rfl, -⟩ | ⟨d, -, -, rfl, -⟩⟩ := exec_producer hp h
    · exact ⟨_, State.after_fifo .., producerEdge_launches hcoded (.refl _)⟩
    · exact ⟨_, State.after_fifo .., producerEdge_launches hcoded (withinOneBit_gray_inc hN _)⟩
  | ccmd =>
    obtain ⟨-, j, o, rfl, -, -, -⟩ := exec_consumer hp h
    exact ⟨_, State.after_fifo .., consumerEdge_launches hN _ _⟩
  | init => cases i <;> simp [Instr.port] at hp hi

end Sys2Proof.Machine

open Sys2Proof Sys2Proof.Machine

/-- Settles O26: `head` moves one position at most and its code is launched as it stands; `tail_gray` walks. -/
theorem launchedRegistersMoveOneBitAtATime : Obligations.LaunchedRegistersMoveOneBitAtATime := by
  unfold Obligations.LaunchedRegistersMoveOneBitAtATime
  intro i s t b' hg tg hg' tg' hs ts hs' ts' hi hinv hc h ht hc'
  obtain ⟨b, hb, hl⟩ := exec_launches hi hinv h
  obtain rfl : b' = b := by simpa using ht.symm.trans hb
  exact hl _ _ _ _ _ _ _ _ hc hc'
end

section
/-! SUPPORT. The two views and the pointers they follow (R60, R61, R143, R144), said once for both sides: how far a view
lags, that no step of an architectural copy lets it fall back, and that a weakly fair crossing brings it up. -/

namespace Sys2Proof.Machine

/-! ### A view and its pointer. -/

section lag
variable {N : Nat} (b : Block N) (side : Side)

/-- The pointer of the other side that `side` watches (R211). -/
def Block.watched : BitVec N :=
  match side with
  | .producer => b.tail
  | .consumer => b.head

/-- The view that `side` has of it (R23, R24). -/
def Block.view : BitVec N :=
  match side with
  | .producer => b.tailSeen
  | .consumer => b.headSeen

/-- How far the view is behind. -/
def Block.lag : Nat := (dist (b.view side) (b.watched side)).toNat

/-- The SYNC step that moves the view (R143, R144). -/
def Block.sync (k : Nat) : Host.Outcome (Block N × Outputs) Fault Refusal :=
  match side with
  | .producer => b.syncT k
  | .consumer => b.syncH k

theorem Block.lag_eq_zero : b.lag side = 0 ↔ b.view side = b.watched side := by
  rw [← dist_eq_zero, ← BitVec.toNat_inj, Block.lag]
  simp

/-- INIT brings every view to its pointer. -/
theorem Block.init_lag : b.init.lag side = 0 := by
  rw [Block.lag_eq_zero]
  cases side with
  | producer => exact b.init_tailSeen
  | consumer => exact b.init_headSeen

/-- So does the catch-up; a clocked copy has none. -/
theorem Block.caughtUp_lag_le : b.caughtUp.lag side ≤ b.lag side := by
  cases hc : b.crossing with
  | architectural h t =>
    have hz : b.caughtUp.lag side = 0 := by
      rw [Block.lag_eq_zero]
      cases side <;>
        simp [Block.view, Block.watched, Block.headSeen, Block.tailSeen, Block.caughtUp, hc, Crossing.caughtUp,
          Crossing.headSeen, Crossing.tailSeen]
    omega
  | clocked hg tg hs ts =>
    have he : b.caughtUp = b := by cases b; cases hc; rfl
    exact Nat.le_of_eq (by rw [he])

end lag

section blocks
variable {N : Nat} {b b' : Block N} {o : Outputs} {side : Side} {k : Nat}

theorem view_of_crossing (h : b'.crossing = b.crossing) : b'.view side = b.view side := by
  cases side <;> simp [Block.view, Block.headSeen, Block.tailSeen, h]

/-- A view that moves at most up to a pointer that stays lags no more than before. -/
theorem lag_of_advance (hk : k ≤ b.lag side) (hv : b'.view side = advance (b.view side) k)
    (hw : b'.watched side = b.watched side) : b'.lag side = b.lag side - k := by
  rw [Block.lag, hv, hw]
  exact dist_advance_left _ _ k hk

/-- A SYNC step moves its own view towards the pointer, by at least one slot, and no pointer. -/
theorem sync_next (h : b.sync side k = .next (b', o)) :
    1 ≤ k ∧ k ≤ b.lag side ∧ b'.view side = advance (b.view side) k ∧ b'.watched side = b.watched side := by
  cases side with
  | producer =>
    obtain ⟨v, w, hc, h1, hk, rfl, -⟩ := Block.syncT_next h
    simp only [Block.lag, Block.view, Block.watched, Block.tailSeen, hc]
    exact ⟨h1, hk, rfl, trivial⟩
  | consumer =>
    obtain ⟨v, w, hc, h1, hk, rfl, -⟩ := Block.syncH_next h
    simp only [Block.lag, Block.view, Block.watched, Block.headSeen, hc]
    exact ⟨h1, hk, rfl, trivial⟩

/-- A SYNC step leaves the other side's view. -/
theorem sync_other_view {other : Side} (hne : side ≠ other) (h : b.sync other k = .next (b', o)) :
    b'.view side = b.view side := by
  cases other with
  | producer =>
    obtain ⟨v, w, hc, -, -, rfl, -⟩ := Block.syncT_next h
    cases side with
    | producer => exact absurd rfl hne
    | consumer => simp [Block.view, Block.headSeen, hc, Crossing.headSeen]
  | consumer =>
    obtain ⟨v, w, hc, -, -, rfl, -⟩ := Block.syncH_next h
    cases side with
    | producer => simp [Block.view, Block.tailSeen, hc, Crossing.tailSeen]
    | consumer => exact absurd rfl hne

/-- A SYNC step by up to the lag of its view is enabled. -/
theorem sync_enabled (ha : b.isArchitectural = true) (h1 : 1 ≤ k) (hk : k ≤ b.lag side) :
    ∃ r, b.sync side k = .next r := by
  cases hc : b.crossing with
  | clocked hg tg hs ts => simp [Block.isArchitectural, hc] at ha
  | architectural v w =>
    cases side with
    | producer =>
      simp only [Block.lag, Block.view, Block.watched, Block.tailSeen, hc] at hk
      exact ⟨_, by simp only [Block.sync, Block.syncT, hc]; exact if_pos ⟨h1, hk⟩⟩
    | consumer =>
      simp only [Block.lag, Block.view, Block.watched, Block.headSeen, hc] at hk
      exact ⟨_, by simp only [Block.sync, Block.syncH, hc]; exact if_pos ⟨h1, hk⟩⟩

@[simp] theorem Block.push_crossing (d : Byte) : (b.push d).1.crossing = b.crossing := by
  unfold Block.push; split <;> rfl

/-- At the architectural level a step of a block is an INIT, or moves a view at most up to its pointer. -/
theorem blockStep_view (side : Side) (ha : b.isArchitectural = true) (h : BlockStep b o b') :
    b' = b.init ∨ ∃ k ≤ b.lag side, b'.view side = advance (b.view side) k := by
  have still {b'} (hv : b'.view side = b.view side) :
      b' = b.init ∨ ∃ k ≤ b.lag side, b'.view side = advance (b.view side) k :=
    .inr ⟨0, Nat.zero_le _, by rw [hv, advance_zero]⟩
  have sync {other k b' o} (h : b.sync other k = .next (b', o)) :
      b' = b.init ∨ ∃ k ≤ b.lag side, b'.view side = advance (b.view side) k := by
    by_cases hs : side = other
    · subst hs
      obtain ⟨-, hk, hv, -⟩ := sync_next h
      exact .inr ⟨_, hk, hv⟩
    · exact still (sync_other_view hs h)
  have edge (t' : BitVec N) : ({ b with tail := t' } : Block N).consumerEdge.view side = b.view side := by
    rw [Block.consumerEdge_architectural (b := { b with tail := t' }) ha]
    exact view_of_crossing rfl
  cases h with
  | pNop => exact still (by rw [Block.producerEdge_architectural ha])
  | push d =>
    refine still ?_
    rw [Block.producerEdge_architectural (by simpa using ha)]
    exact view_of_crossing (Block.push_crossing d)
  | cNop => exact still (edge b.tail)
  | pop hp =>
    rcases Block.pop_next hp with ⟨-, rfl, -⟩ | ⟨v, -, -, rfl, -⟩
    · exact still (edge _)
    · exact still (edge _)
  | drain => exact still (edge b.headSeen)
  | count => exact still (edge b.tail)
  | init => exact .inl rfl
  | syncH k hk => exact sync (other := .consumer) hk
  | syncT k hk => exact sync (other := .producer) hk

/-- So a view does not fall back while its pointer stays. -/
theorem blockStep_lag_le (ha : b.isArchitectural = true) (h : BlockStep b o b')
    (hw : b'.watched side = b.watched side) : b'.lag side ≤ b.lag side := by
  rcases blockStep_view side ha h with rfl | ⟨k, hk, hv⟩
  · rw [Block.init_lag]; exact Nat.zero_le _
  · rw [lag_of_advance hk hv hw]; exact Nat.sub_le _ _

end blocks

/-! ### Steps of the machine. -/

/-- The SYNC step of `side` on `ch`, as an input. -/
def syncInput (ch : Channel) (side : Side) : Nat → Input :=
  match side with
  | .producer => .syncT ch
  | .consumer => .syncH ch

/-- Where a command's effect is known, it runs. -/
theorem command_of_next {s : State} {edge : (N : Nat) → Block N → Block N} {f : Command} {b : Block s.fifo.N}
    {o : Outputs} (hr : s.fifo.ready = true) (hf : f s.fifo.N s.fifo.blk = .next (b, o)) :
    s.command edge f = .next (s.after (edge _ b) o) := by
  rw [command_eq s edge f hr, hf]

theorem takeInput_syncInput (ch : Channel) (side : Side) (k : Nat) (s : State) :
    takeInput (syncInput ch side k) s = (s.on ch).command (fun _ b => b) fun _ b => b.sync side k := by
  cases side <;> rfl

section steps
variable {s t : State} {ch : Channel} {side : Side}

/-- What a step of the machine does to one copy: nothing, or one step of its block. -/
theorem touched_copy (h : Touched s t) (ch : Channel) :
    t.fifoOf ch = s.fifoOf ch ∨
      ∃ o b', t.fifoOf ch = { s.fifoOf ch with blk := b' } ∧ BlockStep (s.fifoOf ch).blk o b' := by
  rcases h with h | ⟨c, h⟩
  · cases ch with
    | rx => exact .inl h.rx
    | tx => exact .inl h.tx
  · by_cases e : ch = c
    · subst e
      obtain ⟨b', e, hb, -⟩ := h.blk
      exact .inr ⟨_, b', e, hb⟩
    · exact .inl (h.other ch e)

theorem settled_watched (p : Platform) (q : Fifo) :
    ((p.settled q).blk.watched side).toNat = (q.blk.watched side).toNat := by
  obtain ⟨c, h⟩ := settled_moves_views p q
  rw [h]
  cases side <;> rfl

theorem settle_lag_le (u : State) : ((settle u).fifoOf ch).blk.lag side ≤ (u.fifoOf ch).blk.lag side := by
  rw [settle_fifoOf]
  cases u.platform with
  | singleProcessor => exact Block.caughtUp_lag_le _ side
  | twoDomains => exact Nat.le_refl _

/-- A step of the machine lets no view of an architectural copy fall back while its pointer stays. -/
theorem stepWith_lag_le {inp : Input} (h : stepWith inp s = .next t) (ha : (s.fifoOf ch).blk.isArchitectural = true)
    (hw : ((t.fifoOf ch).blk.watched side).toNat = ((s.fifoOf ch).blk.watched side).toNat) :
    (t.fifoOf ch).blk.lag side ≤ (s.fifoOf ch).blk.lag side := by
  obtain ⟨u, hu, rfl⟩ := stepWith_next.mp h
  rw [settle_fifoOf, settled_watched] at hw
  refine Nat.le_trans (settle_lag_le u) ?_
  rw [← State.setOut_fifoOf s {} ch] at ha hw ⊢
  rcases touched_copy (touched_of_takeInput hu) ch with e | ⟨o, b', e, hb⟩
  · exact Nat.le_of_eq (by rw [e])
  · rw [e] at hw ⊢
    exact blockStep_lag_le ha hb (BitVec.eq_of_toNat_eq hw)

/-- A SYNC step that is taken brings its view nearer. -/
theorem stepWith_sync_lag_lt {k : Nat} (h : stepWith (syncInput ch side k) s = .next t) :
    (t.fifoOf ch).blk.lag side < (s.fifoOf ch).blk.lag side := by
  obtain ⟨u, hu, rfl⟩ := stepWith_next.mp h
  refine Nat.lt_of_le_of_lt (settle_lag_le u) ?_
  rw [takeInput_syncInput] at hu
  obtain ⟨-, b, o, hb, rfl⟩ := command_next hu
  obtain ⟨h1, hk, hv, hw⟩ := sync_next hb
  have hk : k ≤ (s.fifoOf ch).blk.lag side := hk
  have hlag : b.lag side = (s.fifoOf ch).blk.lag side - k := lag_of_advance hk hv hw
  have e : (((s.setOut {}).on ch).after b o).fifoOf ch = { s.fifoOf ch with blk := b } := State.after_fifoOf_same _ b o
  rw [e]
  show b.lag side < _
  omega

/-- A SYNC step is enabled while its view lags. -/
theorem sync_enables (hr : (s.fifoOf ch).ready = true) (ha : (s.fifoOf ch).blk.isArchitectural = true)
    (hlag : (s.fifoOf ch).blk.lag side ≠ 0) : enables (syncInput ch side) s := by
  obtain ⟨⟨b, o⟩, hb⟩ := sync_enabled ha (Nat.le_refl 1) (Nat.pos_of_ne_zero hlag)
  have hu : takeInput (syncInput ch side 1) (s.setOut {}) = .next (((s.setOut {}).on ch).after b o) :=
    (takeInput_syncInput ch side 1 _).trans (command_of_next (s := (s.setOut {}).on ch) hr hb)
  exact ⟨1, _, stepWith_next.mpr ⟨_, hu, rfl⟩⟩

/-- A copy's parameters stay as legal as they were. -/
theorem touched_legal (h : Touched s t) (ch : Channel) : (t.fifoOf ch).legal = (s.fifoOf ch).legal := by
  rcases touched_copy h ch with e | ⟨o, b', e, hb⟩
  · rw [e]
  · rw [e, Fifo.legal, Fifo.legal, blockStep_legal _ hb]

theorem settle_legal (u : State) (ch : Channel) : ((settle u).fifoOf ch).legal = (u.fifoOf ch).legal := by
  rw [settle_fifoOf]
  cases u.platform with
  | singleProcessor => exact congrArg (Config.legalN _ && ·) (Crossing.caughtUp_legal ..)
  | twoDomains => rfl

/-- A copy ready for commands stays so. -/
theorem stepWith_ready {inp : Input} (h : stepWith inp s = .next t) (hr : (s.fifoOf ch).ready = true) :
    (t.fifoOf ch).ready = true := by
  obtain ⟨u, hu, rfl⟩ := stepWith_next.mp h
  have htouch := touched_of_takeInput hu
  rw [← State.setOut_fifoOf s {} ch] at hr
  rw [Fifo.ready, settle_legal, settle_initDone, touched_legal htouch, Fifo.ready_legal hr,
    touched_initDone htouch ch (Fifo.ready_initDone hr)]
  rfl

theorem stepWith_isArchitectural {inp : Input} (h : stepWith inp s = .next t) (ch : Channel) :
    (t.fifoOf ch).blk.isArchitectural = (s.fifoOf ch).blk.isArchitectural :=
  congrArg (fun p => p.2.2) (stepWith_keeps_configuration h ch).1

end steps

/-! ### Weak fairness. -/

/-- What never grows from `n` on is never more than it was at `n`. -/
theorem le_of_never_grows {f : Nat → Nat} {n m : Nat} (hle : ∀ j, n ≤ j → f (j + 1) ≤ f j) (hnm : n ≤ m) :
    f m ≤ f n := by
  induction hnm with
  | refl => exact Nat.le_refl _
  | step hnm ih => exact Nat.le_trans (hle _ hnm) ih

/-- A measure that never grows, that the fair step lowers, and that keeps that step enabled while it is not 0, reaches
0. -/
theorem weaklyFair_reaches_zero {mk : Nat → Input} {r : Nat → State} (measure : Nat → Nat) (hfair : weaklyFair mk r)
    (hen : ∀ m, measure m ≠ 0 → enables mk (r m)) (htake : ∀ m, takes mk r m → measure (m + 1) < measure m) :
    ∀ n, (∀ m, n ≤ m → measure (m + 1) ≤ measure m) → ∃ m, n ≤ m ∧ measure m = 0 := by
  intro n
  induction hv : measure n using Nat.strongRecOn generalizing n with
  | ind v ih =>
    intro hle
    by_cases hex : ∃ m, n ≤ m ∧ measure m = 0
    · exact hex
    · obtain ⟨m, hnm, hm⟩ := hfair n fun m hm => hen m fun hz => hex ⟨m, hm, hz⟩
      have hmono : measure m ≤ measure n := le_of_never_grows hle hnm
      obtain ⟨j, hj, hz⟩ := ih (measure (m + 1)) (Nat.lt_of_lt_of_le (htake m hm) (hv ▸ hmono)) (m + 1) rfl
        fun j hj => hle j (by omega)
      exact ⟨j, by omega, hz⟩

section run
variable {r : Nat → State} {ch : Channel} (hrun : isRun r)
include hrun

theorem run_ready (hr : ((r 0).fifoOf ch).ready = true) (m : Nat) : ((r m).fifoOf ch).ready = true := by
  induction m with
  | zero => exact hr
  | succ m ih => obtain ⟨inp, h⟩ := hrun m; exact stepWith_ready h ih

theorem run_isArchitectural (ha : ((r 0).fifoOf ch).blk.isArchitectural = true) (m : Nat) :
    ((r m).fifoOf ch).blk.isArchitectural = true := by
  induction m with
  | zero => exact ha
  | succ m ih => obtain ⟨inp, h⟩ := hrun m; exact (stepWith_isArchitectural h ch).trans ih

/-- R61: on a weakly fair run the view of a pointer that stays catches up with it. -/
theorem fair_view_catches_up (hr : ((r 0).fifoOf ch).ready = true)
    (ha : ((r 0).fifoOf ch).blk.isArchitectural = true) (side : Side) (hfair : weaklyFair (syncInput ch side) r)
    {n p : Nat} (hp : ∀ m, n ≤ m → (((r m).fifoOf ch).blk.watched side).toNat = p) :
    ∃ m, n ≤ m ∧ ((r m).fifoOf ch).blk.view side = ((r m).fifoOf ch).blk.watched side := by
  have hready := run_ready hrun hr
  have harch := run_isArchitectural hrun ha
  obtain ⟨m, hm, hz⟩ := weaklyFair_reaches_zero (fun m => ((r m).fifoOf ch).blk.lag side) hfair
    (fun m => sync_enables (hready m) (harch m)) (fun m ⟨_, h⟩ => stepWith_sync_lag_lt h) n fun m hm => by
      obtain ⟨inp, h⟩ := hrun m
      exact stepWith_lag_le h (harch m) ((hp (m + 1) (by omega)).trans (hp m hm).symm)
  exact ⟨m, hm, (Block.lag_eq_zero _ side).mp hz⟩

end run

end Sys2Proof.Machine

open Sys2Proof Sys2Proof.Machine

/-- Settles O30: while a view lags its SYNC step is enabled, each one taken brings it nearer and nothing takes
it back. -/
theorem fairCrossingsCatchUp : Obligations.FairCrossingsCatchUp := by
  unfold Obligations.FairCrossingsCatchUp
  intro ch r n hrun hr ha
  exact ⟨fun h hfair hp => fair_view_catches_up hrun hr ha .consumer hfair hp,
    fun h hfair hp => fair_view_catches_up hrun hr ha .producer hfair hp⟩
end

section
/-! SUPPORT. The queue over runs (R57, R58, R65): one law for a step, that the bytes unread and stored are the bytes
taken and still unread, and one induction that carries it over any number of steps. -/

namespace Sys2Proof.Machine

/-! ### The law of a queue. -/

/-- From `before` to `after`, with the bytes `stored` coming in at the end and bytes taken off the front, of which
`returned` stands in relation `R` to all that were taken. -/
def Delivers (R : List Byte → List Byte → Prop) (before after stored returned : List Byte) : Prop :=
  ∃ taken, before ++ stored = taken ++ after ∧ R returned taken

section delivers
variable {R : List Byte → List Byte → Prop}

theorem delivers_nothing (hnil : R [] []) (l : List Byte) : Delivers R l l [] [] := ⟨[], by simp, hnil⟩

/-- The law of one step after another. -/
theorem Delivers.trans (happ : ∀ {a b c d}, R a b → R c d → R (a ++ c) (b ++ d)) {l m n ps qs ps' qs' : List Byte}
    (h : Delivers R l m ps qs) (h' : Delivers R m n ps' qs') : Delivers R l n (ps ++ ps') (qs ++ qs') := by
  obtain ⟨taken, heq, hR⟩ := h
  obtain ⟨taken', heq', hR'⟩ := h'
  refine ⟨taken ++ taken', ?_, happ hR hR'⟩
  calc l ++ (ps ++ ps') = taken ++ (m ++ ps') := by rw [← List.append_assoc, heq, List.append_assoc]
    _ = (taken ++ taken') ++ n := by rw [heq', List.append_assoc]

theorem delivers_eq_iff {l m ps qs : List Byte} : Delivers Eq l m ps qs ↔ l ++ ps = qs ++ m := by
  simp [Delivers]

end delivers

/-- The bytes unread on a copy, oldest first. -/
abbrev State.unread (s : State) (ch : Channel) : List Byte := (s.fifoOf ch).blk.contents

/-- The law of one copy over the step from `s` to `t`. -/
def StepDelivers (R : List Byte → List Byte → Prop) (ch : Channel) (s t : State) : Prop :=
  Delivers R (s.unread ch) (t.unread ch) (pushedBy ch t) (poppedBy ch t)

/-! ### Runs. -/

theorem trace_succ {ch : Channel} {k : Nat} {s u : State} {stored returned : List Byte} :
    trace ch (k + 1) s = some (u, stored, returned) ↔
      ∃ t ps qs, step s = .next t ∧ trace ch k t = some (u, ps, qs) ∧ stored = pushedBy ch t ++ ps ∧
        returned = poppedBy ch t ++ qs := by
  rw [trace]
  cases hs : step s with
  | next t =>
    cases ht : trace ch k t with
    | none => simp [ht]
    | some r => obtain ⟨v, ps, qs⟩ := r; simp [eq_comm, and_assoc, ht]
  | fault r => simp
  | refused r => simp

/-- One run after another. -/
theorem trace_add {ch : Channel} {j k : Nat} {s t u : State} {ps qs ps' qs' : List Byte}
    (h : trace ch j s = some (t, ps, qs)) (h' : trace ch k t = some (u, ps', qs')) :
    trace ch (j + k) s = some (u, ps ++ ps', qs ++ qs') := by
  induction j generalizing s ps qs with
  | zero => cases h; simpa using h'
  | succ j ih =>
    obtain ⟨v, p, q, hs, hv, rfl, rfl⟩ := trace_succ.mp h
    rw [Nat.succ_add]
    exact trace_succ.mpr ⟨v, _, _, hs, ih hv, by simp, by simp⟩

/-- A law that every step keeps, from a state that meets `Q`, holds of every run from there. -/
theorem trace_delivers {ch : Channel} {Q : State → Prop} {R : List Byte → List Byte → Prop} (hnil : R [] [])
    (happ : ∀ {a b c d}, R a b → R c d → R (a ++ c) (b ++ d))
    (hstep : ∀ {s t}, Q s → step s = .next t → Q t ∧ StepDelivers R ch s t) {k : Nat} {s u : State}
    {stored returned : List Byte} (hQ : Q s) (h : trace ch k s = some (u, stored, returned)) :
    Delivers R (s.unread ch) (u.unread ch) stored returned := by
  induction k generalizing s stored returned with
  | zero => cases h; exact delivers_nothing hnil _
  | succ k ih =>
    obtain ⟨t, ps, qs, hs, ht, rfl, rfl⟩ := trace_succ.mp h
    obtain ⟨hQ', hd⟩ := hstep hQ hs
    exact hd.trans happ (ih hQ' ht)

/-! ### One step. -/

section step
variable {s t : State} {ch : Channel}

theorem settle_delivers {R : List Byte → List Byte → Prop} (h : StepDelivers R ch s t) :
    StepDelivers R ch s (settle t) := by
  simpa [StepDelivers, State.unread, settle_contents, pushedBy, poppedBy] using h

theorem step_initDone (h : step s = .next t) (hd : (s.fifoOf ch).blk.initDone = true) :
    (t.fifoOf ch).blk.initDone = true := by
  rcases step_next h with ⟨-, rfl⟩ | ⟨inp, rest, -, h⟩
  · rwa [State.setOut_fifoOf]
  · obtain ⟨u, hu, rfl⟩ := stepWith_next.mp h
    rw [settle_initDone]
    exact touched_initDone (touched_of_takeInput hu) ch hd

/-- A step in which no agent steps. -/
theorem idle_delivers {R : List Byte → List Byte → Prop} (hnil : R [] []) (s : State) :
    StepDelivers R ch s (s.setOut {}) := by
  rw [StepDelivers, State.unread, State.unread, State.setOut_fifoOf, pushedBy_none rfl, poppedBy_none rfl]
  exact delivers_nothing hnil _

/-- R65: the bytes a step returns are among those it takes out. -/
theorem step_delivers_sublist (hinv : s.inv = true) (hd : (s.fifoOf ch).blk.initDone = true) (h : step s = .next t) :
    StepDelivers List.Sublist ch s t := by
  rcases step_next h with ⟨-, rfl⟩ | ⟨inp, rest, -, h⟩
  · exact idle_delivers (List.Sublist.refl _) s
  · obtain ⟨u, hu, rfl⟩ := stepWith_next.mp h
    exact settle_delivers (touched_contents (touched_of_takeInput hu) ch hinv hd rfl)

/-! ### A step that discards nothing. -/

/-- There is a free slot beside the one that stays free. -/
theorem Sound.room {N S : Nat} {b : Block N} (hN : 0 < N) (hl : b.crossing.legal S = true) (hs : Sound b)
    (hf : b.full = false) : b.occupancy + 1 < 2 ^ N := by
  have hw := walk_of_not_full hl hN hs.walk hf
  have ho := occupancy_le_walk hl hs.walk
  omega

/-- No command but DRAIN and INIT takes a byte out without returning it. -/
theorem exec_delivers_all {i : Instr} (hi : i ≠ .drain ∧ i ≠ .init) (hinv : s.fifo.blk.inv = true)
    (h : exec i s = .next t) :
    s.fifo.blk.contents ++ (t.out.wr.map Prod.snd).toList = t.out.cData.toList ++ t.fifo.blk.contents := by
  have hr := exec_ready hi.2 h
  have hq := Fifo.ready_legal hr
  have hl := Fifo.legal_crossing hq
  have hs := sound_of_inv hinv (Fifo.ready_initDone hr)
  cases hp : i.port with
  | pcmd =>
    obtain ⟨-, b, o, rfl, hb⟩ := exec_producer hp h
    rw [State.after_fifo, State.after_out]
    rcases hb with ⟨rfl, ⟨-, rfl⟩ | ⟨d, -, -, rfl⟩⟩ | ⟨d, -, hf, rfl, rfl⟩
    · simp
    · simp [Outputs.refusedFull]
    · have := pushed_contents d (hs.room (Fifo.legal_pos hq) hl hf)
      simp [Outputs.stored, this]
  | ccmd =>
    obtain ⟨-, j, o, rfl, hj, ho, hb⟩ := exec_consumer hp h
    have hfront := freed_contents s.fifo.blk (Nat.le_trans hj (hs.available_le hl))
    rw [State.after_fifo, State.after_out, ho]
    rcases hb with ⟨-, v, rfl, -, hv, rfl⟩ | ⟨hc, rfl | rfl⟩
    · rw [front_one _ hv] at hfront
      simpa [Outputs.popped] using hfront
    · exact absurd rfl hi.1
    · simp [hc, freed_zero]
  | init => cases i <;> simp [Instr.port] at hp hi

/-- A SYNC step moves no byte. -/
theorem sync_contents {N k : Nat} {b b' : Block N} {o : Outputs} {side : Side} (h : b.sync side k = .next (b', o)) :
    b'.contents = b.contents ∧ o = {} := by
  cases side with
  | producer => obtain ⟨v, w, -, -, -, rfl, rfl⟩ := Block.syncT_next h; exact ⟨rfl, rfl⟩
  | consumer => obtain ⟨v, w, -, -, -, rfl, rfl⟩ := Block.syncH_next h; exact ⟨rfl, rfl⟩

/-- The law of a step that moved copy `c`, from the law of that copy. -/
theorem moved_delivers {c : Channel} (hm : Moved s t c)
    (hc : s.unread c ++ (t.out.wr.map Prod.snd).toList = t.out.cData.toList ++ t.unread c) (ch : Channel) :
    StepDelivers Eq ch s t := by
  rw [StepDelivers, delivers_eq_iff]
  by_cases e : ch = c
  · subst e
    rw [pushedBy_same hm.sel, poppedBy_same hm.sel, hc]
  · have hsel : t.sel ≠ ch := fun h => e (h.symm.trans hm.sel)
    rw [pushedBy_other hsel, poppedBy_other hsel, State.unread, State.unread, hm.other ch e]
    simp

/-- What a step did with copy `c` selected, it did to copy `c`. -/
theorem Moved.of_on {c : Channel} (h : Moved (s.on c) t c) : Moved s t c := ⟨h.sel, h.other, h.legal, h.blk⟩

theorem blockStep_of_sync {N k : Nat} {b b' : Block N} {o : Outputs} {side : Side}
    (h : b.sync side k = .next (b', o)) : BlockStep b o b' := by
  cases side with
  | producer => exact .syncT k h
  | consumer => exact .syncH k h

/-- A step of the crossing takes nothing out. -/
theorem syncInput_delivers_all {c : Channel} {side : Side} {k : Nat} (h : takeInput (syncInput c side k) s = .next t)
    (ch : Channel) : StepDelivers Eq ch s t := by
  rw [takeInput_syncInput] at h
  refine moved_delivers (Moved.of_on (moved_of_command h fun b o => blockStep_of_sync)) ?_ ch
  obtain ⟨-, b, o, hb, rfl⟩ := command_next h
  obtain ⟨hcon, rfl⟩ := sync_contents hb
  have e : ((s.on c).after b {}).fifoOf c = { s.fifoOf c with blk := b } := State.after_fifoOf_same _ b {}
  have ht : ((s.on c).after b {}).unread c = s.unread c := by rw [State.unread, e]; exact hcon
  simp [ht]

/-- R65: with the outside driving, an input that discards nothing takes out what it returns. -/
theorem takeInput_delivers_all {inp : Input} (hd : s.driver = .ports) (hk : keepsBytes inp = true)
    (hinv : s.inv = true) (ho : s.out = {}) (h : takeInput inp s = .next t) (ch : Channel) :
    StepDelivers Eq ch s t := by
  have noClients {f : State → Host.Outcome State Fault Refusal} (h : asClient s f = .next t) :
      StepDelivers Eq ch s t := absurd (hd.symm.trans (asClient_next h).1) nofun
  cases inp with
  | ports c side p =>
    have hi : p.command side ≠ .drain ∧ p.command side ≠ .init := by simpa [keepsBytes] using hk
    have hx : exec (p.command side) (s.on c) = .next t := by simpa [takeInput, presentPorts, hd] using h
    have hm := moved_of_exec hx
    have hall := exec_delivers_all hi (s := s.on c) (inv_fifo hinv c).2 hx
    rw [show t.fifo = t.fifoOf c from congrArg t.fifoOf hm.sel] at hall
    exact moved_delivers hm.of_on hall ch
  | syncH c k => exact syncInput_delivers_all (side := .consumer) h ch
  | syncT c k => exact syncInput_delivers_all (side := .producer) h ch
  | call c => exact noClients h
  | receive b st => exact noClients h
  | transmitReady => exact noClients h
  | advance c => exact noClients h
  | globalInterrupts on =>
    cases h
    have ho : (s.setSerial { s.clients.serial with globalInterruptsOn := on }).out = {} := ho
    rw [StepDelivers, pushedBy_none (by rw [ho]), poppedBy_none (by rw [ho])]
    exact delivers_nothing rfl _

/-- An agent takes no input but its own. -/
theorem Acted.inputs (h : Acted s t) : t.inputs = s.inputs := by
  cases h with
  | clients => rfl
  | command h => exact (exec_rest h).2.2.2
  | syncH h => obtain ⟨-, b, o, -, rfl⟩ := command_next h; simp
  | syncT h => obtain ⟨-, b, o, -, rfl⟩ := command_next h; simp

theorem stepWith_inputs {inp : Input} (h : stepWith inp s = .next t) : t.inputs = s.inputs := by
  obtain ⟨u, hu, rfl⟩ := stepWith_next.mp h
  exact (settle_inputs u).trans (acted_of_takeInput hu).inputs

/-- The outside drives the inputs and none still to come discards a byte. -/
def State.keeping (s : State) : Prop :=
  s.inv = true ∧ s.driver = .ports ∧ ∀ inp ∈ s.inputs, keepsBytes inp = true

theorem step_delivers_all (hkeep : s.keeping) (h : step s = .next t) : t.keeping ∧ StepDelivers Eq ch s t := by
  obtain ⟨hinv, hd, hk⟩ := hkeep
  obtain ⟨-, -, hdt⟩ := step_keeps_configuration h ch
  have hstep : (∀ inp ∈ t.inputs, keepsBytes inp = true) ∧ StepDelivers Eq ch s t := by
    rcases step_next h with ⟨-, rfl⟩ | ⟨inp, rest, hin, h⟩
    · exact ⟨hk, idle_delivers rfl s⟩
    · rw [hin, List.forall_mem_cons] at hk
      obtain ⟨u, hu, rfl⟩ := stepWith_next.mp h
      refine ⟨?_, settle_delivers (takeInput_delivers_all (s := (s.setInputs rest).setOut {}) hd hk.1 hinv rfl hu ch)⟩
      rw [stepWith_inputs h]
      exact hk.2
  exact ⟨⟨step_keeps_inv hinv h, hdt.trans hd, hstep.1⟩, hstep.2⟩

/-- R65: a run with the outside driving and no discard takes out what it returns. -/
theorem trace_delivers_all {k : Nat} {u : State} {stored returned : List Byte} (hkeep : s.keeping)
    (h : trace ch k s = some (u, stored, returned)) : s.unread ch ++ stored = returned ++ u.unread ch :=
  delivers_eq_iff.mp (trace_delivers rfl (fun h h' => by rw [h, h']) step_delivers_all hkeep h)

end step

end Sys2Proof.Machine

open Sys2Proof Sys2Proof.Machine

/-- Settles O40: a step takes bytes off the front, a byte it returns among them, and a run is its steps. -/
theorem bytesLeaveInTheOrderTheyEntered : Obligations.BytesLeaveInTheOrderTheyEntered := by
  unfold Obligations.BytesLeaveInTheOrderTheyEntered
  intro ch k s u stored returned hinv hd h
  exact trace_delivers (Q := fun s => s.inv = true ∧ (s.fifoOf ch).blk.initDone = true) (List.Sublist.refl [])
    List.Sublist.append
    (fun ⟨hi, hd⟩ h => ⟨⟨step_keeps_inv hi h, step_initDone h hd⟩, step_delivers_sublist hi hd h⟩) ⟨hinv, hd⟩ h

/-- Settles O41: where no input discards, every step takes out exactly what it returns. -/
theorem nothingIsLostWithoutADiscard : Obligations.NothingIsLostWithoutADiscard := by
  unfold Obligations.NothingIsLostWithoutADiscard
  intro ch k s u stored returned hinv _ hd hk h
  exact trace_delivers_all ⟨hinv, hd, hk⟩ h
end

section
/-! SUPPORT. The queue's test form (R65, R111, R121, R143): what a PUSH with room, a SYNC.H and a POP of a byte in sight
do in two domains with the outside driving, each as one step of the input list, and runs of many of them. -/

namespace Sys2Proof.Machine

/-! ### Commands as inputs. -/

theorem decodeP_push (d : Byte) : decodeP (BitVec.ofNat 9 (0x100 ||| d.toNat)) = .push d := by
  have hw : BitVec.ofNat 9 (0x100 ||| d.toNat) = 0x100 ||| d.setWidth 9 := by
    apply BitVec.eq_of_toNat_eq
    simp
  have hrow : matchesRow 0x100 0x100 (0x100 ||| d.setWidth 9) = true := by
    rw [matchesRow, beq_iff_eq]
    apply BitVec.eq_of_getLsbD_eq
    intro i hi
    rw [BitVec.getLsbD_and, BitVec.getLsbD_or]
    cases (0x100#9).getLsbD i <;> simp
  have hdata : pcmdData (0x100 ||| d.setWidth 9) = d := by
    apply BitVec.eq_of_getLsbD_eq
    intro i hi
    rw [pcmdData, BitVec.extractLsb'_or]
    simp [hi, Nat.lt_succ_of_lt hi]
  rw [hw, decodeP, hrow, hdata, if_pos rfl]

/-- With `init = 0` the producer's word is what its side executes. -/
theorem portsCommand_producer {p : Ports} (h : p.init = 0) : p.command .producer = decodeP p.pcmd := by
  have hR : decodeR p.init = none := by rw [h]; rfl
  simp only [Ports.command, hR]

/-- And the consumer's. -/
theorem portsCommand_consumer {p : Ports} (h : p.init = 0) : p.command .consumer = decodeQ p.ccmd := by
  have hR : decodeR p.init = none := by rw [h]; rfl
  simp only [Ports.command, hR]

/-- The words that present a command decode to it (R85). -/
theorem present_command (i : Instr) :
    (Ports.present i.port (encode i)).2.command (Ports.present i.port (encode i)).1 = i := by
  cases i with
  | push d =>
    exact (portsCommand_producer rfl).trans (decodeP_push d)
  | pNop => rfl
  | cNop => rfl
  | pop => rfl
  | drain => rfl
  | count => rfl
  | init => rfl

/-! ### How far the views are from the pointers after one step of a block. -/

section views
variable {N : Nat} {b b' : Block N} {o : Outputs} {k : Nat}

theorem dist_inc {x y : BitVec N} (h : (dist x y).toNat + 1 < 2 ^ N) :
    (dist x (inc y)).toNat = (dist x y).toNat + 1 := by
  rw [inc_eq_advance]
  exact dist_advance_right x y 1 h

/-- A byte popped is one byte less in sight. -/
theorem freed_available {j : Nat} (h : j ≤ b.available.toNat) :
    (b.freed j).available.toNat = b.available.toNat - j := dist_advance_left b.tail b.headSeen j h

/-- A SYNC.H brings `k` bytes in sight. -/
theorem syncH_available {S : Nat} (hl : b.crossing.legal S = true) (hs : Sound b) (h : b.syncH k = .next (b', o)) :
    b'.available.toNat = b.available.toNat + k := by
  have hw := hs.walk
  rw [← Block.inv_walk hl hw] at hw
  obtain ⟨v, w, hc, -, hk, rfl, -⟩ := Block.syncH_next h
  have hv : b.headSeen = v := by rw [Block.headSeen, hc]; rfl
  rw [← hv] at hk
  rw [Block.available, Block.available, ← hv]
  exact dist_advance_right b.tail b.headSeen k (by omega)

end views

/-! ### One step of the input list. -/

/-- Two domains, the outside driving, and the copy `ch` at the architectural level, after its INIT. -/
structure Bench (ch : Channel) (s : State) : Prop where
  inv : s.inv = true
  initDone : (s.fifoOf ch).blk.initDone = true
  driver : s.driver = .ports
  platform : s.platform = .twoDomains
  level : (s.fifoOf ch).blk.isArchitectural = true

section bench
variable {ch : Channel} {s t : State} {rest : List Input}

theorem Bench.legal (h : Bench ch s) : (s.fifoOf ch).legal = true := (inv_fifo h.inv ch).1

theorem Bench.ready (h : Bench ch s) : (s.fifoOf ch).ready = true := by
  rw [Fifo.ready, h.legal, h.initDone]; rfl

theorem Bench.sound (h : Bench ch s) : Sound (s.fifoOf ch).blk := sound_of_inv (inv_fifo h.inv ch).2 h.initDone

theorem Bench.step (h : Bench ch s) (hs : step s = .next t) : Bench ch t := by
  obtain ⟨hb, hp, hd⟩ := step_keeps_configuration hs ch
  exact ⟨step_keeps_inv h.inv hs, step_initDone hs h.initDone, hd.trans h.driver, hp.trans h.platform,
    (congrArg (fun p => p.2.2) hb).trans h.level⟩

/-- The state in which the copy `ch` takes its step. -/
def State.turn (s : State) (rest : List Input) (ch : Channel) : State := ((s.setInputs rest).setOut {}).on ch

/-- The step from `s` to `t` left the block `b` on `ch` and the inputs `rest`, with the bytes stored and returned. -/
structure Took (ch : Channel) (s : State) (rest : List Input) (b : Block (s.fifoOf ch).N) (stored returned : List Byte)
    (t : State) : Prop where
  step : step s = .next t
  fifo : t.fifoOf ch = { s.fifoOf ch with blk := b }
  inputs : t.inputs = rest
  stored : pushedBy ch t = stored
  returned : poppedBy ch t = returned

theorem took_after {b : Block (s.fifoOf ch).N} {o : Outputs} (hs : step s = .next ((s.turn rest ch).after b o)) :
    Took ch s rest b (o.wr.map Prod.snd).toList o.cData.toList ((s.turn rest ch).after b o) where
  step := hs
  fifo := State.after_fifoOf_same (s.turn rest ch) b o
  inputs := State.after_inputs (s.turn rest ch) b o
  stored := pushedBy_same (State.after_sel (s.turn rest ch) b o)
  returned := poppedBy_same (State.after_sel (s.turn rest ch) b o)

/-- A step in front of a run. -/
theorem Took.trace {b : Block (s.fifoOf ch).N} {k : Nat} {u : State} {p q ps qs : List Byte}
    (h : Took ch s rest b p q t) (hrun : trace ch k t = some (u, ps, qs)) :
    trace ch (k + 1) s = some (u, p ++ ps, q ++ qs) :=
  trace_succ.mpr ⟨t, ps, qs, h.step, hrun, by rw [h.stored], by rw [h.returned]⟩

/-- A command next on the list runs on its copy. -/
theorem took_command {i : Instr} {b : Block (s.fifoOf ch).N} {o : Outputs} (h : Bench ch s)
    (hin : s.inputs = commandInput ch i :: rest) (hx : exec i (s.turn rest ch) = .next ((s.turn rest ch).after b o)) :
    Took ch s rest b (o.wr.map Prod.snd).toList o.cData.toList ((s.turn rest ch).after b o) := by
  refine took_after ?_
  have hw : stepWith (commandInput ch i) (s.setInputs rest) = .next ((s.turn rest ch).after b o) := by
    rw [commandInput, stepWith_ports_next (s := s.setInputs rest) h.platform h.driver, present_command]
    exact hx
  rw [Machine.step, hin]
  exact hw

/-- A PUSH with room in view stores its byte. -/
theorem took_push {d : Byte} (h : Bench ch s) (hf : (s.fifoOf ch).blk.full = false)
    (hin : s.inputs = commandInput ch (.push d) :: rest) :
    ∃ t, Took ch s rest ((s.fifoOf ch).blk.pushed d) [d] [] t := by
  have hx := exec_push_stored (s := s.turn rest ch) d h.ready hf
  rw [Block.producerEdge_architectural (b := (s.turn rest ch).fifo.blk.pushed d) h.level] at hx
  exact ⟨_, took_command h hin hx⟩

/-- A POP with a byte in sight returns one. -/
theorem took_pop (h : Bench ch s) (he : (s.fifoOf ch).blk.empty = false)
    (hin : s.inputs = commandInput ch .pop :: rest) :
    ∃ v t, Took ch s rest ((s.fifoOf ch).blk.freed 1) [] [v] t := by
  obtain ⟨v, hv⟩ := nonempty_popped (Fifo.legal_crossing h.legal) h.sound he
  have hx := exec_pop_byte (s := s.turn rest ch) h.ready he hv
  rw [inc_eq_advance, Block.consumerEdge_architectural (b := (s.turn rest ch).fifo.blk.freed 1) h.level] at hx
  exact ⟨v, _, took_command h hin hx⟩

/-- A SYNC.H by up to the lag brings that many bytes in sight. -/
theorem took_syncH {k : Nat} (h : Bench ch s) (h1 : 1 ≤ k) (hk : k ≤ (s.fifoOf ch).blk.lag .consumer)
    (hin : s.inputs = .syncH ch k :: rest) :
    ∃ b t, Took ch s rest b [] [] t ∧ b.available.toNat = (s.fifoOf ch).blk.available.toNat + k := by
  obtain ⟨⟨b, o⟩, hb⟩ := sync_enabled (side := .consumer) h.level h1 hk
  have hu : takeInput (.syncH ch k) ((s.setInputs rest).setOut {}) = .next ((s.turn rest ch).after b o) :=
    (takeInput_syncInput ch .consumer k _).trans (command_of_next (s := s.turn rest ch) h.ready hb)
  have hp : ((s.turn rest ch).after b o).platform = .twoDomains := (State.after_platform ..).trans h.platform
  have hs : step s = .next ((s.turn rest ch).after b o) := by
    rw [Machine.step, hin]
    exact stepWith_next.mpr ⟨_, hu, (settle_twoDomains hp).symm⟩
  obtain ⟨-, rfl⟩ := sync_contents hb
  exact ⟨b, _, took_after hs, syncH_available (Fifo.legal_crossing h.legal) h.sound hb⟩

/-! ### Many steps. -/

/-- As many PUSHes as the producer sees room for all store their bytes, and the consumer's view stays where it was. -/
theorem trace_pushes {bytes : List Byte} (h : Bench ch s)
    (hroom : (dist (s.fifoOf ch).blk.tailSeen (s.fifoOf ch).blk.head).toNat + bytes.length < 2 ^ (s.fifoOf ch).N)
    (hin : s.inputs = bytes.map (fun b => commandInput ch (.push b)) ++ rest) :
    ∃ u, trace ch bytes.length s = some (u, bytes, []) ∧ Bench ch u ∧ u.inputs = rest ∧
      (u.fifoOf ch).blk.lag .consumer = (s.fifoOf ch).blk.lag .consumer + bytes.length := by
  induction bytes generalizing s with
  | nil => exact ⟨s, rfl, h, hin, rfl⟩
  | cons d ds ih =>
    rw [List.length_cons] at hroom
    have hf : (s.fifoOf ch).blk.full = false := by
      rw [← Bool.not_eq_true, Block.full_iff, inc_eq_iff (Fifo.legal_pos h.legal)]
      omega
    have hocc := h.sound.room (Fifo.legal_pos h.legal) (Fifo.legal_crossing h.legal) hf
    have hview := Block.occupancy_eq (Fifo.legal_crossing h.legal) h.sound.walk
    obtain ⟨t, ht⟩ := took_push h hf hin
    have htaken : (dist (t.fifoOf ch).blk.tailSeen (t.fifoOf ch).blk.head).toNat =
        (dist (s.fifoOf ch).blk.tailSeen (s.fifoOf ch).blk.head).toNat + 1 := by
      rw [ht.fifo]; exact dist_inc (x := (s.fifoOf ch).blk.tailSeen) (y := (s.fifoOf ch).blk.head) (by omega)
    have hlag : (t.fifoOf ch).blk.lag .consumer = (s.fifoOf ch).blk.lag .consumer + 1 := by
      rw [ht.fifo]; exact dist_inc (x := (s.fifoOf ch).blk.headSeen) (y := (s.fifoOf ch).blk.head) (by omega)
    have hN : (t.fifoOf ch).N = (s.fifoOf ch).N := by rw [ht.fifo]
    obtain ⟨u, hrun, hu, hrest, hlag'⟩ := ih (h.step ht.step) (by rw [htaken, hN]; omega) ht.inputs
    exact ⟨u, ht.trace hrun, hu, hrest, by rw [hlag', hlag, List.length_cons]; omega⟩

/-- As many POPs as the consumer sees bytes all return one. -/
theorem trace_pops {n : Nat} (h : Bench ch s) (hn : n ≤ (s.fifoOf ch).blk.available.toNat)
    (hin : s.inputs = List.replicate n (commandInput ch .pop)) :
    ∃ u returned, trace ch n s = some (u, [], returned) ∧ returned.length = n := by
  induction n generalizing s with
  | zero => exact ⟨s, [], rfl, rfl⟩
  | succ n ih =>
    have he : (s.fifoOf ch).blk.empty = false := nonempty_iff.mpr (Nat.lt_of_lt_of_le (Nat.succ_pos n) hn)
    obtain ⟨v, t, ht⟩ := took_pop h he hin
    have hleft : (t.fifoOf ch).blk.available.toNat = (s.fifoOf ch).blk.available.toNat - 1 := by
      rw [ht.fifo]; exact freed_available (nonempty_iff.mp he)
    obtain ⟨u, returned, hrun, hlen⟩ := ih (h.step ht.step) (by omega) ht.inputs
    exact ⟨u, v :: returned, ht.trace hrun, by rw [List.length_cons, hlen]⟩

/-- A command but DRAIN and INIT keeps every byte. -/
theorem keepsBytes_commandInput {i : Instr} (hi : i ≠ .drain ∧ i ≠ .init) : keepsBytes (commandInput ch i) = true := by
  rw [commandInput, keepsBytes, present_command]
  simp [hi]

/-- The inputs of the test form (R65, S1): the bytes pushed, a SYNC.H by as many slots, and as many pops. -/
def fillAndEmptyInputs (ch : Channel) (bytes : List Byte) : List Input :=
  bytes.map (fun b => commandInput ch (.push b)) ++ [.syncH ch bytes.length] ++
    List.replicate bytes.length (commandInput ch .pop)

theorem keepsBytes_fillAndEmptyInputs {bytes : List Byte} :
    ∀ inp ∈ fillAndEmptyInputs ch bytes, keepsBytes inp = true := by
  intro inp hmem
  simp only [fillAndEmptyInputs, List.mem_append, List.mem_map, List.mem_singleton, List.mem_replicate] at hmem
  rcases hmem with (⟨b, -, rfl⟩ | rfl) | ⟨-, rfl⟩
  · exact keepsBytes_commandInput ⟨nofun, nofun⟩
  · rfl
  · exact keepsBytes_commandInput ⟨nofun, nofun⟩

/-- The test form runs: every push stores its byte and every pop returns one. -/
theorem trace_fillAndEmpty {bytes : List Byte} (h : Bench ch s) (hne : bytes ≠ [])
    (hroom : (dist (s.fifoOf ch).blk.tailSeen (s.fifoOf ch).blk.head).toNat + bytes.length < 2 ^ (s.fifoOf ch).N)
    (hin : s.inputs = fillAndEmptyInputs ch bytes) :
    ∃ u returned, trace ch s.inputs.length s = some (u, bytes, returned) ∧ returned.length = bytes.length := by
  rw [fillAndEmptyInputs, List.append_assoc] at hin
  obtain ⟨v, hpushes, hv, hrest, hlag⟩ := trace_pushes h hroom hin
  obtain ⟨b, w, hw, hb⟩ := took_syncH hv (List.length_pos_iff.mpr hne) (by omega) hrest
  have hsight : (w.fifoOf ch).blk.available.toNat = b.available.toNat := by rw [hw.fifo]
  obtain ⟨u, returned, hpops, hlen⟩ := trace_pops (hv.step hw.step) (by omega) hw.inputs
  refine ⟨u, returned, ?_, hlen⟩
  have hk : s.inputs.length = bytes.length + (bytes.length + 1) := by rw [hin]; simp
  rw [hk, trace_add hpushes (hw.trace hpops)]
  simp

end bench

end Sys2Proof.Machine

open Sys2Proof Sys2Proof.Machine
/-- Settles O42: the pushes, the SYNC.H and the pops all run, and what a run without a discard returns is what it took
out. -/
theorem pushesThenPopsReturnTheSameBytes : Obligations.PushesThenPopsReturnTheSameBytes := by
  unfold Obligations.PushesThenPopsReturnTheSameBytes
  intro ch s bytes hinv hdone hd hp ha hcur hht hne hlen hin
  have hin : s.inputs = fillAndEmptyInputs ch bytes := hin
  have hview : (s.fifoOf ch).blk.tailSeen = (s.fifoOf ch).blk.head := by
    rw [hht]
    simp only [Block.current, Bool.and_eq_true, beq_iff_eq] at hcur
    exact hcur.2
  have hunread : s.unread ch = [] := by simp [State.unread, Block.contents, Block.occupancy, hht]
  have hroom : (dist (s.fifoOf ch).blk.tailSeen (s.fifoOf ch).blk.head).toNat + bytes.length <
      2 ^ (s.fifoOf ch).N := by
    have := Nat.two_pow_pos (s.fifoOf ch).N
    rw [hview, dist_self]
    simp
    omega
  obtain ⟨u, returned, htrace, hcount⟩ := trace_fillAndEmpty ⟨hinv, hdone, hd, hp, ha⟩ hne hroom hin
  have hall := trace_delivers_all ⟨hinv, hd, hin ▸ keepsBytes_fillAndEmptyInputs⟩ htrace
  rw [hunread, List.nil_append] at hall
  obtain rfl : returned = bytes := (List.append_inj (hall.symm.trans (List.append_nil bytes).symm) hcount).1
  exact ⟨u, htrace⟩
end

section
/-! SUPPORT. Who writes what (R53, R56, R175, R212): which command input of a copy each input of the step relation
drives, and what a command on that input leaves as it was. -/

namespace Sys2Proof.Machine

/-! ### What a command leaves. -/

/-- What a command on input `p` leaves of a block as it was. A producer's leaves `tail`; a consumer's leaves `head` and
every slot (R53, R56); INIT leaves every slot, and both pointers or neither, which are then 0 (R170). -/
def Block.leftBy {N : Nat} (p : Port) (b b' : Block N) : Prop :=
  match p with
  | .pcmd => b'.tail = b.tail
  | .ccmd => b'.head = b.head ∧ b'.storage = b.storage
  | .init => b'.storage = b.storage ∧ ((b'.head = b.head ∧ b'.tail = b.tail) ∨ (b'.head = 0 ∧ b'.tail = 0))

section left
variable {N : Nat} {b b' : Block N} {p : Port}

/-- Moving the views is within what any command may do. -/
theorem leftBy_crossing (p : Port) (b : Block N) (c : Crossing N) : b.leftBy p { b with crossing := c } := by
  cases p with
  | pcmd => exact rfl
  | ccmd => exact ⟨rfl, rfl⟩
  | init => exact ⟨rfl, .inl ⟨rfl, rfl⟩⟩

theorem Block.leftBy.settle (h : b.leftBy p b') (c : Crossing N) : b.leftBy p { b' with crossing := c } := by
  cases p <;> exact h

end left

/-- A SYNC step moves a view and nothing else. -/
theorem sync_moves_view {N k : Nat} {b b' : Block N} {o : Outputs} {side : Side} (h : b.sync side k = .next (b', o)) :
    ∃ c, b' = { b with crossing := c } := by
  cases side with
  | producer => obtain ⟨v, w, -, -, -, rfl, -⟩ := Block.syncT_next h; exact ⟨_, rfl⟩
  | consumer => obtain ⟨v, w, -, -, -, rfl, -⟩ := Block.syncH_next h; exact ⟨_, rfl⟩

theorem exec_leftBy {i : Instr} {s t : State} (h : exec i s = .next t) :
    ∃ b', t.fifo = { s.fifo with blk := b' } ∧ s.fifo.blk.leftBy i.port b' := by
  cases hp : i.port with
  | pcmd =>
    obtain ⟨-, b, o, rfl, ⟨rfl, -⟩ | ⟨d, -, -, rfl, -⟩⟩ := exec_producer hp h
    · exact ⟨_, State.after_fifo .., rfl⟩
    · exact ⟨_, State.after_fifo .., rfl⟩
  | ccmd =>
    obtain ⟨-, j, o, rfl, -⟩ := exec_consumer hp h
    exact ⟨_, State.after_fifo .., rfl, rfl⟩
  | init =>
    obtain rfl : i = .init := by cases i <;> simp [Instr.port] at hp ⊢
    obtain ⟨-, -, rfl⟩ := execInit_next h
    exact ⟨_, State.after_fifo .., rfl, .inr ⟨rfl, rfl⟩⟩

/-! ### Who drives which input. -/

/-- The command input of `ch` that mainline code drives (R175): inside `init` that of INIT, else the receive copy's
consumer side and the transmit copy's producer side. -/
def Mainline.drives (ch : Channel) : Mainline → Port
  | .initialising _ _ => .init
  | _ =>
    match ch with
    | .rx => .ccmd
    | .tx => .pcmd

/-- The command input of `ch` that an input of the step relation drives, mainline code standing at `m`. -/
def inputDrives (m : Mainline) (ch : Channel) : Input → Option Port
  | .ports c side p => if ch = c then some (p.command side).port else none
  | .advance .mainline => some (m.drives ch)
  | .advance .receiveHandler => if ch = .rx then some .pcmd else none
  | .advance .transmitHandler => if ch = .tx then some .ccmd else none
  | .syncH _ _ => none
  | .syncT _ _ => none
  | .call _ => none
  | .receive _ _ => none
  | .transmitReady => none
  | .globalInterrupts _ => none

/-- What taking an input did to copy `ch`: nothing, a command on the command input it drives, or a SYNC step. -/
inductive Drove (inp : Input) (s t : State) (ch : Channel) : Prop
  | none (h : t.fifoOf ch = s.fifoOf ch)
  | command {i : Instr} {u : State} (hp : inputDrives s.clients.mainline ch inp = some i.port)
      (h : exec i (s.on ch) = .next u) (ht : t.fifoOf ch = u.fifoOf ch)
  | sync {side : Side} {k : Nat} (hi : inp = syncInput ch side k) (c : Crossing (s.fifoOf ch).N)
      (ht : t.fifoOf ch = { s.fifoOf ch with blk := { (s.fifoOf ch).blk with crossing := c } })

section drove
variable {inp : Input} {s t u : State}

/-- A command on copy `c`, and a write of the clients' state. -/
theorem drove_of_exec {ch c : Channel} {i : Instr} (h : exec i (s.on c) = .next u)
    (hp : inputDrives s.clients.mainline c inp = some i.port) (ht : ∀ ch, t.fifoOf ch = u.fifoOf ch) :
    Drove inp s t ch := by
  by_cases hc : ch = c
  · subst hc; exact .command hp h (ht ch)
  · exact .none ((ht ch).trans (exec_on_other hc h))

theorem drove_of_initStep {stage : InitStage} {cfg : Nat} (hm : s.clients.mainline = .initialising stage cfg)
    (h : initStep stage cfg s = .next t) (ch : Channel) : Drove (.advance .mainline) s t ch := by
  have hp (c : Channel) : inputDrives s.clients.mainline c (.advance .mainline) = some Instr.init.port := by
    rw [hm]; rfl
  cases stage
  case resetRx =>
    obtain ⟨u, hu, h⟩ := continueWith_next.mp h
    cases h; exact drove_of_exec (i := .init) hu (hp _) fun _ => rfl
  case resetTx =>
    obtain ⟨u, hu, h⟩ := continueWith_next.mp h
    cases h; exact drove_of_exec (i := .init) hu (hp _) fun _ => rfl
  all_goals (cases h; exact .none rfl)

theorem writeNext_fifoOf (s : State) (bs : List Byte) (ch : Channel) : (s.writeNext bs).fifoOf ch = s.fifoOf ch := by
  cases bs <;> rfl

theorem drove_of_mainlineStep (h : mainlineStep s = .next t) (ch : Channel) : Drove (.advance .mainline) s t ch := by
  have hp {c : Channel} {i : Instr} (hm : s.clients.mainline.drives c = i.port) :
      inputDrives s.clients.mainline c (.advance .mainline) = some i.port := congrArg some hm
  unfold mainlineStep at h
  split at h
  case isTrue => cases h
  case isFalse =>
    split at h
    case h_1 => cases h
    case h_2 hm => exact drove_of_initStep hm h ch
    case h_3 hm =>
      obtain ⟨u, hu, h⟩ := continueWith_next.mp (onceStarted_next.mp h).2
      have hp := hp (c := .rx) (i := .pop) (by rw [hm]; rfl)
      split at h <;> (cases h; exact drove_of_exec (i := .pop) hu hp fun _ => rfl)
    case h_4 => cases h; exact .none rfl
    case h_5 b rest hm =>
      obtain ⟨u, hu, h⟩ := continueWith_next.mp (onceStarted_next.mp h).2
      have hp := hp (c := .tx) (i := .push b) (by rw [hm]; rfl)
      split at h <;> (cases h; exact drove_of_exec (i := .push b) hu hp fun _ => rfl)
    case h_6 => cases h; exact .none (writeNext_fifoOf ..)
    case h_7 hm =>
      obtain ⟨u, hu, h⟩ := continueWith_next.mp (onceStarted_next.mp h).2
      cases h; exact drove_of_exec (i := .count) hu (hp (c := .rx) (by rw [hm]; rfl)) fun _ => rfl
    case h_8 hm =>
      obtain ⟨u, hu, h⟩ := continueWith_next.mp (onceStarted_next.mp h).2
      cases h; exact drove_of_exec (i := .drain) hu (hp (c := .rx) (by rw [hm]; rfl)) fun _ => rfl

theorem drove_of_receiveHandlerStep (h : receiveHandlerStep s = .next t) (ch : Channel) :
    Drove (.advance .receiveHandler) s t ch := by
  unfold receiveHandlerStep at h
  split at h
  case h_1 => cases h
  case h_2 b k _ =>
    obtain ⟨u, hu, h⟩ := continueWith_next.mp (onceStarted_next.mp h).2
    cases h; exact drove_of_exec (i := .push b) hu rfl fun _ => rfl
  case h_3 => cases h; exact .none rfl

theorem drove_of_transmitHandlerStep (h : transmitHandlerStep s = .next t) (ch : Channel) :
    Drove (.advance .transmitHandler) s t ch := by
  unfold transmitHandlerStep at h
  split at h
  case h_1 => cases h
  case h_2 =>
    obtain ⟨u, hu, h⟩ := continueWith_next.mp (onceStarted_next.mp h).2
    split at h
    · cases h; exact drove_of_exec (i := .pop) hu rfl fun _ => rfl
    · cases h
  case h_3 => cases h; exact .none rfl
  case h_4 => cases (whenReady_next.mp h).2; exact .none rfl

/-- A call only says where mainline code stands. -/
theorem startCall_fifoOf {c : Call} (h : startCall c s = .next t) (ch : Channel) : t.fifoOf ch = s.fifoOf ch := by
  unfold startCall at h
  split at h
  case isTrue => cases h
  case isFalse =>
    split at h
    case isTrue => cases h
    case isFalse =>
      cases c with
      | init cfg => cases h; rfl
      | writeString bs => cases (onceStarted_next.mp h).2; exact writeNext_fifoOf ..
      | tryReadByte => cases (onceStarted_next.mp h).2; rfl
      | writeByte b => cases (onceStarted_next.mp h).2; rfl
      | bytesAvailable => cases (onceStarted_next.mp h).2; rfl
      | flushReceive => cases (onceStarted_next.mp h).2; rfl

theorem receiveEvent_fifoOf {b : Byte} {st : HwStatus} (h : receiveEvent b st s = .next t) (ch : Channel) :
    t.fifoOf ch = s.fifoOf ch := by
  unfold receiveEvent at h
  split at h
  · split at h
    · cases (onceStarted_next.mp h).2; rfl
    · cases h
  · cases h

theorem transmitReadyEvent_fifoOf (h : transmitReadyEvent s = .next t) (ch : Channel) :
    t.fifoOf ch = s.fifoOf ch := by
  unfold transmitReadyEvent at h
  split at h
  · split at h
    · cases (onceStarted_next.mp (whenReady_next.mp h).2).2; rfl
    · cases h
  · cases h

theorem drove_of_sync {c : Channel} {side : Side} {k : Nat} (h : takeInput (syncInput c side k) s = .next t)
    (ch : Channel) : Drove (syncInput c side k) s t ch := by
  rw [takeInput_syncInput] at h
  obtain ⟨-, b, o, hb, rfl⟩ := command_next h
  by_cases hc : ch = c
  · subst hc
    obtain ⟨v, rfl⟩ := sync_moves_view hb
    exact .sync rfl v (State.after_fifoOf_same (s.on ch) _ o)
  · exact .none (State.after_fifoOf_other (s.on c) b o hc)

/-- What any input can do to a copy. -/
theorem drove_of_takeInput (h : takeInput inp s = .next t) (ch : Channel) : Drove inp s t ch := by
  cases inp with
  | ports c side p =>
    unfold takeInput presentPorts at h
    dsimp only at h
    split at h
    · exact drove_of_exec h (if_pos rfl) fun _ => rfl
    · cases h
  | syncH c k => exact drove_of_sync (side := .consumer) h ch
  | syncT c k => exact drove_of_sync (side := .producer) h ch
  | call c => exact .none (startCall_fifoOf (asClient_next h).2 ch)
  | receive b st => exact .none (receiveEvent_fifoOf (asClient_next h).2 ch)
  | transmitReady => exact .none (transmitReadyEvent_fifoOf (asClient_next h).2 ch)
  | advance c =>
    have h := (asClient_next h).2
    cases c with
    | mainline => exact drove_of_mainlineStep h ch
    | receiveHandler => exact drove_of_receiveHandlerStep h ch
    | transmitHandler => exact drove_of_transmitHandlerStep h ch
  | globalInterrupts on => cases h; exact .none rfl

end drove

/-! ### What a step of the machine leaves. -/

section step
variable {inp : Input} {s t : State} {ch : Channel} {p : Port}

/-- A copy keeps its sizes, and of its block what the command input it is driven on leaves. Driven on none it keeps both
pointers and every slot, as a command on any input may. -/
theorem stepWith_leftBy (h : stepWith inp s = .next t) (ch : Channel) :
    ∃ b', t.fifoOf ch = { s.fifoOf ch with blk := b' } ∧
      ∀ p, (∀ p', inputDrives s.clients.mainline ch inp = some p' → p' = p) → (s.fifoOf ch).blk.leftBy p b' := by
  obtain ⟨u, hu, rfl⟩ := stepWith_next.mp h
  have htaken : ∃ b, u.fifoOf ch = { s.fifoOf ch with blk := b } ∧
      ∀ p, (∀ p', inputDrives s.clients.mainline ch inp = some p' → p' = p) → (s.fifoOf ch).blk.leftBy p b := by
    cases drove_of_takeInput hu ch with
    | none hk => exact ⟨_, hk, fun p _ => leftBy_crossing p _ (s.fifoOf ch).blk.crossing⟩
    | @command i v hp' hx ht =>
      obtain ⟨b, hb, hl⟩ := exec_leftBy hx
      rw [State.fifo, show v.sel = ch from (moved_of_exec hx).sel] at hb
      exact ⟨b, ht.trans hb, fun p hp => hp _ hp' ▸ hl⟩
    | sync hi c ht => exact ⟨_, ht, fun p _ => leftBy_crossing p _ c⟩
  obtain ⟨b, hb, hl⟩ := htaken
  obtain ⟨c, hc⟩ := settled_moves_views u.platform { s.fifoOf ch with blk := b }
  rw [settle_fifoOf, hb]
  exact ⟨_, hc, fun p hp => (hl p hp).settle c⟩

/-- A copy that no command and no SYNC step moves has its views settled, and that is all. -/
theorem stepWith_settled (h : stepWith inp s = .next t) (hp : inputDrives s.clients.mainline ch inp = none)
    (hsync : (∀ k, inp ≠ .syncH ch k) ∧ ∀ k, inp ≠ .syncT ch k) :
    t.fifoOf ch = s.platform.settled (s.fifoOf ch) := by
  obtain ⟨u, hu, rfl⟩ := stepWith_next.mp h
  have hplat : u.platform = s.platform := (acted_of_takeInput hu).schedule.1
  rw [settle_fifoOf, hplat]
  cases drove_of_takeInput hu ch with
  | none hk => rw [hk, State.setOut_fifoOf]
  | command hp' => exact absurd (hp.symm.trans hp') nofun
  | @sync side k hi =>
    cases side with
    | producer => exact absurd hi (hsync.2 k)
    | consumer => exact absurd hi (hsync.1 k)

end step

/-! ### Which command input it is. -/

/-- Format Q has the consumer's commands (R85). -/
theorem decodeQ_port (w : BitVec 2) : (decodeQ w).port = .ccmd := by
  unfold decodeQ
  split
  · rfl
  · split
    · rfl
    · split
      · rfl
      · rfl

/-- Format P has the producer's. -/
theorem decodeP_port (w : BitVec 9) : (decodeP w).port = .pcmd := by
  unfold decodeP
  split
  · rfl
  · rfl

/-- `init = 1` is INIT, whatever stands beside it (R170). -/
theorem portsCommand_init {side : Side} {p : Ports} (h : p.init = 1) : p.command side = .init := by
  have hR : decodeR p.init = some .init := by rw [h]; rfl
  simp only [Ports.command, hR]

section drives
variable {m : Mainline} {ch c : Channel} {side : Side} {w : Ports} {p : Port}

theorem drives_ports (h : inputDrives m ch (.ports c side w) = some p) : p = (w.command side).port :=
  (Option.some.inj (Option.ite_none_right_eq_some.mp h).2).symm

theorem drives_receiveHandler (h : inputDrives m ch (.advance .receiveHandler) = some p) : p = .pcmd :=
  (Option.some.inj (Option.ite_none_right_eq_some.mp h).2).symm

theorem drives_transmitHandler (h : inputDrives m ch (.advance .transmitHandler) = some p) : p = .ccmd :=
  (Option.some.inj (Option.ite_none_right_eq_some.mp h).2).symm

theorem drives_mainline (h : inputDrives m ch (.advance .mainline) = some p) : p = m.drives ch :=
  (Option.some.inj h).symm

/-- Outside `init` mainline code is the receive copy's consumer and the transmit copy's producer (R175). -/
theorem Mainline.drives_outside_init (hm : ∀ stage cfg, m ≠ .initialising stage cfg) :
    m.drives .rx = .ccmd ∧ m.drives .tx = .pcmd := by
  cases m with
  | initialising stage cfg => exact absurd rfl (hm stage cfg)
  | idle => exact ⟨rfl, rfl⟩
  | reading => exact ⟨rfl, rfl⟩
  | sampling => exact ⟨rfl, rfl⟩
  | writing => exact ⟨rfl, rfl⟩
  | enabling => exact ⟨rfl, rfl⟩
  | counting => exact ⟨rfl, rfl⟩
  | flushing => exact ⟨rfl, rfl⟩

end drives

end Sys2Proof.Machine

open Sys2Proof Sys2Proof.Machine

/-- Settles O38: each input drives at most one command input of a copy, and a command leaves what the other side
writes. -/
theorem eachPointerHasOneWriter : Obligations.EachPointerHasOneWriter := by
  unfold Obligations.EachPointerHasOneWriter
  intro s t ch inp h
  obtain ⟨b', hb, left⟩ := stepWith_leftBy h ch
  refine ⟨b', hb, ?_, ?_, ?_, ?_, ?_, ?_, ?_, ?_⟩
  case refine_1 => -- a consumer's step
    rintro c w rfl hw
    exact left .ccmd fun p hp => by rw [drives_ports hp, portsCommand_consumer hw, decodeQ_port]
  case refine_2 => -- a producer's step
    rintro c w rfl hw
    exact left .pcmd fun p hp => by rw [drives_ports hp, portsCommand_producer hw, decodeP_port]
  case refine_3 => -- a step of the crossing drives no command input
    have keeps (hnone : inputDrives s.clients.mainline ch inp = none) :
        b'.head = (s.fifoOf ch).blk.head ∧ b'.tail = (s.fifoOf ch).blk.tail ∧
          b'.storage = (s.fifoOf ch).blk.storage := by
      have only (p : Port) := left p fun p' hp => absurd (hnone.symm.trans hp) nofun
      obtain ⟨hhead, hslots⟩ := only .ccmd
      exact ⟨hhead, only .pcmd, hslots⟩
    rintro c k (rfl | rfl)
    · exact keeps rfl
    · exact keeps rfl
  case refine_4 => -- the receive handler
    rintro rfl
    refine ⟨left .pcmd fun p => drives_receiveHandler, ?_⟩
    rintro rfl
    exact stepWith_settled h rfl ⟨nofun, nofun⟩
  case refine_5 => -- the transmit-ready handler
    rintro rfl
    obtain ⟨hhead, hslots⟩ := left .ccmd fun p => drives_transmitHandler
    refine ⟨hhead, hslots, ?_⟩
    rintro rfl
    exact stepWith_settled h rfl ⟨nofun, nofun⟩
  case refine_6 => -- mainline code outside `init`
    rintro rfl hm
    obtain ⟨hrx, htx⟩ := Mainline.drives_outside_init hm
    constructor
    · rintro rfl
      exact left .ccmd fun p hp => (drives_mainline hp).trans hrx
    · rintro rfl
      exact left .pcmd fun p hp => (drives_mainline hp).trans htx
  case refine_7 => -- a call, an event, the global switch
    rintro (⟨c, rfl⟩ | ⟨b, st, rfl⟩ | rfl | ⟨on, rfl⟩) <;> exact stepWith_settled h rfl ⟨nofun, nofun⟩
  case refine_8 => -- INIT
    rintro (⟨c, side, w, rfl, hw⟩ | ⟨rfl, stage, cfg, hm⟩)
    · exact left .init fun p hp => by rw [drives_ports hp, portsCommand_init hw]; rfl
    · exact left .init fun p hp => by rw [drives_mainline hp, hm]; rfl
end

section
/-! SUPPORT. The encoding (spec/30_encoding.md): what the decoder answers on a number that fits an input and on one that
does not, format P by its bit 8, and a step with words on the inputs as the command they decode to. -/

namespace Sys2Proof.Machine

/-! ### The decoder on numbers (R81 to R83). -/

theorem fits_pcmd (w : BitVec 9) : Port.pcmd.fits w.toNat = true := decide_eq_true w.isLt

theorem decode_pcmd {n : Nat} (h : Port.pcmd.fits n = true) :
    decode .pcmd n = .command (decodeP (BitVec.ofNat 9 n)) := by
  simp only [decode, h, if_true]

theorem decode_pcmd_toNat (w : BitVec 9) : decode .pcmd w.toNat = .command (decodeP w) := by
  rw [decode_pcmd (fits_pcmd w), BitVec.ofNat_toNat, BitVec.setWidth_eq]

/-- A number too wide for an input is no word of it. -/
theorem decode_tooWide {p : Port} {n : Nat} (h : 2 ^ p.width ≤ n) : decode p n = .rejected .tooWide := by
  have hfits : p.fits n = false := decide_eq_false (Nat.not_lt.mpr h)
  simp [decode, hfits]

/-- The words of the table are words of their inputs (R85). -/
theorem encode_fits (i : Instr) : i.port.fits (encode i) = true := by
  cases i with
  | push d =>
    have hbit : 0x100 < 2 ^ 9 := by decide
    have hdata : d.toNat < 2 ^ 9 := Nat.lt_trans d.isLt (by decide)
    exact decide_eq_true (Nat.or_lt_two_pow hbit hdata)
  | pNop => rfl
  | cNop => rfl
  | pop => rfl
  | drain => rfl
  | count => rfl
  | init => rfl

/-- Encoder and decoder are written from one table (R85). -/
theorem decode_encode (i : Instr) : decode i.port (encode i) = .command i := by
  cases i with
  | push d => exact (decode_pcmd (encode_fits (.push d))).trans (congrArg _ (decodeP_push d))
  | pNop => rfl
  | cNop => rfl
  | pop => rfl
  | drain => rfl
  | count => rfl
  | init => rfl

/-! ### Format P by its bit 8 (R81). -/

theorem matchesRow_push (w : BitVec 9) : matchesRow 0x100 0x100 w = w.getLsbD 8 := by
  have hmask : (0x100 : BitVec 9) = BitVec.twoPow 9 8 := rfl
  rw [matchesRow, hmask, BitVec.and_twoPow]
  cases w.getLsbD 8 <;> rfl

theorem decodeP_of_bit8 {w : BitVec 9} (h : w.getLsbD 8 = true) : decodeP w = .push (BitVec.ofNat 8 w.toNat) := by
  have hdata : pcmdData w = BitVec.ofNat 8 w.toNat := rfl
  rw [decodeP, matchesRow_push, h, hdata, if_pos rfl]

theorem decodeP_of_not_bit8 {w : BitVec 9} (h : w.getLsbD 8 = false) : decodeP w = .pNop := by
  rw [decodeP, matchesRow_push, h, if_neg Bool.false_ne_true]

/-! ### A step by its next input (R91, R150). -/

theorem step_nil {s : State} (h : s.inputs = []) : step s = .next (s.setOut {}) := by
  simp only [step, h, stepIdle]

theorem step_cons {s : State} {inp : Input} {rest : List Input} (h : s.inputs = inp :: rest) :
    step s = stepWith inp (s.setInputs rest) := by
  simp only [step, h]

/-- Words on the inputs run their command where the outside drives, and anywhere when it is idle (log 16). -/
theorem takeInput_ports {ch : Channel} {side : Side} {p : Ports} {s : State}
    (h : s.driver = .ports ∨ isIdle (p.command side) = true) :
    takeInput (.ports ch side p) s = exec (p.command side) (s.on ch) := by
  have hrun : (s.driver == .ports || isIdle (p.command side)) = true := by simpa using h
  rw [takeInput, presentPorts, if_pos hrun]

/-- In two domains a command leaves nothing to settle. -/
theorem exec_settled {i : Instr} {s : State} (h : s.platform = .twoDomains) :
    continueWith (exec i s) (fun t => .next (settle t)) = exec i s := by
  cases hx : exec i s with
  | next t =>
    obtain ⟨-, hplat, -, -⟩ := exec_rest hx
    rw [continueWith, settle_twoDomains (hplat.trans h)]
  | fault r => rfl
  | refused r => rfl

end Sys2Proof.Machine

open Sys2Proof Sys2Proof.Machine

/-- Settles O2: each row's word decodes to its command, PUSH with the byte it carries. -/
theorem decodeOfEncodeIsTheCommand : Obligations.DecodeOfEncodeIsTheCommand := by
  unfold Obligations.DecodeOfEncodeIsTheCommand
  exact ⟨fun i _ => decode_encode i, fun _ _ => decode_tooWide⟩

/-- Settles O1: bit 8 tells PUSH from P_NOP; the words of `ccmd` and `init` are the table's rows and the 0 of `init`. -/
theorem everyPortWordDecodesAsTabled : Obligations.EveryPortWordDecodesAsTabled := by
  unfold Obligations.EveryPortWordDecodesAsTabled
  refine ⟨fun w h => ?_, fun w h => ?_, decode_encode .cNop, decode_encode .pop, decode_encode .drain,
    decode_encode .count, decode_encode .init, rfl⟩
  · rw [decode_pcmd_toNat, decodeP_of_bit8 h]
  · rw [decode_pcmd_toNat, decodeP_of_not_bit8 h]

/-- Settles O4: the input taken runs its command, and in two domains there is nothing to settle. -/
theorem stepRunsTheDecodedCommand : Obligations.StepRunsTheDecodedCommand := by
  unfold Obligations.StepRunsTheDecodedCommand
  refine ⟨fun s ch side p rest hin hdrive => ?_, fun s => step_nil⟩
  have hstep : step s =
      continueWith (exec (p.command side) (((s.setInputs rest).setOut {}).on ch)) fun t => .next (settle t) := by
    rw [step_cons hin, stepWith, takeInput_ports (s := (s.setInputs rest).setOut {}) hdrive]
  exact ⟨hstep, fun hp => hstep.trans (exec_settled hp)⟩
end

section
/-! SUPPORT. The producer's commands (spec/40_producer_ops.md): what the edge after a command leaves of the block, and
what a PUSH that stored its byte leaves. -/

namespace Sys2Proof.Machine

section block
variable {N : Nat} (b : Block N) (d : Byte)

/-- `empty` reads `tail` and the consumer's view, and a producer's edge moves neither (R27, R145). -/
@[simp] theorem Block.producerEdge_empty : b.producerEdge.empty = b.empty := by
  simp [Block.empty]

theorem Block.pushed_read_other {a : Nat} (ha : a ≠ (inc b.head).toNat) :
    (b.pushed d).storage.read a = b.storage.read a :=
  Memory.read_write_other _ _ _ ha

/-- A byte stored fills the buffer when the slot after the new `head` is the last the producer sees free (R27). -/
theorem Block.pushed_full_iff : (b.pushed d).full = true ↔ inc (inc b.head) = b.tailSeen :=
  (b.pushed d).full_iff

end block

/-- A command that leaves the block to its edge writes no pointer and no slot. -/
theorem producerEdge_writes_nothing {q : Fifo} (hr : q.ready = true) :
    q.blk.producerEdge.storage = q.blk.storage ∧ q.blk.producerEdge.head = q.blk.head ∧
      q.blk.producerEdge.tail = q.blk.tail ∧ q.blk.producerEdge.headSeen = q.blk.headSeen ∧
      q.blk.producerEdge.initDone = true ∧ (q.blk.isArchitectural = true → q.blk.producerEdge = q.blk) :=
  ⟨rfl, rfl, rfl, q.blk.producerEdge_headSeen, Fifo.ready_initDone hr, Block.producerEdge_architectural⟩

end Sys2Proof.Machine

open Sys2Proof Sys2Proof.Machine

/-- Settles O7: P_NOP leaves the block to the edge. -/
theorem pNopWritesNothing : Obligations.PNopWritesNothing := by
  unfold Obligations.PNopWritesNothing
  exact fun s hr => ⟨_, exec_pNop hr, producerEdge_writes_nothing hr⟩

/-- Settles O9: a PUSH at full leaves the block to the edge. -/
theorem pushAtFullWritesNothing : Obligations.PushAtFullWritesNothing := by
  unfold Obligations.PushAtFullWritesNothing
  exact fun d s hr h => ⟨_, exec_push_full d hr ((Block.full_iff _).mpr h), producerEdge_writes_nothing hr⟩

/-- Settles O8: with room the block is `pushed`, and the edge moves nothing but the clocked crossing. -/
theorem pushStoresAtTheSlotAfterHead : Obligations.PushStoresAtTheSlotAfterHead := by
  unfold Obligations.PushStoresAtTheSlotAfterHead
  intro d s hr hroom
  have hf : s.fifo.blk.full = false := by rwa [← Bool.not_eq_true, Block.full_iff]
  refine ⟨(s.fifo.blk.pushed d).producerEdge, exec_push_stored d hr hf, rfl, Memory.read_write_same _ _ _,
    fun a => s.fifo.blk.pushed_read_other d, rfl, (s.fifo.blk.pushed d).producerEdge_headSeen,
    (s.fifo.blk.pushed d).producerEdge_empty, Fifo.ready_initDone hr, fun ha => ?_⟩
  rw [Block.producerEdge_architectural (b := s.fifo.blk.pushed d) ha]
  exact ⟨rfl, s.fifo.blk.pushed_full_iff d⟩

/-- Settles O17: a producer command leaves the block alone or stores one byte; the edge moves no more than its
crossing. -/
theorem producerCommandsKeepTheRest : Obligations.ProducerCommandsKeepTheRest := by
  unfold Obligations.ProducerCommandsKeepTheRest
  intro i s t hp h
  obtain ⟨-, b, o, rfl, hb⟩ := exec_producer hp h
  refine ⟨b.producerEdge, rfl, ?_⟩
  rw [Block.producerEdge_headSeen, Block.producerEdge_empty]
  rcases hb with ⟨rfl, -⟩ | ⟨d, rfl, hf, rfl, -⟩
  · exact ⟨rfl, rfl, rfl, rfl, fun _ _ => rfl, fun _ => ⟨rfl, rfl⟩⟩
  · refine ⟨rfl, rfl, rfl, rfl, fun a => s.fifo.blk.pushed_read_other d, ?_⟩
    rintro (hi | hfull)
    · cases hi
    · exact absurd (hf.symm.trans hfull) Bool.false_ne_true
end

section
/-! SUPPORT. The room a producer sees (R6, R111, R112): how many slots it takes to be in use, `d(tail_seen, head)`, and
that a step adds no more to them than the byte it stores. -/

namespace Sys2Proof.Machine

/-! ### The slots the producer takes to be in use. -/

/-- `d(tail_seen, head)`: the slots in use as the producer sees them. -/
def Block.used {N : Nat} (b : Block N) : Nat := (dist b.tailSeen b.head).toNat

section used
variable {N : Nat} {b b' : Block N}

theorem Block.used_lt (b : Block N) : b.used < 2 ^ N := dist_lt _ _

/-- `full = 0` is room for one more (R27). -/
theorem Block.not_full_iff (hN : 0 < N) (b : Block N) : b.full = false ↔ b.used + 1 < 2 ^ N := by
  have hlt := b.used_lt
  rw [← Bool.not_eq_true, Block.full_iff, inc_eq_iff hN]
  change b.used ≠ 2 ^ N - 1 ↔ _
  omega

theorem used_congr (ht : b'.tailSeen = b.tailSeen) (hh : b'.head = b.head) : b'.used = b.used := by
  rw [Block.used, ht, hh]; rfl

theorem Block.pushed_used (hN : 0 < N) (d : Byte) (hf : b.full = false) : (b.pushed d).used = b.used + 1 :=
  dist_inc ((b.not_full_iff hN).mp hf)

theorem Block.init_used (b : Block N) : b.init.used = 0 := by
  simp [Block.used]

/-- A SYNC.H moves the other view. -/
theorem syncH_used {k : Nat} {o : Outputs} (h : b.syncH k = .next (b', o)) : b'.used = b.used := by
  have hview : b'.tailSeen = b.tailSeen := sync_other_view (side := .producer) (other := .consumer) nofun h
  obtain ⟨c, rfl⟩ := sync_moves_view (side := .consumer) h
  exact used_congr hview rfl

section sound
variable {S : Nat} (hl : b.crossing.legal S = true)
include hl

/-- What the producer takes to be in use is what it has not yet seen freed and what is unread. -/
theorem Sound.used_eq (hs : Sound b) : b.used = b.lag .producer + b.occupancy :=
  dist_trans _ _ _ (hs.arc_lt hl)

/-- And it is the walk through all the crossing's positions (R32). -/
theorem used_eq_walkLength (hw : walkLength b.positions < 2 ^ N) : b.used = walkLength b.positions := by
  have hwalk := Block.inv_walk hl hw
  have hocc : (dist b.tail b.head).toNat = _ := Block.occupancy_eq hl hw
  have := dist_trans b.tailSeen b.tail b.head (by omega)
  rw [Block.used]
  omega

/-- A producer's edge only brings its view nearer to `tail` (R145). -/
theorem producerEdge_used_le (hw : walkLength b.positions < 2 ^ N) : b.producerEdge.used ≤ b.used := by
  have hle : walkLength b.producerEdge.positions ≤ walkLength b.positions := by
    rw [Block.positions_eq, Block.positions_eq]
    exact walkLength_producerEdge b.crossing hl b.head b.tail b.head
  have hl' : b.producerEdge.crossing.legal S = true := (Crossing.producerEdge_legal _ S _).trans hl
  rw [used_eq_walkLength hl hw, used_eq_walkLength hl' (Nat.lt_of_le_of_lt hle hw)]
  exact hle

/-- What the edge shifts into the producer's chain is not what the PUSH wrote. -/
theorem pushed_producerEdge_used_le (hN : 0 < N) (hs : Sound b) (d : Byte) (hf : b.full = false) :
    (b.pushed d).producerEdge.used ≤ b.used + 1 := by
  have hview : (b.pushed d).producerEdge.tailSeen = b.producerEdge.tailSeen := by
    cases hc : b.crossing <;> simp [Block.tailSeen, hc, Crossing.producerEdge, Crossing.tailSeen]
  have hedge := producerEdge_used_le hl hs.walk
  have hroom := (b.not_full_iff hN).mp hf
  calc (b.pushed d).producerEdge.used
      = (dist b.producerEdge.tailSeen (inc b.head)).toNat := by rw [Block.used, hview]; rfl
    _ = b.producerEdge.used + 1 := dist_inc (Nat.lt_of_le_of_lt (Nat.succ_le_succ hedge) hroom)
    _ ≤ b.used + 1 := Nat.succ_le_succ hedge

/-- A SYNC.T brings the view nearer to `tail` (R144). -/
theorem syncT_used_le (hs : Sound b) {k : Nat} {o : Outputs} (h : b.syncT k = .next (b', o)) : b'.used ≤ b.used := by
  obtain ⟨-, hk, hv, -⟩ := sync_next (side := .producer) h
  obtain ⟨c, rfl⟩ := sync_moves_view (side := .producer) h
  have hle : k ≤ b.used := by have := hs.used_eq hl; omega
  have hused : ({ b with crossing := c } : Block N).used = b.used - k := by
    rw [Block.used, show Block.tailSeen _ = _ from hv]
    exact dist_advance_left _ _ k hle
  omega

/-- The catch-up brings it to `tail` (R151). -/
theorem caughtUp_used_le (hs : Sound b) : b.caughtUp.used ≤ b.used := by
  have hl' : b.caughtUp.crossing.legal S = true := (Crossing.caughtUp_legal _ S _ _).trans hl
  have hlag := b.caughtUp_lag_le .producer
  rw [hs.used_eq hl, (caughtUp_sound hs).used_eq hl']
  exact Nat.add_le_add_right hlag _

/-- A step of a block adds to the slots in use no more than the byte it stores. -/
theorem blockStep_used_le (hN : 0 < N) (hs : Sound b) {o : Outputs} (h : BlockStep b o b') :
    b'.used ≤ b.used + (o.wr.map Prod.snd).toList.length := by
  have consumer (t' : BitVec N) : ({ b with tail := t' } : Block N).consumerEdge.used = b.used :=
    used_congr (Block.consumerEdge_tailSeen _) rfl
  cases h with
  | pNop => exact producerEdge_used_le hl hs.walk
  | push d =>
    cases hf : b.full with
    | true => rw [Block.push_full d hf]; exact producerEdge_used_le hl hs.walk
    | false => rw [Block.push_ok d hf]; exact pushed_producerEdge_used_le hl hN hs d hf
  | cNop => exact Nat.le_of_eq (consumer b.tail)
  | pop hp =>
    rcases Block.pop_next hp with ⟨-, rfl, rfl⟩ | ⟨v, -, -, rfl, rfl⟩
    · exact Nat.le_of_eq (consumer _)
    · exact Nat.le_of_eq (consumer _)
  | drain => exact Nat.le_of_eq (consumer b.headSeen)
  | count => exact Nat.le_of_eq (consumer b.tail)
  | init => rw [Block.init_used]; exact Nat.zero_le _
  | syncH k hk => exact Nat.le_add_right_of_le (Nat.le_of_eq (syncH_used hk))
  | syncT k hk => exact Nat.le_add_right_of_le (syncT_used_le hl hs hk)

end sound

end used

/-! ### One step of the machine. -/

/-- The slots the producer of `ch` takes to be in use. -/
abbrev State.used (s : State) (ch : Channel) : Nat := (s.fifoOf ch).blk.used

section step
variable {s t : State} {ch c : Channel}

/-- A step of copy `c` in which the slots in use and the byte stored stand in relation `R` leaves every copy so. -/
theorem moved_used {R : Nat → Nat → Prop} (hrefl : ∀ n, R n n) (hm : Moved s t c)
    (hc : ch = c → R (t.used ch) (s.used ch + (t.out.wr.map Prod.snd).toList.length)) :
    R (t.used ch) (s.used ch + (pushedBy ch t).length) := by
  by_cases e : ch = c
  · rw [pushedBy_same (hm.sel.trans e.symm)]
    exact hc e
  · rw [pushedBy_other fun h => e (h.symm.trans hm.sel), State.used, State.used, hm.other ch e]
    exact hrefl _

theorem pushedBy_settle (u : State) : pushedBy ch (settle u) = pushedBy ch u := by
  simp [pushedBy]

theorem settle_used_le {u : State} (hl : (u.fifoOf ch).legal = true) (hi : (u.fifoOf ch).blk.inv = true)
    (hd : (u.fifoOf ch).blk.initDone = true) : (settle u).used ch ≤ u.used ch := by
  rw [State.used, settle_fifoOf]
  cases u.platform with
  | singleProcessor => exact caughtUp_used_le (Fifo.legal_crossing hl) (sound_of_inv hi hd)
  | twoDomains => exact Nat.le_refl _

theorem Kept.fifoOf (h : Kept s t) (ch : Channel) : t.fifoOf ch = s.fifoOf ch := by
  cases ch with
  | rx => exact h.rx
  | tx => exact h.tx

theorem touched_used_le (h : Touched s t) (hl : (s.fifoOf ch).legal = true) (hi : (s.fifoOf ch).blk.inv = true)
    (hd : (s.fifoOf ch).blk.initDone = true) : t.used ch ≤ s.used ch + (pushedBy ch t).length := by
  rcases h with h | ⟨c, hm⟩
  · rw [State.used, h.fifoOf ch]
    exact Nat.le_add_right _ _
  · refine moved_used Nat.le_refl hm ?_
    rintro rfl
    obtain ⟨b', e, hb, -⟩ := hm.blk
    rw [State.used, e]
    exact blockStep_used_le (Fifo.legal_crossing hl) (Fifo.legal_pos hl) (sound_of_inv hi hd) hb

/-- A step of the machine adds to the slots in use no more than the byte it stores (R112). -/
theorem step_used_le (hi : s.inv = true) (hd : (s.fifoOf ch).blk.initDone = true) (h : step s = .next t) :
    t.used ch ≤ s.used ch + (pushedBy ch t).length := by
  rcases step_next h with ⟨-, rfl⟩ | ⟨inp, rest, -, h⟩
  · rw [State.used, State.setOut_fifoOf]
    exact Nat.le_add_right _ _
  · obtain ⟨u, hu, rfl⟩ := stepWith_next.mp h
    have htouch := touched_of_takeInput hu
    obtain ⟨hl, hb⟩ := inv_fifo (s := (s.setInputs rest).setOut {}) hi ch
    obtain ⟨hlu, hbu⟩ := touched_inv htouch ch hl hb
    rw [pushedBy_settle]
    calc (settle u).used ch
        ≤ u.used ch := settle_used_le hlu hbu (touched_initDone htouch ch hd)
      _ ≤ ((s.setInputs rest).setOut {}).used ch + (pushedBy ch u).length := touched_used_le htouch hl hb hd
      _ = s.used ch + (pushedBy ch u).length := by rw [State.used, State.setOut_fifoOf, State.setInputs_fifoOf]

/-! ### One step that leaves the producer's view. -/

/-- An architectural command but INIT adds to the slots in use just the byte it stores (R111). -/
theorem exec_used {i : Instr} (hi : i ≠ .init) (ha : s.fifo.blk.isArchitectural = true) (h : exec i s = .next t) :
    t.fifo.blk.used = s.fifo.blk.used + (t.out.wr.map Prod.snd).toList.length := by
  cases hp : i.port with
  | pcmd =>
    obtain ⟨hr, b, o, rfl, hb⟩ := exec_producer hp h
    rw [State.after_fifo, State.after_out]
    rcases hb with ⟨rfl, hkept⟩ | ⟨d, -, hf, rfl, rfl⟩
    · have ho : o.wr = none := by rcases hkept with ⟨-, rfl⟩ | ⟨d, -, -, rfl⟩ <;> rfl
      rw [Block.producerEdge_architectural ha, ho]
      rfl
    · rw [Block.producerEdge_architectural (b := s.fifo.blk.pushed d) ha]
      exact Block.pushed_used (Fifo.legal_pos (Fifo.ready_legal hr)) d hf
  | ccmd =>
    obtain ⟨-, j, o, rfl, -, ho, -⟩ := exec_consumer hp h
    rw [State.after_fifo, State.after_out, ho]
    exact used_congr (Block.consumerEdge_tailSeen _) rfl
  | init => cases i <;> simp [Instr.port] at hp hi

theorem moved_of_sync {side : Side} {k : Nat} (h : takeInput (syncInput c side k) s = .next t) : Moved s t c :=
  Moved.of_on (moved_of_command (takeInput_syncInput c side k s ▸ h) fun _ _ => blockStep_of_sync)

theorem takeInput_syncH_used {k : Nat} (h : takeInput (.syncH ch k) s = .next t) :
    t.used ch = s.used ch + (t.out.wr.map Prod.snd).toList.length := by
  obtain ⟨-, b, o, hb, rfl⟩ := command_next ((takeInput_syncInput ch .consumer k s).symm.trans h)
  obtain ⟨-, rfl⟩ := sync_contents hb
  have e : ((s.on ch).after b {}).fifoOf ch = { s.fifoOf ch with blk := b } := State.after_fifoOf_same (s.on ch) b {}
  rw [State.used, e]
  exact syncH_used hb

/-- With the outside driving, an input that leaves the producer's view of `ch` adds to the slots in use just the byte it
stores. -/
theorem takeInput_used {inp : Input} (hdrv : s.driver = .ports) (ha : (s.fifoOf ch).blk.isArchitectural = true)
    (ho : s.out = {}) (hv : leavesTailView ch inp = true) (h : takeInput inp s = .next t) :
    t.used ch = s.used ch + (pushedBy ch t).length := by
  have noClients {f : State → Host.Outcome State Fault Refusal} (h : asClient s f = .next t) :
      t.used ch = s.used ch + (pushedBy ch t).length := absurd (hdrv.symm.trans (asClient_next h).1) nofun
  cases inp with
  | ports c side p =>
    have hi : p.command side ≠ .init := by simpa [leavesTailView] using hv
    have hx : exec (p.command side) (s.on c) = .next t := by simpa [takeInput, presentPorts, hdrv] using h
    have hm := moved_of_exec hx
    refine moved_used (R := Eq) (fun _ => rfl) hm.of_on ?_
    rintro rfl
    have hused := exec_used hi (s := s.on ch) ha hx
    rwa [show t.fifo = t.fifoOf ch from congrArg t.fifoOf hm.sel] at hused
  | syncH c k =>
    refine moved_used (R := Eq) (fun _ => rfl) (moved_of_sync (side := .consumer) h) ?_
    rintro rfl
    exact takeInput_syncH_used h
  | syncT c k =>
    have hc : c ≠ ch := by simpa [leavesTailView] using hv
    exact moved_used (R := Eq) (fun _ => rfl) (moved_of_sync (side := .producer) h) fun e => absurd e.symm hc
  | call c => exact noClients h
  | receive b st => exact noClients h
  | transmitReady => exact noClients h
  | advance c => exact noClients h
  | globalInterrupts on =>
    cases h
    have hwr : (s.setSerial { s.clients.serial with globalInterruptsOn := on }).out.wr = none := congrArg Outputs.wr ho
    rw [pushedBy_none hwr]
    rfl

/-- In two domains so does a step of the machine, and what is left of the inputs leaves the view too (R6). -/
theorem step_used (hb : Bench ch s) (hv : ∀ inp ∈ s.inputs, leavesTailView ch inp = true) (h : step s = .next t) :
    (∀ inp ∈ t.inputs, leavesTailView ch inp = true) ∧ t.used ch = s.used ch + (pushedBy ch t).length := by
  rcases step_next h with ⟨-, rfl⟩ | ⟨inp, rest, hin, h⟩
  · refine ⟨hv, ?_⟩
    rw [State.used, State.setOut_fifoOf, pushedBy_none rfl]
    rfl
  · rw [hin, List.forall_mem_cons] at hv
    refine ⟨stepWith_inputs h ▸ hv.2, ?_⟩
    obtain ⟨u, hu, rfl⟩ := stepWith_next.mp h
    have hplat : u.platform = .twoDomains := (acted_of_takeInput hu).schedule.1.trans hb.platform
    rw [settle_twoDomains hplat]
    exact takeInput_used (s := (s.setInputs rest).setOut {}) hb.driver hb.level rfl hv.1 hu

/-! ### Runs. -/

/-- What every step keeps of a state and the bytes stored so far holds after a run. -/
theorem trace_stored_induction {P : State → List Byte → Prop}
    (hstep : ∀ {s t ps}, P s ps → step s = .next t → P t (ps ++ pushedBy ch t)) {k : Nat} {s u : State}
    {ps stored returned : List Byte} (hP : P s ps) (h : trace ch k s = some (u, stored, returned)) :
    P u (ps ++ stored) := by
  induction k generalizing s ps stored returned with
  | zero => cases h; rwa [List.append_nil]
  | succ k ih =>
    obtain ⟨t, qs, rs, hs, ht, rfl, rfl⟩ := trace_succ.mp h
    rw [← List.append_assoc]
    exact ih (hstep hP hs) ht

end step

/-- After the run from `s` that stored `stored`: the machine is sound, and the slots in use grew by no more. -/
structure UsedAtMost (ch : Channel) (s u : State) (stored : List Byte) : Prop where
  inv : u.inv = true
  initDone : (u.fifoOf ch).blk.initDone = true
  size : (u.fifoOf ch).N = (s.fifoOf ch).N
  used : u.used ch ≤ s.used ch + stored.length

/-- After the run from `s` that stored `stored`, on an architectural copy whose producer's view stays: the slots in use
grew by just as many. -/
structure UsedExactly (ch : Channel) (s u : State) (stored : List Byte) : Prop where
  bench : Bench ch u
  view : ∀ inp ∈ u.inputs, leavesTailView ch inp = true
  size : (u.fifoOf ch).N = (s.fifoOf ch).N
  used : u.used ch = s.used ch + stored.length

section run
variable {ch : Channel} {s t u : State} {ps stored returned : List Byte} {k : Nat}

theorem step_size (h : step s = .next t) (ch : Channel) : (t.fifoOf ch).N = (s.fifoOf ch).N :=
  congrArg Prod.fst (step_keeps_configuration h ch).1

theorem UsedAtMost.step (h : UsedAtMost ch s t ps) (hs : step t = .next u) :
    UsedAtMost ch s u (ps ++ pushedBy ch u) where
  inv := step_keeps_inv h.inv hs
  initDone := step_initDone hs h.initDone
  size := (step_size hs ch).trans h.size
  used := by
    have hstep := step_used_le h.inv h.initDone hs
    have hsofar := h.used
    rw [List.length_append]
    omega

theorem UsedExactly.step (h : UsedExactly ch s t ps) (hs : step t = .next u) :
    UsedExactly ch s u (ps ++ pushedBy ch u) := by
  obtain ⟨hview, hused⟩ := step_used h.bench h.view hs
  refine ⟨h.bench.step hs, hview, (step_size hs ch).trans h.size, ?_⟩
  rw [hused, h.used, List.length_append, Nat.add_assoc]

theorem trace_usedAtMost (hi : s.inv = true) (hd : (s.fifoOf ch).blk.initDone = true)
    (h : trace ch k s = some (u, stored, returned)) : UsedAtMost ch s u stored :=
  trace_stored_induction UsedAtMost.step (ps := []) ⟨hi, hd, rfl, Nat.le_refl _⟩ h

theorem trace_usedExactly (hb : Bench ch s) (hv : ∀ inp ∈ s.inputs, leavesTailView ch inp = true)
    (h : trace ch k s = some (u, stored, returned)) : UsedExactly ch s u stored :=
  trace_stored_induction UsedExactly.step (ps := []) ⟨hb, hv, rfl, rfl⟩ h

end run

end Sys2Proof.Machine

open Sys2Proof Sys2Proof.Machine

/-- Settles O43: a run that stores nothing leaves the producer no fewer free slots in view. -/
theorem roomSeenStaysUntilUsed : Obligations.RoomSeenStaysUntilUsed := by
  unfold Obligations.RoomSeenStaysUntilUsed
  intro ch k s u returned data hi hd hf h
  obtain ⟨hiu, hdu, hsize, hused⟩ := trace_usedAtMost hi hd h
  have hused : u.used ch ≤ s.used ch := hused
  have hlu := (inv_fifo hiu ch).1
  have hroom := ((s.fifoOf ch).blk.not_full_iff (Fifo.legal_pos (inv_fifo hi ch).1)).mp hf
  have hfu : (u.fifoOf ch).blk.full = false := by
    have hcap : 2 ^ (u.fifoOf ch).N = 2 ^ (s.fifoOf ch).N := congrArg (2 ^ ·) hsize
    exact (Block.not_full_iff (Fifo.legal_pos hlu) _).mpr (hcap ▸ Nat.lt_of_le_of_lt (Nat.succ_le_succ hused) hroom)
  have hr : (u.fifoOf ch).ready = true := by rw [Fifo.ready, hlu, hdu]; rfl
  exact ⟨hfu, _, exec_push_stored (s := u.on ch) data hr hfu, rfl⟩

/-- Settles O46: with its view still, the producer takes every byte stored to be in use, and the ring has `C` slots. -/
theorem atMostCMinusOnePushesWithoutSyncT : Obligations.AtMostCMinusOnePushesWithoutSyncT := by
  unfold Obligations.AtMostCMinusOnePushesWithoutSyncT
  intro ch k s u stored returned hi hd hdrv hp ha hv h
  obtain ⟨-, -, hsize, hused⟩ := trace_usedExactly ⟨hi, hd, hdrv, hp, ha⟩ hv h
  have hcap : 2 ^ (u.fifoOf ch).N = 2 ^ (s.fifoOf ch).N := congrArg (2 ^ ·) hsize
  have hlt : s.used ch + stored.length < 2 ^ (s.fifoOf ch).N := hused ▸ hcap ▸ (u.fifoOf ch).blk.used_lt
  exact Nat.le_sub_one_of_lt (Nat.add_comm .. ▸ hlt)
end

section
/-! SUPPORT. The consumer's commands (spec/41_consumer_ops.md): what the edge after a command leaves of the block, and
that a POP of a byte in sight returns one. -/

namespace Sys2Proof.Machine

section block
variable {N : Nat} (b : Block N)

/-- `full` reads `head` and the producer's view, and a consumer's edge moves neither (R27, R146). -/
@[simp] theorem Block.consumerEdge_full : b.consumerEdge.full = b.full := by
  simp [Block.full]

/-- Wherever a consumer command leaves `tail`, the producer's view and `full` stay. -/
theorem Block.consumerEdge_keeps_producer_flags (t' : BitVec N) :
    ({ b with tail := t' } : Block N).consumerEdge.tailSeen = b.tailSeen ∧
      ({ b with tail := t' } : Block N).consumerEdge.full = b.full :=
  ⟨Block.consumerEdge_tailSeen _, Block.consumerEdge_full _⟩

end block

/-- A command that leaves the block to its edge writes no pointer and no slot. -/
theorem consumerEdge_writes_nothing {q : Fifo} (hr : q.ready = true) :
    q.blk.consumerEdge.storage = q.blk.storage ∧ q.blk.consumerEdge.head = q.blk.head ∧
      q.blk.consumerEdge.tail = q.blk.tail ∧ q.blk.consumerEdge.tailSeen = q.blk.tailSeen ∧
      q.blk.consumerEdge.initDone = true ∧ (q.blk.isArchitectural = true → q.blk.consumerEdge = q.blk) :=
  ⟨rfl, rfl, rfl, q.blk.consumerEdge_tailSeen, Fifo.ready_initDone hr, Block.consumerEdge_architectural⟩

/-- A POP of a byte in sight returns one (R121, R124). -/
theorem exec_pop_of_nonempty {s : State} {ch : Channel} (hi : s.inv = true) (hd : (s.fifoOf ch).blk.initDone = true)
    (he : (s.fifoOf ch).blk.empty = false) :
    ∃ t v, exec .pop (s.on ch) = .next t ∧ t.out.cValid = some true ∧ t.out.cData = some v := by
  obtain ⟨hl, hb⟩ := inv_fifo hi ch
  have hr : (s.fifoOf ch).ready = true := by rw [Fifo.ready, hl, hd]; rfl
  obtain ⟨v, hv⟩ := nonempty_popped (Fifo.legal_crossing hl) (sound_of_inv hb hd) he
  exact ⟨_, v, exec_pop_byte (s := s.on ch) hr he hv, rfl, rfl⟩

end Sys2Proof.Machine

open Sys2Proof Sys2Proof.Machine

/-- Settles O10: C_NOP leaves the block to the edge. -/
theorem cNopWritesNothing : Obligations.CNopWritesNothing := by
  unfold Obligations.CNopWritesNothing
  exact fun s hr => ⟨_, exec_cNop hr, consumerEdge_writes_nothing hr⟩

/-- Settles O12: a POP at empty leaves the block to the edge. -/
theorem popAtEmptyWritesNothing : Obligations.PopAtEmptyWritesNothing := by
  unfold Obligations.PopAtEmptyWritesNothing
  exact fun s hr h => ⟨_, exec_pop_empty hr ((Block.empty_iff _).mpr h), consumerEdge_writes_nothing hr⟩

/-- Settles O13: COUNT leaves the block to the edge, and its result is a distance on the ring. -/
theorem countReturnsTheMaskedDifference : Obligations.CountReturnsTheMaskedDifference := by
  unfold Obligations.CountReturnsTheMaskedDifference
  exact fun s hr => ⟨_, _, exec_count hr, dist_toNat_eq_emod _ _, Nat.le_sub_one_of_lt (dist_lt _ _),
    consumerEdge_writes_nothing hr⟩

/-- Settles O11: the byte in sight is returned and `tail` advances; the edge moves nothing but the clocked crossing. -/
theorem popReturnsTheByteAfterTail : Obligations.PopReturnsTheByteAfterTail := by
  unfold Obligations.PopReturnsTheByteAfterTail
  intro s v hr hne hv
  have he : s.fifo.blk.empty = false := by rwa [← Bool.not_eq_true, Block.empty_iff]
  obtain ⟨hview, hfull⟩ := s.fifo.blk.consumerEdge_keeps_producer_flags (inc s.fifo.blk.tail)
  refine ⟨_, exec_pop_byte hr he hv, rfl, rfl, rfl, hview, hfull, Fifo.ready_initDone hr, fun ha => ?_⟩
  rw [Block.consumerEdge_architectural (b := { s.fifo.blk with tail := inc s.fifo.blk.tail }) ha]
  exact ⟨rfl, Block.empty_iff _⟩

/-- Settles O14: DRAIN takes `tail` to the view, and the edge moves nothing but the clocked crossing. -/
theorem drainSetsTailToTheView : Obligations.DrainSetsTailToTheView := by
  unfold Obligations.DrainSetsTailToTheView
  intro s hr
  obtain ⟨hview, hfull⟩ := s.fifo.blk.consumerEdge_keeps_producer_flags s.fifo.blk.headSeen
  refine ⟨_, exec_drain hr, rfl, rfl, rfl, hview, hfull, Fifo.ready_initDone hr, fun ha => ?_⟩
  rw [Block.consumerEdge_architectural (b := s.fifo.blk.drain) ha]
  exact ⟨rfl, (Block.empty_iff _).mpr rfl⟩

/-- Settles O18: a consumer command moves `tail` forward or leaves it; the edge moves no more than its crossing. -/
theorem consumerCommandsKeepTheRest : Obligations.ConsumerCommandsKeepTheRest := by
  unfold Obligations.ConsumerCommandsKeepTheRest
  intro i s t hp h
  obtain ⟨-, j, o, rfl, -, -, hj⟩ := exec_consumer hp h
  obtain ⟨hview, hfull⟩ := s.fifo.blk.consumerEdge_keeps_producer_flags (advance s.fifo.blk.tail j)
  refine ⟨_, rfl, rfl, rfl, hview, hfull, rfl, ?_⟩
  rcases hj with ⟨rfl, v, rfl, -⟩ | ⟨-, rfl | rfl⟩
  case inl => exact ⟨nofun, fun _ => .inr (inc_eq_advance _).symm⟩ -- a POP of a byte
  case inr.inl => exact ⟨nofun, nofun⟩ -- DRAIN
  case inr.inr => exact ⟨fun _ => advance_zero _, fun _ => .inl (advance_zero _)⟩ -- `tail` stays
end

section
/-! SUPPORT. No step faults (R121, R124, R200): which steps of the model cannot stop with a fault, one rule per shared
operation and one lemma per agent. -/

namespace Sys2Proof.Machine

/-- The step does not stop with a fault. -/
def Faultless {α : Type} (o : Host.Outcome α Fault Refusal) : Prop := ∀ r, o ≠ .fault r

theorem faultless_next {α : Type} (a : α) : Faultless (.next a) := nofun

theorem faultless_refused {α : Type} (r : Refusal) : Faultless (.refused r : Host.Outcome α Fault Refusal) := nofun

/-! ### The shared operations. -/

section rules
variable {s : State} {o act : Host.Outcome State Fault Refusal} {f : State → Host.Outcome State Fault Refusal}

theorem Faultless.whenReady (h : Faultless act) (q : Fifo) : Faultless (q.whenReady act) :=
  fun r hr => h r (whenReady_fault.mp hr).2

theorem Faultless.onceStarted (h : Faultless act) (s : State) : Faultless (s.onceStarted act) :=
  fun r hr => h r (onceStarted_fault.mp hr).2

theorem Faultless.continueWith (ho : Faultless o) (hf : ∀ t, o = .next t → Faultless (f t)) :
    Faultless (continueWith o f) := by
  intro r hr
  rcases continueWith_fault.mp hr with h | ⟨t, ht, h⟩
  · exact ho r h
  · exact hf t ht r h

theorem Faultless.asClient (hf : s.driver = .clients → Faultless (f s)) : Faultless (asClient s f) := by
  unfold Machine.asClient
  split
  · exact hf ‹_›
  · exact faultless_refused _

theorem Faultless.command {edge : (N : Nat) → Block N → Block N} {f : Command}
    (hf : Faultless (f s.fifo.N s.fifo.blk)) : Faultless (s.command edge f) := by
  refine Faultless.whenReady ?_ _
  split
  case h_1 => exact faultless_next _
  case h_2 r hr => exact absurd hr (hf r)
  case h_3 => exact faultless_refused _

end rules

/-- A step of the crossing touches no slot. -/
theorem sync_faultless {N : Nat} (b : Block N) (side : Side) (k : Nat) : Faultless (b.sync side k) := by
  cases side with
  | producer =>
    change Faultless (b.syncT k)
    unfold Block.syncT
    split
    · split
      · exact faultless_next _
      · exact faultless_refused _
    · exact faultless_refused _
  | consumer =>
    change Faultless (b.syncH k)
    unfold Block.syncH
    split
    · split
      · exact faultless_next _
      · exact faultless_refused _
    · exact faultless_refused _

/-! ### What runs no command. -/

section noCommand
variable {s : State}

theorem startCall_faultless (c : Call) : Faultless (startCall c s) := by
  unfold startCall
  split
  case isTrue => exact faultless_refused _
  case isFalse =>
    split
    case isTrue => exact faultless_refused _
    case isFalse =>
      cases c with
      | init cfg => exact faultless_next _
      | tryReadByte => exact (faultless_next _).onceStarted s
      | writeByte b => exact (faultless_next _).onceStarted s
      | writeString bs => exact (faultless_next _).onceStarted s
      | bytesAvailable => exact (faultless_next _).onceStarted s
      | flushReceive => exact (faultless_next _).onceStarted s

theorem receiveEvent_faultless (b : Byte) (st : HwStatus) : Faultless (receiveEvent b st s) := by
  unfold receiveEvent
  split
  · split
    · exact (faultless_next _).onceStarted s
    · exact faultless_refused _
  · exact faultless_refused _

theorem transmitReadyEvent_faultless : Faultless (transmitReadyEvent s) := by
  unfold transmitReadyEvent
  split
  · split
    · exact ((faultless_next _).onceStarted s).whenReady _
    · exact faultless_refused _
  · exact faultless_refused _

theorem syncInput_faultless (ch : Channel) (side : Side) (k : Nat) : Faultless (takeInput (syncInput ch side k) s) := by
  rw [takeInput_syncInput]
  exact .command (sync_faultless _ side k)

end noCommand

/-! ### What runs commands, where the invariant holds. -/

section commands
variable {s : State} (hi : s.inv = true)
include hi

/-- Every unread slot holds a byte, so no command faults on either copy. -/
theorem exec_on_faultless (i : Instr) (ch : Channel) : Faultless (exec i (s.on ch)) :=
  fun _ => exec_on_no_fault (inv_fifo hi ch).2

theorem onceStarted_exec_faultless (i : Instr) (ch : Channel) {f : State → Host.Outcome State Fault Refusal}
    (hf : ∀ t, Faultless (f t)) : Faultless (s.onceStarted (continueWith (exec i (s.on ch)) f)) :=
  ((exec_on_faultless hi i ch).continueWith fun t _ => hf t).onceStarted s

theorem initStep_faultless (stage : InitStage) (cfg : Nat) : Faultless (initStep stage cfg s) := by
  cases stage
  case resetRx => exact (exec_on_faultless hi .init .rx).continueWith fun _ _ => faultless_next _
  case resetTx => exact (exec_on_faultless hi .init .tx).continueWith fun _ _ => faultless_next _
  all_goals exact faultless_next _

theorem mainlineStep_faultless : Faultless (mainlineStep s) := by
  unfold mainlineStep
  split
  case isTrue => exact faultless_refused _
  case isFalse =>
    split
    case h_1 => exact faultless_refused _
    case h_2 stage cfg _ => exact initStep_faultless hi stage cfg
    case h_3 => exact onceStarted_exec_faultless hi .pop .rx fun t => by split <;> exact faultless_next _
    case h_4 => exact faultless_next _
    case h_5 b rest _ => exact onceStarted_exec_faultless hi (.push b) .tx fun t => by split <;> exact faultless_next _
    case h_6 => exact faultless_next _
    case h_7 => exact onceStarted_exec_faultless hi .count .rx fun _ => faultless_next _
    case h_8 => exact onceStarted_exec_faultless hi .drain .rx fun _ => faultless_next _

theorem receiveHandlerStep_faultless : Faultless (receiveHandlerStep s) := by
  unfold receiveHandlerStep
  split
  case h_1 => exact faultless_refused _
  case h_2 b k _ => exact onceStarted_exec_faultless hi (.push b) .rx fun _ => faultless_next _
  case h_3 => exact faultless_next _

/-- The handler about to pop has a byte in sight (R124). -/
theorem transmitHandlerStep_faultless (hd : s.driver = .clients) : Faultless (transmitHandlerStep s) := by
  unfold transmitHandlerStep
  split
  case h_1 => exact faultless_refused _
  case h_2 hpop =>
    obtain ⟨hdone, he⟩ := popReady_iff.mp (inv_iff.mp hi).2 hd hpop
    obtain ⟨t, v, hx, -, hv⟩ := exec_pop_of_nonempty hi (ch := .tx) hdone he
    rw [show execPop (s.on .tx) = .next t from hx, continueWith_of_next, hv]
    exact (faultless_next _).onceStarted s
  case h_3 => exact faultless_next _
  case h_4 => exact (faultless_next _).whenReady _

theorem presentPorts_faultless (ch : Channel) (side : Side) (p : Ports) : Faultless (presentPorts ch side p s) := by
  unfold presentPorts
  split
  · exact exec_on_faultless hi _ ch
  · exact faultless_refused _

theorem takeInput_faultless (inp : Input) : Faultless (takeInput inp s) := by
  cases inp with
  | ports ch side p => exact presentPorts_faultless hi ch side p
  | syncH ch k => exact syncInput_faultless ch .consumer k
  | syncT ch k => exact syncInput_faultless ch .producer k
  | call c => exact .asClient fun _ => startCall_faultless c
  | receive b st => exact .asClient fun _ => receiveEvent_faultless b st
  | transmitReady => exact .asClient fun _ => transmitReadyEvent_faultless
  | advance c =>
    refine .asClient fun hd => ?_
    cases c with
    | mainline => exact mainlineStep_faultless hi
    | receiveHandler => exact receiveHandlerStep_faultless hi
    | transmitHandler => exact transmitHandlerStep_faultless hi hd
  | globalInterrupts on => exact faultless_next _

end commands

theorem step_faultless {s : State} (hi : s.inv = true) : Faultless (step s) := by
  cases hin : s.inputs with
  | nil => rw [step_nil hin]; exact faultless_next _
  | cons inp rest =>
    rw [step_cons hin]
    exact (takeInput_faultless (s := (s.setInputs rest).setOut {}) hi inp).continueWith fun _ _ => faultless_next _

end Sys2Proof.Machine

open Sys2Proof Sys2Proof.Machine

/-- Settles O34: every unread slot holds a byte, so no command faults, and the transmit-ready handler about to pop has a
byte in sight. -/
theorem noStepFaults : Obligations.NoStepFaults := by
  unfold Obligations.NoStepFaults
  exact fun _ r hi => step_faultless hi r
end

section
/-! SUPPORT. What the consumer sees over a run (R122, R124): a byte in sight stays in sight until it is returned, and as
many POPs as there are bytes in sight return them. -/

namespace Sys2Proof.Machine

/-! ### A byte in sight (R124). -/

/-- The copy has had its INIT, its consumer sees a byte, and no input still to come discards one. -/
def State.inSight (s : State) (ch : Channel) : Prop :=
  s.keeping ∧ (s.fifoOf ch).blk.initDone = true ∧ (s.fifoOf ch).blk.empty = false

section inSight
variable {s t u : State} {ch : Channel}

/-- The catch-up brings the view to `head`, not back. -/
theorem settle_nonempty (hi : u.inv = true) (hd : (u.fifoOf ch).blk.initDone = true)
    (he : (u.fifoOf ch).blk.empty = false) : ((settle u).fifoOf ch).blk.empty = false := by
  obtain ⟨hl, hb⟩ := inv_fifo hi ch
  rw [settle_fifoOf]
  cases u.platform with
  | singleProcessor => exact caughtUp_nonempty (Fifo.legal_crossing hl) (sound_of_inv hb hd) he
  | twoDomains => exact he

/-- With a byte in sight a command but DRAIN and INIT returns one or leaves one in sight. -/
theorem exec_returns_or_nonempty {i : Instr} {c : Channel} (hn : i ≠ .drain ∧ i ≠ .init) (hi : s.inv = true)
    (hd : (s.fifoOf ch).blk.initDone = true) (he : (s.fifoOf ch).blk.empty = false)
    (h : exec i (s.on c) = .next t) (hret : poppedBy ch t = []) : (t.fifoOf ch).blk.empty = false := by
  by_cases hc : ch = c
  · subst hc
    by_cases hpop : i = .pop
    · subst hpop
      obtain ⟨t', v, hx, -, hv⟩ := exec_pop_of_nonempty hi hd he
      obtain rfl : t = t' := Host.Outcome.next.inj (h.symm.trans hx)
      have hsel : t.sel = ch := (moved_of_exec h).sel
      rw [poppedBy_same hsel, hv] at hret
      cases hret
    · exact exec_on_nonempty ⟨hpop, hn⟩ (sound_of_inv (inv_fifo hi ch).2 hd) he h
  · rwa [exec_on_other hc h]

/-- With the outside driving, an input that discards nothing returns the byte in sight or leaves one in sight. -/
theorem takeInput_returns_or_nonempty {inp : Input} (hdrv : s.driver = .ports) (hk : keepsBytes inp = true)
    (hi : s.inv = true) (hd : (s.fifoOf ch).blk.initDone = true) (he : (s.fifoOf ch).blk.empty = false)
    (h : takeInput inp s = .next t) (hret : poppedBy ch t = []) : (t.fifoOf ch).blk.empty = false := by
  have noClients {f : State → Host.Outcome State Fault Refusal} (h : asClient s f = .next t) :
      (t.fifoOf ch).blk.empty = false := absurd (hdrv.symm.trans (asClient_next h).1) nofun
  cases inp with
  | ports c side p =>
    have hn : p.command side ≠ .drain ∧ p.command side ≠ .init := by simpa [keepsBytes] using hk
    exact exec_returns_or_nonempty hn hi hd he (takeInput_ports (.inl hdrv) ▸ h) hret
  | syncH c k => exact stepSyncH_on_nonempty hi h ch he
  | syncT c k => exact stepSyncT_on_nonempty h ch he
  | call c => exact noClients h
  | receive b st => exact noClients h
  | transmitReady => exact noClients h
  | advance c => exact noClients h
  | globalInterrupts on => cases h; exact he

theorem step_inSight (hs : s.inSight ch) (h : step s = .next t) (hret : poppedBy ch t = []) : t.inSight ch := by
  obtain ⟨hkeep, hd, he⟩ := hs
  refine ⟨(step_delivers_all (ch := ch) hkeep h).1, step_initDone h hd, ?_⟩
  obtain ⟨hi, hdrv, hk⟩ := hkeep
  rcases step_next h with ⟨-, rfl⟩ | ⟨inp, rest, hin, h⟩
  · rwa [State.setOut_fifoOf]
  · rw [hin, List.forall_mem_cons] at hk
    obtain ⟨u, hu, rfl⟩ := stepWith_next.mp h
    have hret : poppedBy ch u = [] := by simpa [poppedBy] using hret
    have hiu : u.inv = true := acted_inv (acted_of_takeInput hu) (touched_of_takeInput hu) hi
    exact settle_nonempty hiu (touched_initDone (touched_of_takeInput hu) ch hd)
      (takeInput_returns_or_nonempty (s := (s.setInputs rest).setOut {}) hdrv hk.1 hi hd he hu hret)

theorem trace_inSight {k : Nat} {stored : List Byte} (hs : s.inSight ch) (h : trace ch k s = some (u, stored, [])) :
    u.inSight ch := by
  induction k generalizing s stored with
  | zero => cases h; exact hs
  | succ k ih =>
    obtain ⟨t, ps, qs, hstep, ht, -, hret⟩ := trace_succ.mp h
    obtain ⟨hnow, rfl⟩ := List.append_eq_nil_iff.mp hret.symm
    exact ih (step_inSight hs hstep hnow) ht

end inSight

/-! ### As many POPs as bytes in sight (R122). -/

section pops
variable {s : State} {ch : Channel}

/-- As many POPs as the consumer sees bytes return the oldest ones, in order, each one less in sight. -/
theorem trace_pops_oldest {n : Nat} (h : Bench ch s) (hn : n ≤ (s.fifoOf ch).blk.available.toNat)
    (hin : s.inputs = List.replicate n (commandInput ch .pop)) :
    ∃ u, trace ch n s = some (u, [], (s.unread ch).take n) ∧ Bench ch u ∧
      (u.fifoOf ch).blk.available.toNat = (s.fifoOf ch).blk.available.toNat - n := by
  induction n generalizing s with
  | zero => exact ⟨s, rfl, h, rfl⟩
  | succ n ih =>
    have he : (s.fifoOf ch).blk.empty = false := nonempty_iff.mpr (Nat.lt_of_lt_of_le (Nat.succ_pos n) hn)
    obtain ⟨v, t, ht⟩ := took_pop h he hin
    have hkeep : s.keeping := ⟨h.inv, h.driver, fun inp hmem => by
      rw [hin] at hmem
      rw [List.eq_of_mem_replicate hmem]
      exact keepsBytes_commandInput ⟨nofun, nofun⟩⟩
    have hqueue : s.unread ch = v :: t.unread ch := by
      simpa [ht.stored, ht.returned] using delivers_eq_iff.mp (step_delivers_all (ch := ch) hkeep ht.step).2
    have hleft : (t.fifoOf ch).blk.available.toNat = (s.fifoOf ch).blk.available.toNat - 1 := by
      rw [ht.fifo]; exact freed_available (nonempty_iff.mp he)
    obtain ⟨u, hrun, hu, hsight⟩ := ih (h.step ht.step) (by omega) ht.inputs
    refine ⟨u, ?_, hu, by omega⟩
    rw [hqueue]
    exact ht.trace hrun

/-- What the consumer sees is unread. -/
theorem Bench.available_le_unread (h : Bench ch s) : (s.fifoOf ch).blk.available.toNat ≤ (s.unread ch).length := by
  rw [State.unread, h.sound.contents_length]
  exact h.sound.available_le (Fifo.legal_crossing h.legal)

end pops

end Sys2Proof.Machine

open Sys2Proof Sys2Proof.Machine

/-- Settles O44: no step but one that returns it hides the byte in sight, and what is in sight can be popped. -/
theorem byteSeenStaysUntilTaken : Obligations.ByteSeenStaysUntilTaken := by
  unfold Obligations.ByteSeenStaysUntilTaken
  intro ch k s u stored hi hd he hdrv hk h
  obtain ⟨⟨hiu, -, -⟩, hdu, heu⟩ := trace_inSight ⟨⟨hi, hdrv, hk⟩, hd, he⟩ h
  exact ⟨heu, exec_pop_of_nonempty hiu hdu heu⟩

/-- Settles O45: each POP returns the oldest byte and leaves one less in sight, until there is none. -/
theorem countIsHowManyPopsSucceed : Obligations.CountIsHowManyPopsSucceed := by
  unfold Obligations.CountIsHowManyPopsSucceed
  intro ch s hi hd hdrv hp ha hin
  have hb : Bench ch s := ⟨hi, hd, hdrv, hp, ha⟩
  obtain ⟨u, hrun, hu, hsight⟩ := trace_pops_oldest hb (Nat.le_refl _) hin
  have he : (u.fifoOf ch).blk.empty = true := by
    rw [← Bool.not_eq_false, nonempty_iff]
    exact Nat.not_lt.mpr (Nat.le_of_eq (hsight.trans (Nat.sub_self _)))
  have hlen : s.inputs.length = (s.fifoOf ch).blk.available.toNat := by rw [hin, List.length_replicate]
  exact ⟨u, hlen ▸ hrun, hb.available_le_unread, _, exec_pop_empty (s := u.on ch) hu.ready he, rfl⟩
end

section
/-! SUPPORT. The gray code as the spec writes it (R140, R141, R142): its bits, and the decoding as the sum of all
shifts. -/

namespace Sys2Proof.Machine

variable {N : Nat}

/-- There is no bit above the top one to add to it. -/
theorem gray_getLsbD_top (b : BitVec N) : (gray b).getLsbD (N - 1) = b.getLsbD (N - 1) := by
  rw [gray_getLsbD, BitVec.getLsbD_of_ge b (N - 1 + 1) (by omega), Bool.xor_false]

/-- A bit of the decoding is the one above it plus the code's, since coding the decoding gives the code back. -/
theorem ungray_getLsbD (g : BitVec N) (i : Nat) :
    (ungray g).getLsbD i = ((ungray g).getLsbD (i + 1) ^^ g.getLsbD i) := by
  have hcode : g.getLsbD i = ((ungray g).getLsbD i ^^ (ungray g).getLsbD (i + 1)) := by
    rw [← gray_getLsbD, gray_ungray]
  rw [hcode, Bool.xor_comm, Bool.xor_assoc, Bool.xor_self, Bool.xor_false]

theorem ungrayTerms_eq_foldl (g : BitVec N) (k : Nat) :
    ungrayTerms g k = (List.range k).foldl (fun acc i => acc ^^^ (g >>> i)) 0 := by
  induction k with
  | zero => rfl
  | succ k ih => rw [ungrayTerms, ih, List.range_succ, List.foldl_append, List.foldl_cons, List.foldl_nil]

/-- In a word of ones only the top bit differs from the one above it. -/
theorem gray_allOnes_getLsbD (hN : 0 < N) (j : Nat) : (gray (BitVec.allOnes N)).getLsbD j = true ↔ j = N - 1 := by
  have hxor : ∀ x y : Bool, (x ^^ y) = true ↔ ¬ x = y := by decide
  rw [gray_getLsbD, BitVec.getLsbD_allOnes, BitVec.getLsbD_allOnes, hxor, decide_eq_decide]
  omega

end Sys2Proof.Machine

open Sys2Proof Sys2Proof.Machine

/-- Settles O23: the bits are the definition's, and the decoding is its inverse on both sides. -/
theorem grayIsTheReflectedCode : Obligations.GrayIsTheReflectedCode := by
  unfold Obligations.GrayIsTheReflectedCode
  intro N _
  refine ⟨fun b => ⟨rfl, gray_getLsbD_top b, fun i _ => ?_⟩, fun a b h => ?_, fun g => ⟨ungray g, gray_ungray g⟩,
    gray_zero⟩
  · rw [gray_getLsbD, Bool.xor_comm]
  · rw [← ungray_gray a, h, ungray_gray]

/-- Settles O24: the bits of the decoding are read off the code it has. -/
theorem ungrayInvertsGray : Obligations.UngrayInvertsGray := by
  unfold Obligations.UngrayInvertsGray
  intro N _ g
  have htop := gray_getLsbD_top (ungray g)
  rw [gray_ungray] at htop
  exact ⟨htop.symm, fun i _ => ungray_getLsbD g i, ungrayTerms_eq_foldl g N, ungray_gray, gray_ungray g⟩

/-- Settles O25: counting up carries into a run of low bits, and only the last of them changes in the code. -/
theorem neighbouringCodesDifferInOneBit : Obligations.NeighbouringCodesDifferInOneBit := by
  unfold Obligations.NeighbouringCodesDifferInOneBit
  exact fun N hN => ⟨gray_inc_differs_in_one_bit hN, gray_allOnes_getLsbD hN⟩
end

section
/-! SUPPORT. The SYNC steps (R143, R144): when one is enabled, the block it leaves, and what it does to the flags. -/

namespace Sys2Proof.Machine

section block
variable {N S k : Nat} {b b' : Block N} {o : Outputs} {side : Side}

/-- The crossing with the view of `side` moved by `k` slots; a clocked one has no such move. -/
def Crossing.moveView (side : Side) (k : Nat) : Crossing N → Crossing N
  | .architectural h t =>
    match side with
    | .producer => .architectural h (advance t k)
    | .consumer => .architectural (advance h k) t
  | .clocked hg tg hs ts => .clocked hg tg hs ts

/-- The block after a SYNC step of `side` by `k`. -/
def Block.synced (b : Block N) (side : Side) (k : Nat) : Block N :=
  { b with crossing := b.crossing.moveView side k }

/-- A SYNC step by 0 would move nothing. -/
theorem synced_zero : b.synced side 0 = b := by
  obtain ⟨storage, head, tail, crossing, initDone⟩ := b
  cases crossing with
  | clocked => rfl
  | architectural h t => cases side <;> simp [Block.synced, Crossing.moveView, advance_zero]

/-- A SYNC step is enabled exactly for `1 <= k <=` the lag of its view. -/
theorem sync_eq (ha : b.isArchitectural = true) (side : Side) (k : Nat) :
    b.sync side k =
      if 1 ≤ k ∧ k ≤ b.lag side then .next (b.synced side k, {}) else .refused .syncNotEnabled := by
  cases hc : b.crossing with
  | clocked hg tg hs ts => simp [Block.isArchitectural, hc] at ha
  | architectural v w =>
    cases side with
    | producer => simp only [Block.sync, Block.syncT, Block.synced, Block.lag, Block.view, Block.tailSeen, hc]; rfl
    | consumer => simp only [Block.sync, Block.syncH, Block.synced, Block.lag, Block.view, Block.headSeen, hc]; rfl

/-- The largest step brings the view to its pointer. -/
theorem sync_catches_up (h : b.sync side k = .next (b', o)) (hk : k = b.lag side) : b'.view side = b.watched side := by
  obtain ⟨-, -, hview, -⟩ := sync_next h
  rw [hview, hk, Block.lag, advance_dist]

/-- `full` reads the view that SYNC.H leaves (R27). -/
theorem syncH_full (h : b.syncH k = .next (b', o)) : b'.full = b.full := by
  have hview : b'.tailSeen = b.tailSeen := sync_other_view (side := .producer) (other := .consumer) nofun h
  obtain ⟨c, rfl⟩ := sync_moves_view (side := .consumer) h
  rw [Block.full, hview]
  rfl

/-- `empty` reads the view that SYNC.T leaves (R27). -/
theorem syncT_empty (h : b.syncT k = .next (b', o)) : b'.empty = b.empty := by
  have hview : b'.headSeen = b.headSeen := sync_other_view (side := .consumer) (other := .producer) nofun h
  obtain ⟨c, rfl⟩ := sync_moves_view (side := .producer) h
  rw [Block.empty, hview]
  rfl

section sound
variable (hl : b.crossing.legal S = true) (hs : Sound b)
include hl hs

/-- A SYNC.H brings a byte in sight. -/
theorem syncH_brings_byte (h : b.syncH k = .next (b', o)) : b'.empty = false := by
  obtain ⟨hk, -, -, -⟩ := sync_next (side := .consumer) h
  have hsight := syncH_available hl hs h
  exact nonempty_iff.mpr (show 0 < b'.available.toNat by omega)

/-- A SYNC.T takes `k` slots off those that the producer takes to be in use. -/
theorem syncT_used (h : b.syncT k = .next (b', o)) : b'.used + k = b.used := by
  obtain ⟨-, hk, hview, -⟩ := sync_next (side := .producer) h
  obtain ⟨c, rfl⟩ := sync_moves_view (side := .producer) h
  have hused := hs.used_eq hl
  have hle : k ≤ b.used := by omega
  rw [Block.used, show Block.tailSeen _ = _ from hview]
  exact (congrArg (· + k) (dist_advance_left b.tailSeen b.head k hle)).trans (Nat.sub_add_cancel hle)

/-- So it makes room. -/
theorem syncT_makes_room (hN : 0 < N) (h : b.syncT k = .next (b', o)) : b'.full = false := by
  obtain ⟨hk, -, -, -⟩ := sync_next (side := .producer) h
  have hused := syncT_used hl hs h
  have hlt := b.used_lt
  exact (b'.not_full_iff hN).mpr (by omega)

end sound
end block

/-- A SYNC step of the machine, on a ready architectural copy known by another name. -/
theorem takeInput_sync_eq {s : State} {ch : Channel} {q : Fifo} (hq : s.fifoOf ch = q) (hr : q.ready = true)
    (ha : q.blk.isArchitectural = true) (side : Side) (k : Nat) :
    takeInput (syncInput ch side k) s =
      if 1 ≤ k ∧ k ≤ q.blk.lag side then
        .next (((s.on ch).setFifo { q with blk := q.blk.synced side k }).setOut {})
      else .refused .syncNotEnabled := by
  rw [takeInput_syncInput, command_at ((State.on_fifo s ch).trans hq) (fun _ b => b) (fun _ b => b.sync side k) hr,
    sync_eq ha]
  by_cases h : 1 ≤ k ∧ k ≤ q.blk.lag side
  · rw [if_pos h, if_pos h]
  · rw [if_neg h, if_neg h]

end Sys2Proof.Machine

open Sys2Proof Sys2Proof.Machine

/-- Settles O21: `d(head_seen, head)` is the lag of the consumer's view. -/
theorem syncHMovesTheConsumersView : Obligations.SyncHMovesTheConsumersView := by
  unfold Obligations.SyncHMovesTheConsumersView
  intro ch k s h t hr hc
  have ha : (s.fifoOf ch).blk.isArchitectural = true := by rw [Block.isArchitectural, hc]
  have hlag : (s.fifoOf ch).blk.lag .consumer = (dist h (s.fifoOf ch).blk.head).toNat := by
    rw [Block.lag, Block.view, Block.headSeen, hc]; rfl
  have hstep := takeInput_sync_eq (s := s) (ch := ch) rfl hr ha .consumer k
  rw [← hlag]
  refine ⟨fun hk => ?_, fun hk => hstep.trans (if_neg hk)⟩
  have hsync := (sync_eq ha .consumer k).trans (if_pos hk)
  exact ⟨_, hstep.trans (if_pos hk), by rw [Block.synced, hc]; rfl, syncH_full hsync,
    fun hi => syncH_brings_byte (Fifo.legal_crossing (Fifo.ready_legal hr))
      (sound_of_inv hi (Fifo.ready_initDone hr)) hsync,
    sync_catches_up hsync⟩

/-- Settles O22: `d(tail_seen, tail)` is the lag of the producer's view. -/
theorem syncTMovesTheProducersView : Obligations.SyncTMovesTheProducersView := by
  unfold Obligations.SyncTMovesTheProducersView
  intro ch k s h t hr hc
  have ha : (s.fifoOf ch).blk.isArchitectural = true := by rw [Block.isArchitectural, hc]
  have hlag : (s.fifoOf ch).blk.lag .producer = (dist t (s.fifoOf ch).blk.tail).toNat := by
    rw [Block.lag, Block.view, Block.tailSeen, hc]; rfl
  have hstep := takeInput_sync_eq (s := s) (ch := ch) rfl hr ha .producer k
  rw [← hlag]
  refine ⟨fun hk => ?_, fun hk => hstep.trans (if_neg hk)⟩
  have hsync := (sync_eq ha .producer k).trans (if_pos hk)
  exact ⟨_, hstep.trans (if_pos hk), by rw [Block.synced, hc]; rfl, syncT_empty hsync,
    fun hi => syncT_makes_room (Fifo.legal_crossing (Fifo.ready_legal hr))
      (sound_of_inv hi (Fifo.ready_initDone hr)) (Fifo.legal_pos (Fifo.ready_legal hr)) hsync,
    sync_catches_up hsync⟩
end

section
/-! SUPPORT. The clock edges (R145, R146, R147), said once for both sides: the register a side samples, the chain it
shifts and the view that chain decodes to; and that a command of a side is an effect on the block, then that side's
edge. -/

namespace Sys2Proof.Machine

/-! ### Chains. -/

theorem shiftIn_eq_cons {α : Type} (x : α) {c : List α} (h : c ≠ []) : shiftIn x c = x :: c.dropLast :=
  List.dropLast_cons_of_ne_nil h

theorem shiftIn_eq_take {α : Type} (x : α) (c : List α) : shiftIn x c = (x :: c).take c.length := by
  rw [shiftIn, List.dropLast_eq_take, List.length_cons, Nat.add_sub_cancel]

/-- `n` shifts of a chain, taking in the same sample each time. -/
def shiftMany {α : Type} (x : α) : Nat → List α → List α
  | 0, c => c
  | n + 1, c => shiftMany x n (shiftIn x c)

/-- After `n` shifts the sample stands in the first `n` stages. -/
theorem shiftMany_eq_take {α : Type} (x : α) (n : Nat) (c : List α) :
    shiftMany x n c = (List.replicate n x ++ c).take c.length := by
  induction n generalizing c with
  | zero => rw [shiftMany, List.replicate_zero, List.nil_append, List.take_length]
  | succ n ih =>
    rw [shiftMany, ih, shiftIn_length, shiftIn_eq_take, List.replicate_succ', List.append_assoc, List.singleton_append,
      List.take_append, List.take_append, List.take_take, Nat.min_eq_left (Nat.sub_le _ _)]

/-- After as many shifts as there are stages it stands in all of them. -/
theorem shiftMany_length {α : Type} (x : α) (c : List α) : shiftMany x c.length c = List.replicate c.length x := by
  rw [shiftMany_eq_take, List.take_left' List.length_replicate]

section edge
variable {N S : Nat} {b b' : Block N} {side : Side} {x : BitVec N} {c : List (BitVec N)}

/-- A clock edge of one side. -/
def Block.edge (b : Block N) : Side → Block N
  | .producer => b.producerEdge
  | .consumer => b.consumerEdge

/-- The block is clocked: `side` has the chain `c` and samples the register `x` of the other side (R31). -/
def Block.samples (b : Block N) (side : Side) (x : BitVec N) (c : List (BitVec N)) : Prop :=
  match side with
  | .producer => ∃ hg hs, b.crossing = .clocked hg x hs c
  | .consumer => ∃ tg ts, b.crossing = .clocked x tg c ts

theorem samples_congr (h : b'.crossing = b.crossing) : b'.samples side x c ↔ b.samples side x c := by
  cases side <;> simp [Block.samples, h]

/-- The view is what the chain's last stage decodes to (R31). -/
theorem samples_view (h : b.samples side x c) : b.view side = ungray (c.getLastD 0) := by
  cases side with
  | producer => obtain ⟨hg, hs, h⟩ := h; rw [Block.view, Block.tailSeen, h]; rfl
  | consumer => obtain ⟨tg, ts, h⟩ := h; rw [Block.view, Block.headSeen, h]; rfl

theorem Crossing.legal_clocked {hg tg : BitVec N} {hs ts : List (BitVec N)}
    (h : (Crossing.clocked hg tg hs ts).legal S = true) : 2 ≤ S ∧ hs.length = S ∧ ts.length = S := by
  simp only [Crossing.legal, Config.legalS, Bool.and_eq_true, decide_eq_true_eq, beq_iff_eq] at h
  obtain ⟨⟨hS, hhs⟩, hts⟩ := h
  exact ⟨hS, hhs, hts⟩

/-- A chain has `S >= 2` stages (R8). -/
theorem samples_length (h : b.samples side x c) (hl : b.crossing.legal S = true) : 2 ≤ S ∧ c.length = S := by
  cases side with
  | producer =>
    obtain ⟨hg, hs, h⟩ := h
    obtain ⟨hS, -, hts⟩ := Crossing.legal_clocked (h ▸ hl)
    exact ⟨hS, hts⟩
  | consumer =>
    obtain ⟨tg, ts, h⟩ := h
    obtain ⟨hS, hhs, -⟩ := Crossing.legal_clocked (h ▸ hl)
    exact ⟨hS, hhs⟩

/-- An edge shifts the register into the chain and leaves the register (R145, R146). -/
theorem samples_edge (h : b.samples side x c) : (b.edge side).samples side x (shiftIn x c) := by
  cases side with
  | producer =>
    obtain ⟨hg, hs, h⟩ := h
    exact ⟨_, _, by rw [Block.edge, Block.producerEdge_crossing, h]; rfl⟩
  | consumer =>
    obtain ⟨tg, ts, h⟩ := h
    exact ⟨_, _, by rw [Block.edge, Block.consumerEdge_crossing, h]; rfl⟩

theorem edge_watched : (b.edge side).watched side = b.watched side := by
  cases side <;> rfl

/-- A clocked copy has nothing to settle (R151). -/
theorem settled_of_samples {q : Fifo} {x : BitVec q.N} {c : List (BitVec q.N)} (h : q.blk.samples side x c)
    (p : Platform) : p.settled q = q := by
  have hcaught (hd tl : BitVec q.N) : q.blk.crossing.caughtUp hd tl = q.blk.crossing := by
    cases side with
    | producer => obtain ⟨hg, hs, h⟩ := h; rw [h]; rfl
    | consumer => obtain ⟨tg, ts, h⟩ := h; rw [h]; rfl
  cases p with
  | singleProcessor => rw [Platform.settled, Fifo.caughtUp, Block.caughtUp, hcaught]
  | twoDomains => rfl

theorem walk_of_arrived {tg t' : BitVec N} (h : tg = gray t') : walk tg t' = tg := if_pos h

theorem walk_of_behind {tg t' : BitVec N} (h : tg ≠ gray t') : walk tg t' = gray (inc (ungray tg)) := if_neg h

end edge

/-! ### A command and its edge. -/

/-- The input a side's commands are presented on (R81, R82). -/
def commandPort : Side → Port
  | .producer => .pcmd
  | .consumer => .ccmd

theorem portsCommand_port {side : Side} {p : Ports} (h : p.init = 0) : (p.command side).port = commandPort side := by
  cases side with
  | producer => rw [portsCommand_producer h, decodeP_port]; rfl
  | consumer => rw [portsCommand_consumer h, decodeQ_port]; rfl

/-- What a command of `side` leaves of a block, besides its edge (R53, R56): the crossing, the pointer `side` watches and
that INIT has been taken. -/
def Block.keptBy {N : Nat} (b b' : Block N) (side : Side) : Prop :=
  b'.crossing = b.crossing ∧ b'.watched side = b.watched side ∧ b'.initDone = b.initDone

/-- The effect of a command of `side`: it keeps what is not its own, and reads no more than the image shows (R149). -/
structure Command.OfSide (f : Command) (side : Side) : Prop where
  kept {N : Nat} {b b' : Block N} {o : Outputs} : f N b = .next (b', o) → b.keptBy b' side
  image {N : Nat} {b b' : Block N} {o : Outputs} : f N b = .next (b', o) → f N b.image = .next (b'.image, o)

/-- The same for an effect that is always defined. -/
theorem ofSide_next {side : Side} {g : (N : Nat) → Block N → Block N × Outputs}
    (hkept : ∀ N (b : Block N), b.keptBy (g N b).1 side)
    (himage : ∀ N (b : Block N), g N b.image = ((g N b).1.image, (g N b).2)) :
    Command.OfSide (fun N b => .next (g N b)) side where
  kept {N b b' o} h := by
    have := hkept N b
    rwa [show g N b = (b', o) by injection h] at this
  image {N b b' o} h := by
    have := himage N b
    rw [show g N b = (b', o) by injection h] at this
    exact congrArg _ this

theorem push_ofSide (d : Byte) : Command.OfSide (fun _ b => .next (b.push d)) .producer := by
  refine ofSide_next (fun N b => ?_) (fun N b => ?_)
  · cases hf : b.full with
    | true => rw [Block.push_full d hf]; exact ⟨rfl, rfl, rfl⟩
    | false => rw [Block.push_ok d hf]; exact ⟨rfl, rfl, rfl⟩
  · cases hf : b.full with
    | true => rw [Block.push_full d hf]; exact Block.push_full d hf
    | false => rw [Block.push_ok d hf]; exact Block.push_ok d hf

theorem pop_ofSide : Command.OfSide (fun _ b => b.pop) .consumer where
  kept h := by
    rcases Block.pop_next h with ⟨-, rfl, -⟩ | ⟨v, -, -, rfl, -⟩
    · exact ⟨rfl, rfl, rfl⟩
    · exact ⟨rfl, rfl, rfl⟩
  image h := by
    rcases Block.pop_next h with ⟨he, rfl, rfl⟩ | ⟨v, he, hv, rfl, rfl⟩
    · exact Block.pop_empty he
    · exact Block.pop_byte he hv

/-- A command of a side is an effect of that side, then that side's edge. -/
theorem exec_ofSide {i : Instr} {side : Side} (hp : i.port = commandPort side) :
    ∃ f : Command, f.OfSide side ∧ ∀ s, exec i s = s.command (fun _ b => b.edge side) f := by
  cases side with
  | producer =>
    cases i with
    | pNop => exact ⟨_, ofSide_next (g := fun _ b => (b, {})) (fun _ _ => ⟨rfl, rfl, rfl⟩) (fun _ _ => rfl),
        fun _ => rfl⟩
    | push d => exact ⟨_, push_ofSide d, fun _ => rfl⟩
    | cNop | pop | drain | count | init => cases hp
  | consumer =>
    cases i with
    | cNop => exact ⟨_, ofSide_next (g := fun _ b => (b, {})) (fun _ _ => ⟨rfl, rfl, rfl⟩) (fun _ _ => rfl),
        fun _ => rfl⟩
    | pop => exact ⟨_, pop_ofSide, fun _ => rfl⟩
    | drain => exact ⟨_, ofSide_next (g := fun _ b => (b.drain, {})) (fun _ _ => ⟨rfl, rfl, rfl⟩) (fun _ _ => rfl),
        fun _ => rfl⟩
    | count =>
      exact ⟨_, ofSide_next (g := fun _ b => (b, Outputs.counted b.available.toNat)) (fun _ _ => ⟨rfl, rfl, rfl⟩)
        (fun _ _ => rfl), fun _ => rfl⟩
    | pNop | push | init => cases hp

/-- Where a command of a side answers, the copy was ready and the edge followed the effect; on the image there is the
effect alone. -/
theorem exec_edge {i : Instr} {s t : State} {side : Side} (hp : i.port = commandPort side) (h : exec i s = .next t) :
    s.fifo.ready = true ∧ ∃ (b : Block s.fifo.N) (o : Outputs), t = s.after (b.edge side) o ∧
      s.fifo.blk.keptBy b side ∧
      exec i s.image = .next ((s.image.setFifo { s.fifo with blk := b.image }).setOut o) := by
  obtain ⟨f, hf, hexec⟩ := exec_ofSide hp
  rw [hexec] at h
  obtain ⟨hr, b, o, hb, rfl⟩ := command_next h
  refine ⟨hr, b, o, rfl, hf.kept hb, ?_⟩
  have hb' : f _ s.fifo.image.blk = .next (b.image, o) := hf.image hb
  rw [hexec, command_at (image_fifo s) _ f (image_ready hr), hb']
  cases side <;> rfl

/-! ### Many edges. -/

section many
variable {s t : State} {ch : Channel} {side : Side} {q : Fifo} {x : BitVec q.N} {c : List (BitVec q.N)}

/-- A step of `side` on a copy that the outside drives shifts that side's chain and leaves the pointer it watches. -/
theorem stepWith_ports_samples {p : Ports} (hq : s.fifoOf ch = q) (hd : s.driver = .ports) (hp : p.init = 0)
    (hc : q.blk.samples side x c) (h : stepWith (.ports ch side p) s = .next t) :
    ∃ b' : Block q.N, t.fifoOf ch = { q with blk := b' } ∧ b'.watched side = q.blk.watched side ∧
      b'.samples side x (shiftIn x c) := by
  subst hq
  obtain ⟨u, hu, rfl⟩ := stepWith_next.mp h
  rw [takeInput_ports (s := s.setOut {}) (.inl hd)] at hu
  obtain ⟨-, b, o, rfl, hkept, -⟩ := exec_edge (portsCommand_port hp) hu
  obtain ⟨hcrossing, hwatched, -⟩ : (s.fifoOf ch).blk.keptBy b side := hkept
  have hafter : (((s.setOut {}).on ch).after (b.edge side) o).fifoOf ch = { s.fifoOf ch with blk := b.edge side } :=
    State.after_fifoOf_same _ _ _
  have hsamples := samples_edge ((samples_congr hcrossing).mpr hc)
  refine ⟨b.edge side, ?_, edge_watched.trans hwatched, hsamples⟩
  rw [settle_fifoOf, hafter]
  exact settled_of_samples (q := { s.fifoOf ch with blk := b.edge side }) hsamples _

/-- So do many steps, one shift each. -/
theorem follow_ports_samples {words : List Ports} (hq : s.fifoOf ch = q) (hd : s.driver = .ports)
    (hw : ∀ p ∈ words, p.init = 0) (hc : q.blk.samples side x c)
    (h : follow (words.map (.ports ch side)) s = .next t) :
    ∃ b' : Block q.N, t.fifoOf ch = { q with blk := b' } ∧ b'.watched side = q.blk.watched side ∧
      b'.samples side x (shiftMany x words.length c) := by
  induction words generalizing s q with
  | nil => cases h; exact ⟨q.blk, hq, rfl, hc⟩
  | cons p words ih =>
    obtain ⟨u, hu, hrest⟩ := continueWith_next.mp h
    obtain ⟨b, hb, hwatched, hsamples⟩ := stepWith_ports_samples hq hd (hw p (List.mem_cons_self ..)) hc hu
    obtain ⟨-, -, hdrv⟩ := stepWith_keeps_configuration hu ch
    obtain ⟨b', hb', hwatched', hsamples'⟩ :=
      ih hb (hdrv.trans hd) (fun w hmem => hw w (List.mem_cons_of_mem _ hmem)) hsamples hrest
    exact ⟨b', hb', hwatched'.trans hwatched, hsamples'⟩

/-- R152: as many edges as the chain has stages bring the sampled register's position to the view. -/
theorem follow_ports_crosses {words : List Ports} (hq : s.fifoOf ch = q) (hr : q.ready = true) (hd : s.driver = .ports)
    (hlen : words.length = q.S) (hw : ∀ p ∈ words, p.init = 0) (hc : q.blk.samples side x c)
    (h : follow (words.map (.ports ch side)) s = .next t) :
    ∃ b' : Block q.N, t.fifoOf ch = { q with blk := b' } ∧ b'.watched side = q.blk.watched side ∧
      b'.view side = ungray x := by
  obtain ⟨hS, hstages⟩ := samples_length hc (Fifo.legal_crossing (Fifo.ready_legal hr))
  obtain ⟨b', hb', hwatched, hsamples⟩ := follow_ports_samples hq hd hw hc h
  refine ⟨b', hb', hwatched, ?_⟩
  rw [samples_view hsamples, hlen, ← hstages, shiftMany_length, List.getLastD_eq_getLast?,
    List.getLast?_replicate, if_neg (by omega), Option.getD_some]

end many

end Sys2Proof.Machine

open Sys2Proof Sys2Proof.Machine

/-- Settles O19: the command leaves the crossing to the producer's edge. -/
theorem producerEdgeShiftsTheTailChain : Obligations.ProducerEdgeShiftsTheTailChain := by
  unfold Obligations.ProducerEdgeShiftsTheTailChain
  intro i s t hg tg hs ts hp hc h
  obtain ⟨hr, b, o, rfl, ⟨hcrossing, -, -⟩, -⟩ := exec_edge (side := .producer) hp h
  have hchain := (Crossing.chains_of_legal (hc ▸ Fifo.legal_crossing (Fifo.ready_legal hr))).2
  refine ⟨_, State.after_fifo .., ?_⟩
  rw [Block.edge, Block.producerEdge_crossing, hcrossing, hc, ← shiftIn_eq_cons tg hchain]
  rfl

/-- Settles O20: the command leaves the crossing to the consumer's edge, which lets `tail_gray` walk towards the new
`tail`. -/
theorem consumerEdgeShiftsTheHeadChainAndWalks : Obligations.ConsumerEdgeShiftsTheHeadChainAndWalks := by
  unfold Obligations.ConsumerEdgeShiftsTheHeadChainAndWalks
  intro i s t hg tg hs ts hp hc h
  obtain ⟨hr, b, o, rfl, ⟨hcrossing, -, -⟩, -⟩ := exec_edge (side := .consumer) hp h
  have hchain := (Crossing.chains_of_legal (hc ▸ Fifo.legal_crossing (Fifo.ready_legal hr))).1
  have hedge : b.consumerEdge.crossing = .clocked hg (walk tg b.tail) (hg :: hs.dropLast) ts := by
    rw [Block.consumerEdge_crossing, hcrossing, hc, ← shiftIn_eq_cons hg hchain]
    rfl
  refine ⟨_, State.after_fifo .., fun (hw : tg = gray b.tail) => ?_,
    fun (hw : tg ≠ gray b.tail) => ?_⟩
  · rw [Block.edge, hedge, walk_of_arrived hw]
  · rw [Block.edge, hedge, walk_of_behind hw]

/-- Settles O29: every stage of the receiving chain comes to hold the register it samples, for the consumer the code of
`head`. -/
theorem pointersCrossInSEdges : Obligations.PointersCrossInSEdges := by
  unfold Obligations.PointersCrossInSEdges
  intro ch s t words hg tg hs ts hd hr hi hc hlen hw
  refine ⟨fun h => ?_, fun h => ?_⟩
  · have hcoded : ungray hg = (s.fifoOf ch).blk.head := by
      rw [(Block.headCoded_iff _).mp (sound_of_inv hi (Fifo.ready_initDone hr)).coded _ _ _ _ hc, ungray_gray]
    obtain ⟨b', hb', hhead, hview⟩ := follow_ports_crosses (side := .consumer) rfl hr hd hlen hw ⟨tg, ts, hc⟩ h
    exact ⟨b', hb', hhead, hview.trans hcoded⟩
  · exact follow_ports_crosses (side := .producer) rfl hr hd hlen hw ⟨hg, hs, hc⟩ h
end

section
/-! SUPPORT. The two levels (R149): the architectural image sees a clock edge as the SYNC step that moves the view by the
distance between the last two stages, and the invariant enables that step. -/

namespace Sys2Proof.Machine

section block
variable {N S : Nat} {b : Block N} {side : Side} {x : BitVec N} {c : List (BitVec N)}

/-- The distance between the positions in the last two stages of a chain. -/
def stageGap (c : List (BitVec N)) : Nat := (dist (ungray (c.getLastD 0)) (ungray (c.dropLast.getLastD 0))).toNat

/-! ### The image of an edge. -/

/-- An edge moves the view on to the position in the stage before the last. -/
theorem edge_view (h : b.samples side x c) (hS : 2 ≤ c.length) :
    (b.edge side).view side = advance (b.view side) (stageGap c) := by
  rw [samples_view (samples_edge h), samples_view h, shiftIn_getLastD x 0 c hS, stageGap, advance_dist]

theorem edge_image (h : b.samples side x c) (hS : 2 ≤ c.length) :
    (b.edge side).image = b.image.synced side (stageGap c) := by
  cases side with
  | producer =>
    have hview : b.producerEdge.tailSeen = advance b.tailSeen (stageGap c) := edge_view h hS
    rw [Block.edge, Block.image, Block.producerEdge_headSeen, hview]
    rfl
  | consumer =>
    have hview : b.consumerEdge.headSeen = advance b.headSeen (stageGap c) := edge_view h hS
    rw [Block.edge, Block.image, Block.consumerEdge_tailSeen, hview]
    rfl

/-! ### The step is enabled. -/

/-- The last two stages as positions, the output stage first. -/
theorem map_ungray_reverse_last_two (h : 2 ≤ c.length) :
    ∃ r, c.reverse.map ungray = ungray (c.getLastD 0) :: ungray (c.dropLast.getLastD 0) :: r := by
  have hc : c ≠ [] := by rintro rfl; simp at h
  obtain ⟨l, z, rfl⟩ : ∃ l z, c = l ++ [z] := ⟨_, _, (List.dropLast_concat_getLast hc).symm⟩
  obtain ⟨r, hr⟩ := head_map_ungray_reverse l (by rintro rfl; simp at h)
  exact ⟨r, by simp [hr]⟩

/-- The second position of a walk is no further from the first than the last one is. -/
theorem dist_le_of_walk (u v : BitVec N) (l : List (BitVec N)) (z : BitVec N)
    (h : walkLength (u :: v :: l ++ [z]) < 2 ^ N) : (dist u v).toNat ≤ (dist u z).toNat := by
  rw [← walkLength_eq_dist u (v :: l) z h]
  exact Nat.le_add_right _ _

/-- The walk to `tail` and the walk to `head` are parts of the whole (R32 (c)). -/
theorem walk_parts (hw : walkLength b.positions < 2 ^ N) :
    walkLength (b.crossing.behind ++ [b.tail]) < 2 ^ N ∧ walkLength (b.crossing.ahead ++ [b.head]) < 2 ^ N := by
  rw [Block.positions_eq, walkLength_append] at hw
  have := walkLength_le_cons b.tail (b.crossing.ahead ++ [b.head])
  omega

/-- The stage before the last lies on the way from the view to its pointer. -/
theorem stageGap_le_lag (h : b.samples side x c) (hl : b.crossing.legal S = true)
    (hw : walkLength b.positions < 2 ^ N) : stageGap c ≤ b.lag side := by
  obtain ⟨hS, rfl⟩ := samples_length h hl
  obtain ⟨r, hr⟩ := map_ungray_reverse_last_two hS
  obtain ⟨hbehind, hahead⟩ := walk_parts hw
  rw [Block.lag, samples_view h, stageGap]
  cases side with
  | producer =>
    obtain ⟨hg, hs, h⟩ := h
    rw [h, Crossing.behind, hr] at hbehind
    exact dist_le_of_walk _ _ (r ++ [ungray x]) _ hbehind
  | consumer =>
    obtain ⟨tg, ts, h⟩ := h
    rw [h, Crossing.ahead, hr] at hahead
    exact dist_le_of_walk _ _ r _ hahead

theorem image_lag : b.image.lag side = b.lag side := by
  cases side <;> rfl

end block

/-! ### The machine. -/

section machine
variable {s t : State} {side : Side}

/-- Of two writes to the selected copy and of three to the results the last one stays. -/
theorem setFifo_on_sel_setFifo (q q' : Fifo) (o o' o'' : Outputs) :
    (((((s.setFifo q).setOut o).on s.sel).setFifo q').setOut o').setOut o'' = (s.setFifo q').setOut o'' := by
  obtain ⟨rx, tx, sel, out, clients, platform, driver, inputs⟩ := s
  cases sel <;> rfl

/-- R149 for either side: a clock edge is its command on the image, then the SYNC step by the gap of the last two stages,
or none where there is no gap. -/
theorem exec_image_then_sync {i : Instr} {x : BitVec s.fifo.N} {c : List (BitVec s.fifo.N)}
    (hp : i.port = commandPort side) (hi : s.fifo.blk.inv = true) (hc : s.fifo.blk.samples side x c)
    (h : exec i s = .next t) :
    ∃ u, exec i s.image = .next u ∧ u.out = t.out ∧ (stageGap c = 0 → u = t.image) ∧
      (stageGap c ≠ 0 →
        ∃ v, takeInput (syncInput s.sel side (stageGap c)) u = .next v ∧ v.setOut t.out = t.image) := by
  obtain ⟨hr, b, o, rfl, ⟨hcrossing, hwatched, hinit⟩, hu⟩ := exec_edge hp h
  have hlegal := Fifo.legal_crossing (Fifo.ready_legal hr)
  obtain ⟨hS, hlen⟩ := samples_length hc hlegal
  have himage : (s.after (b.edge side) o).image =
      (s.image.setFifo { s.fifo with blk := b.image.synced side (stageGap c) }).setOut o := by
    rw [image_after, edge_image ((samples_congr hcrossing).mpr hc) (hlen.symm ▸ hS)]
  refine ⟨_, hu, rfl, fun hgap => ?_, fun hgap => ?_⟩
  · rw [himage, hgap, synced_zero]
  · have hcopy : ((s.image.setFifo { s.fifo with blk := b.image }).setOut o).fifoOf s.sel =
        { s.fifo with blk := b.image } := (State.setOut_fifoOf ..).trans (State.setFifo_fifoOf_same ..)
    have hready : ({ s.fifo with blk := b.image } : Fifo).ready = true := by
      have := image_ready hr
      rwa [Fifo.ready, show s.fifo.image.blk.initDone = b.image.initDone from hinit.symm] at this
    have hlag : stageGap c ≤ b.image.lag side := by
      rw [image_lag, Block.lag, view_of_crossing hcrossing, hwatched]
      exact stageGap_le_lag hc hlegal (sound_of_inv hi (Fifo.ready_initDone hr)).walk
    rw [takeInput_sync_eq hcopy hready rfl, if_pos ⟨Nat.pos_of_ne_zero hgap, hlag⟩, himage]
    exact ⟨_, rfl, setFifo_on_sel_setFifo ..⟩

end machine

end Sys2Proof.Machine

open Sys2Proof Sys2Proof.Machine

/-- Settles O27: the producer's chain is the tail chain, and it samples `tail_gray`. -/
theorem producerEdgeIsCommandThenSyncT : Obligations.ProducerEdgeIsCommandThenSyncT := by
  unfold Obligations.ProducerEdgeIsCommandThenSyncT
  rintro i s t hg tg hs ts k hp hi hc rfl h
  exact exec_image_then_sync (side := .producer) hp hi ⟨hg, hs, hc⟩ h

/-- Settles O28: the consumer's chain is the head chain, and it samples `head_gray`. -/
theorem consumerEdgeIsCommandThenSyncH : Obligations.ConsumerEdgeIsCommandThenSyncH := by
  unfold Obligations.ConsumerEdgeIsCommandThenSyncH
  rintro i s t hg tg hs ts k hp hi hc rfl h
  exact exec_image_then_sync (side := .consumer) hp hi ⟨tg, ts, hc⟩ h
end

section
/-! Which command the words on the inputs are (spec/43_system_ops.md): `init` beside a command word. -/

open Sys2Proof Sys2Proof.Machine

/-- Settles O3: a step reads `init` before either side's command word. -/
theorem initWinsOverCommands : Obligations.InitWinsOverCommands := by
  unfold Obligations.InitWinsOverCommands
  exact fun _ _ h => portsCommand_init h
end

section
/-! SUPPORT. The steps of the clients (spec/44_clients.md), one rule per step: what it leaves of the clients' state and
of the two copies, their views settled (log 11, log 12). -/

namespace Sys2Proof.Machine

/-! ### Views that are settled stay settled (R151). -/

section settled
variable {N : Nat} {b : Block N} {p : Platform} {q : Fifo}

theorem Block.current_iff : b.current = true ↔ b.headSeen = b.head ∧ b.tailSeen = b.tail := by
  simp [Block.current]

theorem Block.caughtUp_current (ha : b.isArchitectural = true) : b.caughtUp.current = true := by
  cases hc : b.crossing with
  | architectural h t =>
    simp [Block.current_iff, Block.headSeen, Block.tailSeen, Block.caughtUp, hc, Crossing.caughtUp, Crossing.headSeen,
      Crossing.tailSeen]
  | clocked hg tg hs ts => simp [Block.isArchitectural, hc] at ha

/-- The catch-up leaves current views, and a clocked block. -/
theorem Block.caughtUp_eq_self (h : b.isArchitectural = true → b.current = true) : b.caughtUp = b := by
  cases hc : b.crossing with
  | architectural hd tl =>
    obtain ⟨hh, ht⟩ := Block.current_iff.mp (h (by simp [Block.isArchitectural, hc]))
    cases b
    cases hc; cases hh; cases ht
    rfl
  | clocked hg tg hs ts => cases b; cases hc; rfl

/-- A copy whose views are current, or lie apart from the other side's, has settled. -/
theorem settled_eq_self (h : p = .singleProcessor → q.blk.isArchitectural = true → q.blk.current = true) :
    p.settled q = q := by
  cases p with
  | singleProcessor =>
    have hb : q.blk.caughtUp = q.blk := Block.caughtUp_eq_self (h rfl)
    rw [Platform.settled, Fifo.caughtUp, hb]
  | twoDomains => rfl

/-- On one processor the views of a settled copy are current. -/
theorem settled_current (hp : p = .singleProcessor) (ha : q.blk.isArchitectural = true) :
    (p.settled q).blk.current = true := by
  subst hp; exact Block.caughtUp_current ha

@[simp] theorem settled_isArchitectural : (p.settled q).blk.isArchitectural = q.blk.isArchitectural := by
  cases p with
  | singleProcessor => exact Block.caughtUp_isArchitectural _
  | twoDomains => rfl

@[simp] theorem settled_settled : p.settled (p.settled q) = p.settled q :=
  settled_eq_self fun hp ha => settled_current hp (settled_isArchitectural ▸ ha)

theorem current_of_steady {s : State} {ch : Channel} (h : s.steady ch = true) (hp : s.platform = .singleProcessor) :
    (s.fifoOf ch).blk.current = true := by
  simpa [State.steady, hp] using h

theorem settled_of_steady {s : State} {ch : Channel} (h : s.steady ch = true) :
    s.platform.settled (s.fifoOf ch) = s.fifoOf ch :=
  settled_eq_self fun hp _ => current_of_steady h hp

@[simp] theorem settled_ready : (p.settled q).ready = q.ready := by
  cases p with
  | singleProcessor =>
    simp [Platform.settled, Fifo.caughtUp, Fifo.ready, Fifo.legal, Block.caughtUp, Crossing.caughtUp_legal]
  | twoDomains => rfl

/-- What a DRAIN leaves of a steady copy is empty. -/
theorem settled_drain_empty {s : State} {ch : Channel} (hst : s.steady ch = true)
    (ha : (s.fifoOf ch).blk.isArchitectural = true) :
    (s.platform.settled { s.fifoOf ch with blk := (s.fifoOf ch).blk.drain }).blk.empty = true := by
  rw [Block.empty_iff]
  cases hp : s.platform with
  | singleProcessor =>
    exact (Block.current_iff.mp (Block.caughtUp_current (b := (s.fifoOf ch).blk.drain) ha)).1.trans
      (Block.current_iff.mp (current_of_steady hst hp)).1.symm
  | twoDomains => rfl

theorem available_of_empty (h : b.empty = true) : b.available = 0 := by
  rw [Block.available, (Block.empty_iff b).mp h, dist_self]

theorem available_of_current (h : b.current = true) : b.available.toNat = b.occupancy := by
  rw [Block.available, (Block.current_iff.mp h).1, Block.occupancy]

/-- Settling moves the views of a block and nothing else. -/
theorem settled_block {p : Platform} {q : Fifo} (b : Block q.N) :
    ∃ c, p.settled { q with blk := b } = { q with blk := { b with crossing := c } } :=
  settled_moves_views p { q with blk := b }

end settled

/-! ### A step and what it leaves. -/

/-- The step with input `inp` from `s` to `t` leaves the clients' state `c` and the copies `q`, their views settled. -/
structure Ran (inp : Input) (s : State) (c : Clients) (q : Channel → Fifo) (t : State) : Prop where
  step : stepWith inp s = .next t
  clients : t.clients = c
  fifoOf : ∀ ch, t.fifoOf ch = s.platform.settled (q ch)

/-- The copies of `s`, with `b` for the block of `ch`. -/
def State.replaced (s : State) (ch : Channel) (b : Block (s.fifoOf ch).N) : Channel → Fifo :=
  fun c => if c = ch then { s.fifoOf ch with blk := b } else s.fifoOf c

/-- The block after a POP that returned a byte. -/
abbrev Block.taken {N : Nat} (b : Block N) : Block N := { b with tail := inc b.tail }

/-- The state in which a client's command on `ch` runs. -/
abbrev State.asked (s : State) (ch : Channel) : State := (s.setOut {}).on ch

section ran
variable {inp : Input} {s t : State} {c : Clients} {q : Channel → Fifo}

@[simp] theorem State.replaced_same (s : State) (ch : Channel) (b : Block (s.fifoOf ch).N) :
    s.replaced ch b ch = { s.fifoOf ch with blk := b } := if_pos rfl

theorem State.replaced_other {s : State} {c ch : Channel} (b : Block (s.fifoOf ch).N) (hc : c ≠ ch) :
    s.replaced ch b c = s.fifoOf c := if_neg hc

theorem Ran.rx (h : Ran inp s c q t) : t.rx = s.platform.settled (q .rx) := h.fifoOf .rx

theorem Ran.tx (h : Ran inp s c q t) : t.tx = s.platform.settled (q .tx) := h.fifoOf .tx

theorem Ran.rx_replaced {b : Block s.rx.N} (h : Ran inp s c (s.replaced .rx b) t) :
    t.rx = s.platform.settled { s.rx with blk := b } :=
  h.rx.trans (congrArg _ (State.replaced_same s .rx b))

theorem Ran.tx_replaced {b : Block s.tx.N} (h : Ran inp s c (s.replaced .tx b) t) :
    t.tx = s.platform.settled { s.tx with blk := b } :=
  h.tx.trans (congrArg _ (State.replaced_same s .tx b))

theorem Ran.platform (h : Ran inp s c q t) : t.platform = s.platform :=
  (stepWith_keeps_configuration h.step .rx).2.1

theorem Ran.driver (h : Ran inp s c q t) : t.driver = s.driver := (stepWith_keeps_configuration h.step .rx).2.2

/-- After a step the views of an architectural copy are steady. -/
theorem Ran.steady {ch : Channel} (h : Ran inp s c q t) (ha : (t.fifoOf ch).blk.isArchitectural = true) :
    t.steady ch = true := by
  rw [h.fifoOf, settled_isArchitectural] at ha
  rw [State.steady, h.platform, h.fifoOf]
  cases hp : s.platform with
  | singleProcessor => exact settled_current rfl ha
  | twoDomains => rfl

theorem Ran.follow (h : Ran inp s c q t) (l : List Input) : follow (inp :: l) s = Machine.follow l t := by
  rw [Machine.follow, h.step, continueWith_of_next]

/-- Inputs one after another. -/
theorem follow_append (l l' : List Input) {s t : State} (h : follow l s = .next t) :
    follow (l ++ l') s = follow l' t := by
  induction l generalizing s with
  | nil => cases h; rfl
  | cons inp l ih =>
    obtain ⟨u, hu, h⟩ := continueWith_next.mp h
    rw [List.cons_append, follow, hu]
    exact ih h

theorem follow_platform {l : List Input} {s t : State} (h : follow l s = .next t) : t.platform = s.platform := by
  induction l generalizing s with
  | nil => cases h; rfl
  | cons inp l ih =>
    obtain ⟨u, hu, h⟩ := continueWith_next.mp h
    exact (ih h).trans (stepWith_keeps_configuration hu .rx).2.1

theorem ran_of_takeInput {u : State} (h : takeInput inp (s.setOut {}) = .next u) :
    Ran inp s u.clients u.fifoOf (settle u) where
  step := stepWith_next.mpr ⟨u, h, rfl⟩
  clients := settle_clients u
  fifoOf ch := by rw [settle_fifoOf, (acted_of_takeInput h).schedule.1]; rfl

/-- A step that writes the clients' state and runs no command. -/
theorem ran_of_setClients (h : takeInput inp (s.setOut {}) = .next ((s.setOut {}).setClients c)) :
    ∃ t, Ran inp s c s.fifoOf t := ⟨_, ran_of_takeInput h⟩

/-- A step that runs a command on `ch` and writes the clients' state. -/
theorem ran_of_after {ch : Channel} {b : Block (s.asked ch).fifo.N} {o : Outputs}
    (h : takeInput inp (s.setOut {}) = .next (((s.asked ch).after b o).setClients c)) :
    ∃ t, Ran inp s c (s.replaced ch b) t := by
  have hq : (((s.asked ch).after b o).setClients c).fifoOf = s.replaced ch b := by
    funext c'
    by_cases hc : c' = ch
    · subst hc
      exact (State.after_fifoOf_same (s.asked c') b o).trans (State.replaced_same s c' b).symm
    · exact (State.after_fifoOf_other (s.asked ch) b o hc).trans (State.replaced_other _ hc).symm
  exact ⟨_, hq ▸ ran_of_takeInput h⟩

/-- A client's step, where the clients drive the inputs. -/
theorem asClient_eq (hd : s.driver = .clients) (f : State → Host.Outcome State Fault Refusal) : asClient s f = f s := by
  simp [asClient, hd]

theorem handlersIdle_iff :
    s.handlersIdle = true ↔ s.clients.receiveHandler = .idle ∧ s.clients.transmitHandler = .idle := by
  simp [State.handlersIdle]

theorem processorTaken_of_handlersIdle (h : s.handlersIdle = true) : s.processorTaken = false := by
  obtain ⟨hr, ht⟩ := handlersIdle_iff.mp h
  simp [State.processorTaken, hr, ht]

end ran

/-! ### Mainline code, one rule per step (R181 to R186). -/

/-- The clients drive the inputs, no handler keeps the processor, and mainline code stands at `m`. -/
structure MainlineAt (s : State) (m : Mainline) : Prop where
  driver : s.driver = .clients
  free : s.processorTaken = false
  stands : s.clients.mainline = m

/-- `write_string` from its first byte on (R184). -/
def Clients.writeNext (k : Clients) : List Byte → Clients
  | [] => { k with mainline := .idle, returned := some .unit }
  | b :: rest => { k with mainline := .writing b rest }

/-- What the beginning of a call leaves of the clients' state. -/
def Clients.afterCall (k : Clients) : Call → Clients
  | .init cfg => { k with mainline := .initialising .resetRx cfg }
  | .tryReadByte => { k with mainline := .reading }
  | .writeByte b => { k with mainline := .writing b [] }
  | .writeString bs => k.writeNext bs
  | .bytesAvailable => { k with mainline := .counting }
  | .flushReceive => { k with mainline := .flushing }

theorem writeNext_eq (s : State) (bs : List Byte) : s.writeNext bs = s.setClients (s.clients.writeNext bs) := by
  cases bs <;> rfl

section afterCall
variable (k : Clients) (bs : List Byte) (call : Call)

@[simp] theorem Clients.writeNext_receiveHandler : (k.writeNext bs).receiveHandler = k.receiveHandler := by
  cases bs <;> rfl
@[simp] theorem Clients.writeNext_transmitHandler : (k.writeNext bs).transmitHandler = k.transmitHandler := by
  cases bs <;> rfl
@[simp] theorem Clients.writeNext_started : (k.writeNext bs).started = k.started := by cases bs <;> rfl

@[simp] theorem Clients.afterCall_receiveHandler : (k.afterCall call).receiveHandler = k.receiveHandler := by
  cases call <;> simp [Clients.afterCall]
@[simp] theorem Clients.afterCall_transmitHandler : (k.afterCall call).transmitHandler = k.transmitHandler := by
  cases call <;> simp [Clients.afterCall]
@[simp] theorem Clients.afterCall_started : (k.afterCall call).started = k.started := by
  cases call <;> simp [Clients.afterCall]

end afterCall

section mainline
variable {s t : State} {m : Mainline} {c : Clients} {q : Channel → Fifo}

theorem mainlineAt_of_handlersIdle (hd : s.driver = .clients) (hi : s.handlersIdle = true)
    (hm : s.clients.mainline = m) : MainlineAt s m := ⟨hd, processorTaken_of_handlersIdle hi, hm⟩

/-- After a step that leaves the handlers where they stand. -/
theorem Ran.mainlineAt {inp : Input} {m' : Mainline} (h : Ran inp s c q t) (hm : MainlineAt s m)
    (hm' : c.mainline = m') (hr : c.receiveHandler = s.clients.receiveHandler)
    (ht : c.transmitHandler = s.clients.transmitHandler) : MainlineAt t m' where
  driver := h.driver.trans hm.driver
  free := by
    have hfree := hm.free
    rw [State.processorTaken] at hfree ⊢
    rwa [h.platform, h.clients, hr, ht]
  stands := h.clients ▸ hm'

/-- Mainline code is where it was when the results of the step before are gone (R33). -/
theorem MainlineAt.cleared (hm : MainlineAt s m) : MainlineAt (s.setOut {}) m := ⟨hm.driver, hm.free, hm.stands⟩

theorem takeInput_call (hd : s.driver = .clients) (call : Call) : takeInput (.call call) s = startCall call s :=
  asClient_eq hd _

theorem takeInput_mainline (hm : MainlineAt s m) : takeInput (.advance .mainline) s = mainlineStep s :=
  asClient_eq hm.driver _

/-- A call from idle mainline code; all but `init` after `init` has finished (R190 (2)). -/
theorem startCall_eq {call : Call} (hm : MainlineAt s .idle)
    (hs : s.clients.started = true ∨ ∃ cfg, call = .init cfg) :
    startCall call s = .next (s.setClients (s.clients.afterCall call)) := by
  unfold startCall
  rw [hm.free, hm.stands, if_neg Bool.false_ne_true, if_neg (by decide)]
  rcases hs with hs | ⟨cfg, rfl⟩
  · cases call with
    | init cfg => rfl
    | tryReadByte => exact onceStarted_eq hs _
    | writeByte b => exact onceStarted_eq hs _
    | writeString bs => exact (onceStarted_eq hs _).trans (congrArg _ (writeNext_eq s bs))
    | bytesAvailable => exact onceStarted_eq hs _
    | flushReceive => exact onceStarted_eq hs _
  · rfl

theorem ran_call {call : Call} (hm : MainlineAt s .idle)
    (hs : s.clients.started = true ∨ ∃ cfg, call = .init cfg) :
    ∃ t, Ran (.call call) s (s.clients.afterCall call) s.fifoOf t :=
  ran_of_setClients ((takeInput_call (s := s.setOut {}) hm.driver call).trans (startCall_eq hm.cleared hs))

/-- A call once `init` has finished: mainline code stands inside the operation, and steady copies are as they were. -/
theorem ran_call_started {call : Call} (hm : MainlineAt s .idle) (hs : s.clients.started = true) :
    ∃ t, Ran (.call call) s (s.clients.afterCall call) s.fifoOf t ∧
      MainlineAt t (s.clients.afterCall call).mainline ∧ t.clients.started = true ∧
      ∀ ch, s.steady ch = true → t.fifoOf ch = s.fifoOf ch := by
  obtain ⟨t, h⟩ := ran_call (call := call) hm (.inl hs)
  refine ⟨t, h, h.mainlineAt hm rfl ?_ ?_, ?_, fun ch hst => (h.fifoOf ch).trans (settled_of_steady hst)⟩
  · exact Clients.afterCall_receiveHandler ..
  · exact Clients.afterCall_transmitHandler ..
  · rw [h.clients, Clients.afterCall_started, hs]

/-! What a step inside an operation answers, where its command answers `u`. -/

section command
variable {u : State} (hs : s.clients.started = true)
include hs

theorem mainlineStep_reading_noData (hm : MainlineAt s .reading) (hx : exec .pop (s.on .rx) = .next u)
    (hu : u.out.cData = none) : mainlineStep s = .next (u.returnWith (.read .noData)) := by
  simp [mainlineStep, hm.free, hm.stands, onceStarted_eq hs, show execPop (s.on .rx) = .next u from hx, hu]

theorem mainlineStep_reading_byte {v : Byte} (hm : MainlineAt s .reading) (hx : exec .pop (s.on .rx) = .next u)
    (hu : u.out.cData = some v) : mainlineStep s = .next (u.setMainline (.sampling v)) := by
  simp [mainlineStep, hm.free, hm.stands, onceStarted_eq hs, show execPop (s.on .rx) = .next u from hx, hu]

theorem mainlineStep_writing_stored {b : Byte} {rest : List Byte} (hm : MainlineAt s (.writing b rest))
    (hx : exec (.push b) (s.on .tx) = .next u) (hu : u.out.pOk = some true) :
    mainlineStep s = .next (u.setMainline (.enabling rest)) := by
  simp [mainlineStep, hm.free, hm.stands, onceStarted_eq hs, show execPush b (s.on .tx) = .next u from hx, hu]

theorem mainlineStep_counting {n : Nat} (hm : MainlineAt s .counting) (hx : exec .count (s.on .rx) = .next u)
    (hu : u.out.cCount = some n) : mainlineStep s = .next (u.returnWith (.available n)) := by
  simp [mainlineStep, hm.free, hm.stands, onceStarted_eq hs, show execCount (s.on .rx) = .next u from hx, hu]

theorem mainlineStep_flushing (hm : MainlineAt s .flushing) (hx : exec .drain (s.on .rx) = .next u) :
    mainlineStep s = .next (u.returnWith .unit) := by
  simp [mainlineStep, hm.free, hm.stands, onceStarted_eq hs, show execDrain (s.on .rx) = .next u from hx]

end command

theorem mainlineStep_sampling {v : Byte} (hm : MainlineAt s (.sampling v)) :
    mainlineStep s = .next (s.returnWith (.read (.byte v s.clients.lastRxError))) := by
  simp [mainlineStep, hm.free, hm.stands]

theorem mainlineStep_enabling {rest : List Byte} (hm : MainlineAt s (.enabling rest)) :
    mainlineStep s = .next ((s.setTxIrqEnable true).writeNext rest) := by
  simp [mainlineStep, hm.free, hm.stands]

theorem mainlineStep_initialising {stage : InitStage} {cfg : Nat} (hm : MainlineAt s (.initialising stage cfg)) :
    mainlineStep s = initStep stage cfg s := by
  simp [mainlineStep, hm.free, hm.stands]

/-! The same as steps of the machine. -/

/-- `try_read_byte` at empty returns `NoData`. -/
theorem ran_reading_noData (hm : MainlineAt s .reading) (hs : s.clients.started = true) (hr : s.rx.ready = true)
    (he : s.rx.blk.empty = true) :
    ∃ t, Ran (.advance .mainline) s { s.clients with mainline := .idle, returned := some (.read .noData) }
      (s.replaced .rx s.rx.blk.consumerEdge) t := by
  have hx := exec_pop_empty (s := s.asked .rx) hr he
  exact ran_of_after
    ((takeInput_mainline hm.cleared).trans (mainlineStep_reading_noData (s := s.setOut {}) hs hm.cleared hx rfl))

/-- Otherwise it takes the oldest byte. -/
theorem ran_reading_byte {v : Byte} (hm : MainlineAt s .reading) (hs : s.clients.started = true)
    (hr : s.rx.ready = true) (he : s.rx.blk.empty = false)
    (hv : s.rx.blk.storage.read (inc s.rx.blk.tail).toNat = some v) :
    ∃ t, Ran (.advance .mainline) s { s.clients with mainline := .sampling v }
      (s.replaced .rx s.rx.blk.taken.consumerEdge) t := by
  have hx := exec_pop_byte (s := s.asked .rx) hr he hv
  exact ran_of_after
    ((takeInput_mainline hm.cleared).trans (mainlineStep_reading_byte (s := s.setOut {}) hs hm.cleared hx rfl))

/-- `write_byte` with room stores its byte. -/
theorem ran_writing_stored {b : Byte} {rest : List Byte} (hm : MainlineAt s (.writing b rest))
    (hs : s.clients.started = true) (hr : s.tx.ready = true) (hf : s.tx.blk.full = false) :
    ∃ t, Ran (.advance .mainline) s { s.clients with mainline := .enabling rest }
      (s.replaced .tx (s.tx.blk.pushed b).producerEdge) t := by
  have hx := exec_push_stored (s := s.asked .tx) b hr hf
  exact ran_of_after
    ((takeInput_mainline hm.cleared).trans (mainlineStep_writing_stored (s := s.setOut {}) hs hm.cleared hx rfl))

theorem ran_counting (hm : MainlineAt s .counting) (hs : s.clients.started = true) (hr : s.rx.ready = true) :
    ∃ t, Ran (.advance .mainline) s
      { s.clients with mainline := .idle, returned := some (.available s.rx.blk.available.toNat) }
      (s.replaced .rx s.rx.blk.consumerEdge) t := by
  have hx := exec_count (s := s.asked .rx) hr
  exact ran_of_after
    ((takeInput_mainline hm.cleared).trans (mainlineStep_counting (s := s.setOut {}) hs hm.cleared hx rfl))

theorem ran_flushing (hm : MainlineAt s .flushing) (hs : s.clients.started = true) (hr : s.rx.ready = true) :
    ∃ t, Ran (.advance .mainline) s { s.clients with mainline := .idle, returned := some .unit }
      (s.replaced .rx s.rx.blk.drain.consumerEdge) t := by
  have hx := exec_drain (s := s.asked .rx) hr
  exact ran_of_after
    ((takeInput_mainline hm.cleared).trans (mainlineStep_flushing (s := s.setOut {}) hs hm.cleared hx))

theorem ran_sampling {v : Byte} (hm : MainlineAt s (.sampling v)) :
    ∃ t, Ran (.advance .mainline) s
      { s.clients with mainline := .idle, returned := some (.read (.byte v s.clients.lastRxError)) } s.fifoOf t :=
  ran_of_setClients ((takeInput_mainline hm.cleared).trans (mainlineStep_sampling hm.cleared))

/-- `write_byte` enables the transmit-ready interrupt and returns, or goes on to the next byte. -/
theorem ran_enabling {rest : List Byte} (hm : MainlineAt s (.enabling rest)) :
    ∃ t, Ran (.advance .mainline) s ({ s.clients with txIrqEnable := true }.writeNext rest) s.fifoOf t :=
  ran_of_setClients ((takeInput_mainline hm.cleared).trans
    ((mainlineStep_enabling hm.cleared).trans (congrArg _ (writeNext_eq _ rest))))

/-! Two operations from their call to their return. -/

/-- The receive copy is ready, at the architectural level and steady, and mainline code may call. -/
structure ReadsIdly (s : State) : Prop where
  idle : MainlineAt s .idle
  started : s.clients.started = true
  ready : s.rx.ready = true
  steady : s.steady .rx = true
  level : s.rx.blk.isArchitectural = true

/-- `bytes_available` returns the count and leaves the copy (R185). -/
theorem bytesAvailable_runs (h : ReadsIdly s) :
    ∃ t, follow [.call .bytesAvailable, .advance .mainline] s = .next t ∧
      t.clients = { s.clients with returned := some (.available s.rx.blk.available.toNat) } ∧ t.rx = s.rx := by
  obtain ⟨u, hu, hat, hsu, hcopy⟩ := ran_call_started (call := .bytesAvailable) h.idle h.started
  have hrx : u.rx = s.rx := hcopy .rx h.steady
  obtain ⟨t, ht⟩ := ran_counting hat hsu (hrx ▸ h.ready)
  have hblk := ht.rx_replaced
  rw [hrx, Block.consumerEdge_architectural h.level, hu.platform] at hblk
  refine ⟨t, (hu.follow _).trans (ht.follow _), ?_, hblk.trans (settled_of_steady (ch := .rx) h.steady)⟩
  rw [ht.clients, hu.clients, hrx, ← h.idle.stands]
  rfl

/-- `flush_receive` takes `tail` to the view, and mainline code may call again (R186). -/
theorem flushReceive_runs (h : ReadsIdly s) :
    ∃ t, follow [.call .flushReceive, .advance .mainline] s = .next t ∧
      t.clients = { s.clients with returned := some .unit } ∧
      t.rx = s.platform.settled { s.rx with blk := s.rx.blk.drain } ∧ ReadsIdly t := by
  obtain ⟨u, hu, hat, hsu, hcopy⟩ := ran_call_started (call := .flushReceive) h.idle h.started
  have hrx : u.rx = s.rx := hcopy .rx h.steady
  obtain ⟨t, ht⟩ := ran_flushing hat hsu (hrx ▸ h.ready)
  have hblk := ht.rx_replaced
  rw [hrx, Block.consumerEdge_architectural (b := s.rx.blk.drain) h.level, hu.platform] at hblk
  have hlevel : t.rx.blk.isArchitectural = true := by rw [hblk, settled_isArchitectural]; exact h.level
  refine ⟨t, (hu.follow _).trans (ht.follow _), ?_, hblk, ht.mainlineAt hat rfl rfl rfl, ?_, ?_,
    ht.steady (ch := .rx) hlevel, hlevel⟩
  · rw [ht.clients, hu.clients, ← h.idle.stands]; rfl
  · rw [ht.clients]; exact hsu
  · rw [hblk, settled_ready]; exact h.ready

end mainline

end Sys2Proof.Machine

open Sys2Proof Sys2Proof.Machine

/-- Settles O51: the byte is paired with the latch, which the step reads and does not write. -/
theorem tryReadBytePairsWithTheCurrentLatch : Obligations.TryReadBytePairsWithTheCurrentLatch := by
  unfold Obligations.TryReadBytePairsWithTheCurrentLatch
  intro s v hd hi hm
  obtain ⟨t, h⟩ := ran_sampling (mainlineAt_of_handlersIdle hd hi hm)
  exact ⟨t, h.step, h.clients⟩

/-- Settles O50: the call brings mainline code to its POP; what the POP finds decides between the two returns. -/
theorem tryReadByteReadsTheLatchAfterThePop : Obligations.TryReadByteReadsTheLatchAfterThePop := by
  unfold Obligations.TryReadByteReadsTheLatchAfterThePop
  intro s hd hs hr hi hst hm
  obtain ⟨u, hu, hat, hsu, hcopy⟩ := ran_call_started (call := .tryReadByte) (mainlineAt_of_handlersIdle hd hi hm) hs
  have hrx : u.rx = s.rx := hcopy .rx hst
  constructor
  · intro he
    obtain ⟨t, ht⟩ := ran_reading_noData hat hsu (hrx ▸ hr) (hrx ▸ he)
    have hblk := ht.rx_replaced
    rw [hrx] at hblk
    obtain ⟨c, hc⟩ := settled_block (p := u.platform) s.rx.blk.consumerEdge
    refine ⟨t, _, (hu.follow _).trans (ht.follow _), ?_, hblk.trans hc, rfl, rfl, rfl⟩
    rw [ht.clients, hu.clients, ← hm]
    rfl
  · intro v he hv
    obtain ⟨t, ht⟩ := ran_reading_byte hat hsu (hrx ▸ hr) (hrx ▸ he) (by rw [hrx]; exact hv)
    have hblk := ht.rx_replaced
    rw [hrx] at hblk
    obtain ⟨c, hc⟩ := settled_block (p := u.platform) s.rx.blk.taken.consumerEdge
    refine ⟨t, _, (hu.follow _).trans (ht.follow _), ?_, hblk.trans hc, rfl, rfl, rfl⟩
    rw [ht.clients, hu.clients]
    rfl

/-- Settles O52: the byte is stored before the step that enables the interrupt. -/
theorem writeByteStoresThenEnables : Obligations.WriteByteStoresThenEnables := by
  unfold Obligations.WriteByteStoresThenEnables
  intro s b hd hs hr hi hst hm hf
  have hidle := mainlineAt_of_handlersIdle hd hi hm
  obtain ⟨v, hv, hat, hsv, hcopy⟩ := ran_call_started (call := .writeByte b) hidle hs
  have htx : v.tx = s.tx := hcopy .tx hst
  obtain ⟨u, hu⟩ := ran_writing_stored (b := b) hat hsv (htx ▸ hr) (htx ▸ hf)
  obtain ⟨t, ht⟩ := ran_enabling (hu.mainlineAt hat rfl rfl rfl)
  have hblk := hu.tx_replaced
  have hkept : t.tx = u.tx := by rw [ht.tx, State.fifoOf_tx, hblk, hu.platform, settled_settled]
  rw [htx] at hblk
  obtain ⟨c, hc⟩ := settled_block (p := v.platform) (s.tx.blk.pushed b).producerEdge
  refine ⟨u, t, _, (hv.follow _).trans (hu.follow _), ?_, hblk.trans hc, rfl, rfl, rfl, ht.step, ?_, hkept⟩
  · rw [hu.clients, hv.clients]
    rfl
  · rw [ht.clients, hu.clients, hv.clients, Clients.writeNext, ← hm]
    rfl

/-- Settles O55: the count is the distance from `tail` to the view, and the flush makes it 0. -/
theorem flushThenBytesAvailableIsZero : Obligations.FlushThenBytesAvailableIsZero := by
  unfold Obligations.FlushThenBytesAvailableIsZero
  intro s hd hs hr hi hst ha hm
  have h : ReadsIdly s := ⟨mainlineAt_of_handlersIdle hd hi hm, hs, hr, hst, ha⟩
  constructor
  · obtain ⟨t, hrun, hc, hrx⟩ := bytesAvailable_runs h
    exact ⟨t, hrun, hc, hrx, fun hp => available_of_current (current_of_steady (ch := .rx) hst hp)⟩
  · obtain ⟨u, hflush, hcu, hdrained, hu⟩ := flushReceive_runs h
    obtain ⟨t, hcount, hct, hrx⟩ := bytesAvailable_runs hu
    have hempty : u.rx.blk.available = 0 := by
      rw [hdrained]
      exact available_of_empty (settled_drain_empty (ch := .rx) hst ha)
    refine ⟨t, (follow_append [_, _] _ hflush).trans hcount, ?_, hrx.trans hdrained, fun hp => ?_⟩
    · rw [hct, hcu, hempty]
      rfl
    · have hcur : t.rx.blk.current = true := by
        rw [hrx, hdrained]
        exact settled_current hp ha
      rw [← available_of_current hcur, hrx, hempty]
      exact ⟨hrx ▸ hcur, rfl⟩
end

section
/-! SUPPORT. The transmit side of mainline code (R183, R184): one byte written and the interrupt enabled, and any number
of bytes one after another. -/

namespace Sys2Proof.Machine

/-! ### What settling leaves of the queue. -/

theorem settled_contents (p : Platform) (q : Fifo) : (p.settled q).blk.contents = q.blk.contents := by
  obtain ⟨c, h⟩ := settled_moves_views p q
  rw [h, crossing_contents]

@[simp] theorem settled_N (p : Platform) (q : Fifo) : (p.settled q).N = q.N := by cases p <;> rfl

theorem settled_used_le (p : Platform) {q : Fifo} (hl : q.legal = true) (hs : Sound q.blk) :
    (p.settled q).blk.used ≤ q.blk.used := by
  cases p with
  | singleProcessor => exact caughtUp_used_le (Fifo.legal_crossing hl) hs
  | twoDomains => exact Nat.le_refl _

/-! ### Bytes written. -/

/-- Mainline code may write `n` bytes: `init` has finished, and the transmit copy is architectural, steady and has room
for them as far as the producer sees. -/
structure CanWrite (n : Nat) (s : State) : Prop where
  inv : s.inv = true
  started : s.clients.started = true
  ready : s.tx.ready = true
  level : s.tx.blk.isArchitectural = true
  steady : s.steady .tx = true
  room : s.used .tx + n < 2 ^ s.tx.N

section write
variable {s : State} {n : Nat}

theorem CanWrite.legal (h : CanWrite n s) : s.tx.legal = true := (inv_fifo h.inv .tx).1

theorem CanWrite.sound (h : CanWrite n s) : Sound s.tx.blk :=
  sound_of_inv (inv_fifo h.inv .tx).2 (Fifo.ready_initDone h.ready)

theorem CanWrite.not_full (h : CanWrite (n + 1) s) : s.tx.blk.full = false := by
  have hroom : s.tx.blk.used + (n + 1) < 2 ^ s.tx.N := h.room
  exact (Block.not_full_iff (Fifo.legal_pos h.legal) _).mpr (by omega)

/-- The block that the next byte leaves is sound again. -/
theorem CanWrite.sound_pushed {b : Byte} (h : CanWrite (n + 1) s) : Sound (s.tx.blk.pushed b) := by
  have hs := blockStep_sound (Fifo.legal_pos h.legal) (Fifo.legal_crossing h.legal) h.sound (.push b)
  rwa [Block.push_ok b h.not_full, Block.producerEdge_architectural (b := s.tx.blk.pushed b) h.level] at hs

/-- One PUSH and one enable: the byte stands at the end of the queue, and there is room for one byte less. -/
theorem write_one {b : Byte} {rest : List Byte} (h : CanWrite (n + 1) s) (hm : MainlineAt s (.writing b rest)) :
    ∃ t, follow [.advance .mainline, .advance .mainline] s = .next t ∧
      t.clients = { s.clients with txIrqEnable := true }.writeNext rest ∧ t.unread .tx = s.unread .tx ++ [b] ∧
      CanWrite n t ∧ MainlineAt t (s.clients.writeNext rest).mainline := by
  obtain ⟨u, hu⟩ := ran_writing_stored hm h.started h.ready h.not_full
  have hmu : MainlineAt u (.enabling rest) := hu.mainlineAt hm rfl rfl rfl
  obtain ⟨t, ht⟩ := ran_enabling hmu
  have hc : t.clients = { s.clients with txIrqEnable := true }.writeNext rest := by
    rw [ht.clients, hu.clients]; cases rest <;> rfl
  have hstored : t.tx = s.platform.settled { s.tx with blk := s.tx.blk.pushed b } := by
    rw [ht.tx, State.fifoOf_tx, hu.tx_replaced, hu.platform, settled_settled,
      Block.producerEdge_architectural (b := s.tx.blk.pushed b) h.level]
  have hlevel : t.tx.blk.isArchitectural = true :=
    (stepWith_isArchitectural ht.step .tx).trans ((stepWith_isArchitectural hu.step .tx).trans h.level)
  have hq : t.unread .tx = s.unread .tx ++ [b] := by
    rw [State.unread, State.fifoOf_tx, hstored, settled_contents]
    exact pushed_contents b (h.sound.room (Fifo.legal_pos h.legal) (Fifo.legal_crossing h.legal) h.not_full)
  have hroom : t.used .tx + n < 2 ^ t.tx.N := by
    have hused : t.used .tx ≤ s.used .tx + 1 := by
      rw [State.used, State.fifoOf_tx, hstored, State.used, State.fifoOf_tx,
        ← Block.pushed_used (Fifo.legal_pos h.legal) b h.not_full]
      exact settled_used_le _ (q := { s.tx with blk := s.tx.blk.pushed b }) h.legal h.sound_pushed
    have hN : t.tx.N = s.tx.N := by rw [hstored, settled_N]
    have := h.room
    rw [hN]
    omega
  exact ⟨t, (hu.follow _).trans (ht.follow _), hc, hq,
    { inv := stepWith_keeps_inv (stepWith_keeps_inv h.inv hu.step) ht.step
      started := by rw [hc, Clients.writeNext_started]; exact h.started
      ready := stepWith_ready (ch := .tx) ht.step (stepWith_ready (ch := .tx) hu.step h.ready)
      level := hlevel
      steady := ht.steady hlevel
      room := hroom },
    ht.mainlineAt hmu (by cases rest <;> rfl) (by simp) (by simp)⟩

/-- A string of bytes, one after another, from before the first. -/
theorem write_all {b : Byte} {rest : List Byte} (h : CanWrite (rest.length + 1) s)
    (hm : MainlineAt s (.writing b rest)) :
    ∃ t, follow (List.replicate (2 * (rest.length + 1)) (.advance .mainline)) s = .next t ∧
      t.clients = { s.clients with txIrqEnable := true, mainline := .idle, returned := some .unit } ∧
      t.unread .tx = s.unread .tx ++ b :: rest ∧ CanWrite 0 t := by
  induction rest generalizing s b with
  | nil =>
    obtain ⟨t, hrun, hc, hq, ht, -⟩ := write_one h hm
    exact ⟨t, hrun, hc, hq, ht⟩
  | cons b' rest ih =>
    obtain ⟨u, hrun, hc, hq, hu, hmu⟩ := write_one h hm
    obtain ⟨t, hrun', hct, hqt, ht⟩ := ih hu hmu
    refine ⟨t, (follow_append [_, _] _ hrun).trans hrun', ?_, ?_, ht⟩
    · rw [hct, hc]; rfl
    · rw [hqt, hq, List.append_assoc]; rfl

end write

end Sys2Proof.Machine

open Sys2Proof Sys2Proof.Machine

/-- Settles O54: each byte goes to the end of the queue while there is room. -/
theorem writeStringQueuesItsBytesInOrder : Obligations.WriteStringQueuesItsBytesInOrder := by
  unfold Obligations.WriteStringQueuesItsBytesInOrder
  intro s bytes hinv hd hs hdone hi hst ha hm hroom
  have hidle := mainlineAt_of_handlersIdle hd hi hm
  obtain ⟨u, hu, hat, hsu, hcopy⟩ := ran_call_started (call := .writeString bytes) hidle hs
  have htx : u.tx = s.tx := hcopy .tx hst
  have hwrite : CanWrite bytes.length u := by
    have hlevel : u.tx.blk.isArchitectural = true := htx ▸ ha
    refine ⟨stepWith_keeps_inv hinv hu.step, hsu, ?_, hlevel, hu.steady hlevel, ?_⟩
    · have hl : s.tx.legal = true := (inv_fifo hinv .tx).1
      rw [htx, Fifo.ready, hl, hdone]; rfl
    · have := Nat.two_pow_pos s.tx.N
      rw [State.used, State.fifoOf_tx, htx, Block.used]
      omega
  have hq : u.unread .tx = s.unread .tx := congrArg (fun q : Fifo => q.blk.contents) htx
  cases bytes with
  | nil =>
    exact ⟨u, hu.follow [], hat.stands, by rw [hu.clients]; rfl, by rw [List.append_nil]; exact hq, nofun,
      fun _ => ⟨by rw [hu.clients]; rfl, htx⟩,
      fun hp => current_of_steady (ch := .tx) hwrite.steady (hu.platform.trans hp)⟩
  | cons b rest =>
    obtain ⟨t, hrun, hc, hqt, ht⟩ := write_all hwrite hat
    exact ⟨t, (hu.follow _).trans hrun, by rw [hc], by rw [hc], hqt.trans (congrArg (· ++ _) hq),
      fun _ => by rw [hc], nofun,
      fun hp => current_of_steady (ch := .tx) ht.steady ((follow_platform hrun).trans (hu.platform.trans hp))⟩
end

section
/-! SUPPORT. The facade's `init` (R181, R233): one rule for its seven steps, and what settling does to a copy around its
INIT. -/

namespace Sys2Proof.Machine

/-! ### A copy after INIT. -/

/-- The copy as INIT leaves it (R170). -/
def Fifo.afterInit (q : Fifo) : Fifo := { q with blk := q.blk.init }

/-- INIT leaves the views current. -/
@[simp] theorem settled_afterInit (p : Platform) (q : Fifo) : p.settled q.afterInit = q.afterInit :=
  settled_eq_self fun _ _ => Block.current_iff.mpr ⟨q.blk.init_headSeen, q.blk.init_tailSeen⟩

/-- INIT does not read the views. -/
@[simp] theorem afterInit_settled (p : Platform) (q : Fifo) : (p.settled q).afterInit = q.afterInit := by
  cases p with
  | singleProcessor =>
    have hinit : q.blk.caughtUp.init = q.blk.init := by
      rw [Block.init, Block.init, Block.caughtUp]; cases q.blk.crossing <;> rfl
    rw [Platform.settled, Fifo.caughtUp, Fifo.afterInit, hinit]; rfl
  | twoDomains => rfl

section ran
variable {inp : Input} {s t : State} {c : Clients} {k : Channel → Fifo} {q : Fifo} {ch : Channel}

/-- A copy after INIT stays as it is while no command runs on it. -/
theorem Ran.keeps_afterInit (h : Ran inp s c k t) (hq : k ch = q.afterInit) : t.fifoOf ch = q.afterInit := by
  rw [h.fifoOf, hq, settled_afterInit]

/-- And INIT leaves the same of a copy that has settled before it. -/
theorem Ran.afterInit (h : Ran inp s c k t) (hq : k ch = s.fifoOf ch) :
    (t.fifoOf ch).afterInit = (s.fifoOf ch).afterInit := by
  rw [h.fifoOf, hq, afterInit_settled]

theorem stepWith_legal (h : stepWith inp s = .next t) (ch : Channel) : (t.fifoOf ch).legal = (s.fifoOf ch).legal := by
  obtain ⟨u, hu, rfl⟩ := stepWith_next.mp h
  rw [settle_legal, touched_legal (touched_of_takeInput hu), State.setOut_fifoOf]

end ran

/-! ### The steps of `init`. -/

/-- Mainline code stands before a step of `init`, and nothing hinders INIT: no handler has a command to come and the
global mechanism is off (R170, R237; log 9). -/
structure Initialises (cfg : Nat) (stage : InitStage) (s : State) : Prop where
  mainline : MainlineAt s (.initialising stage cfg)
  masked : s.clients.serial.globalInterruptsOn = false
  receive : s.clients.receiveHandler.commandPending = false
  transmit : s.clients.transmitHandler.commandPending = false
  legal : ∀ ch, (s.fifoOf ch).legal = true

/-- The step after it. -/
def InitStage.next : InitStage → Option InitStage
  | .resetRx => some .resetTx
  | .resetTx => some .programBaud
  | .programBaud => some .enableReceiver
  | .enableReceiver => some .enableTransmitter
  | .enableTransmitter => some .enableReceiveInterrupt
  | .enableReceiveInterrupt => some .enableGlobal
  | .enableGlobal => none

/-- What a step of `init` leaves of the clients' state (R181). -/
def Clients.afterStage (k : Clients) (cfg : Nat) : InitStage → Clients
  | .resetRx => { k with mainline := .initialising .resetTx cfg }
  | .resetTx => { k with mainline := .initialising .programBaud cfg }
  | .programBaud =>
    { k with mainline := .initialising .enableReceiver cfg, serial := { k.serial with baudConfig := cfg } }
  | .enableReceiver =>
    { k with mainline := .initialising .enableTransmitter cfg, serial := { k.serial with receiverOn := true } }
  | .enableTransmitter =>
    { k with mainline := .initialising .enableReceiveInterrupt cfg, serial := { k.serial with transmitterOn := true } }
  | .enableReceiveInterrupt =>
    { k with mainline := .initialising .enableGlobal cfg, serial := { k.serial with receiveInterruptOn := true } }
  | .enableGlobal =>
    { k with mainline := .idle, returned := some .unit, started := true,
             serial := { k.serial with globalInterruptsOn := true } }

/-- What it leaves of the copies. -/
def InitStage.copies (s : State) : InitStage → Channel → Fifo
  | .resetRx => s.replaced .rx s.rx.blk.init
  | .resetTx => s.replaced .tx s.tx.blk.init
  | _ => s.fifoOf

section init
variable {s t : State} {cfg : Nat} {stage stage' : InitStage}

theorem Initialises.quiescent (h : Initialises cfg stage s) (ch : Channel) : (s.asked ch).quiescent = true := by
  cases ch <;>
    simp [State.quiescent, h.mainline.driver, h.mainline.stands, Mainline.commandPending, Clients.receiveActive,
      Clients.transmitActive, h.masked, h.receive, h.transmit]

theorem initStep_resetRx {u : State} (hx : exec .init (s.on .rx) = .next u) :
    initStep .resetRx cfg s = .next (u.setMainline (.initialising .resetTx cfg)) := by
  simp [initStep, show execInit (s.on .rx) = .next u from hx]

theorem initStep_resetTx {u : State} (hx : exec .init (s.on .tx) = .next u) :
    initStep .resetTx cfg s = .next (u.setMainline (.initialising .programBaud cfg)) := by
  simp [initStep, show execInit (s.on .tx) = .next u from hx]

theorem ran_initialising (h : Initialises cfg stage s) :
    ∃ t, Ran (.advance .mainline) s (s.clients.afterStage cfg stage) (stage.copies s) t := by
  have hstep : takeInput (.advance .mainline) (s.setOut {}) = initStep stage cfg (s.setOut {}) :=
    (takeInput_mainline h.mainline.cleared).trans (mainlineStep_initialising h.mainline.cleared)
  cases stage
  case resetRx =>
    have hx := exec_init (s := s.asked .rx) (h.legal .rx) (h.quiescent .rx)
    exact ran_of_after (hstep.trans (initStep_resetRx hx))
  case resetTx =>
    have hx := exec_init (s := s.asked .tx) (h.legal .tx) (h.quiescent .tx)
    exact ran_of_after (hstep.trans (initStep_resetTx hx))
  all_goals exact ran_of_setClients hstep

/-- Each step but the last leads to the next, and only the last enables the global mechanism. -/
theorem init_goes_on (h : Initialises cfg stage s) (hn : stage.next = some stage') :
    ∃ t, Ran (.advance .mainline) s (s.clients.afterStage cfg stage) (stage.copies s) t ∧ Initialises cfg stage' t := by
  obtain ⟨t, ht⟩ := ran_initialising h
  have hlegal (ch : Channel) : (t.fifoOf ch).legal = true := (stepWith_legal ht.step ch).trans (h.legal ch)
  refine ⟨t, ht, ?_⟩
  cases stage <;> cases hn <;>
    exact ⟨ht.mainlineAt h.mainline rfl rfl rfl, ht.clients ▸ h.masked, ht.clients ▸ h.receive, ht.clients ▸ h.transmit,
      hlegal⟩

end init

end Sys2Proof.Machine

open Sys2Proof Sys2Proof.Machine

/-- Settles O56: the call and the seven steps in the source's order; nothing hinders the two INITs. -/
theorem facadeInitResetsBothCopies : Obligations.FacadeInitResetsBothCopies := by
  unfold Obligations.FacadeInitResetsBothCopies
  intro s cfg hd hrx htx hfree hr ht hm hg
  have hidle : MainlineAt s .idle := ⟨hd, hfree, hm⟩
  obtain ⟨t0, h0⟩ := ran_call hidle (.inr ⟨cfg, rfl⟩)
  have i0 : Initialises cfg .resetRx t0 :=
    ⟨h0.mainlineAt hidle rfl rfl rfl, h0.clients ▸ hg, h0.clients ▸ hr, h0.clients ▸ ht, fun ch =>
      (stepWith_legal h0.step ch).trans (by cases ch <;> assumption)⟩
  obtain ⟨t1, h1, i1⟩ := init_goes_on i0 rfl
  obtain ⟨t2, h2, i2⟩ := init_goes_on i1 rfl
  obtain ⟨t3, h3, i3⟩ := init_goes_on i2 rfl
  obtain ⟨t4, h4, i4⟩ := init_goes_on i3 rfl
  obtain ⟨t5, h5, i5⟩ := init_goes_on i4 rfl
  obtain ⟨t6, h6, i6⟩ := init_goes_on i5 rfl
  obtain ⟨t7, h7⟩ := ran_initialising i6
  have run (l : List Input) :
      follow (.call (.init cfg) :: (List.replicate 6 (.advance .mainline) ++ l)) s = follow l t6 :=
    (h0.follow _).trans <| (h1.follow _).trans <| (h2.follow _).trans <| (h3.follow _).trans <|
      (h4.follow _).trans <| (h5.follow _).trans <| h6.follow _
  have hrx1 : t1.fifoOf .rx = s.rx.afterInit := h1.keeps_afterInit (h0.afterInit rfl)
  have htx2 : t2.fifoOf .tx = s.tx.afterInit := h2.keeps_afterInit ((h1.afterInit rfl).trans (h0.afterInit rfl))
  have kept {ch : Channel} {q : Fifo} (hq : t2.fifoOf ch = q.afterInit) : t7.fifoOf ch = q.afterInit :=
    h7.keeps_afterInit <| h6.keeps_afterInit <| h5.keeps_afterInit <| h4.keeps_afterInit <| h3.keeps_afterInit hq
  have hrx2 : t2.fifoOf .rx = s.rx.afterInit := h2.keeps_afterInit hrx1
  refine ⟨⟨t6, run [], i6.masked, ?_⟩, t7, (run _).trans (h7.follow []), kept hrx2, kept htx2, ?_⟩
  · rw [h6.clients, h5.clients, h4.clients, h3.clients, h2.clients, h1.clients, h0.clients]
    rfl
  · rw [h7.clients, h6.clients, h5.clients, h4.clients, h3.clients, h2.clients, h1.clients, h0.clients]
    simp [Clients.afterCall, Clients.afterStage, hm]
end

section
/-! SUPPORT. The two interrupt handlers (R177, R179), one rule per event and per step. -/

namespace Sys2Proof.Machine

section handlers
variable {s t : State}

theorem takeInput_receiveHandler (hd : s.driver = .clients) :
    takeInput (.advance .receiveHandler) s = receiveHandlerStep s := asClient_eq hd _

theorem takeInput_transmitHandler (hd : s.driver = .clients) :
    takeInput (.advance .transmitHandler) s = transmitHandlerStep s := asClient_eq hd _

/-! ### The receive handler. -/

theorem receiveEvent_eq (b : Byte) (st : HwStatus) (hi : s.handlersIdle = true)
    (hr : s.clients.serial.receiveInterruptOn = true) (hg : s.clients.serial.globalInterruptsOn = true) :
    receiveEvent b st s = s.onceStarted (.next (s.setReceiveHandler (.pushing b (classify st)))) := by
  simp [receiveEvent, hr, hg, (handlersIdle_iff.mp hi).1, processorTaken_of_handlersIdle hi]

/-- A receive event is classified, and its byte is still to be pushed. -/
theorem ran_receive (b : Byte) (st : HwStatus) (hd : s.driver = .clients) (hs : s.clients.started = true)
    (hi : s.handlersIdle = true) (hr : s.clients.serial.receiveInterruptOn = true)
    (hg : s.clients.serial.globalInterruptsOn = true) :
    ∃ t, Ran (.receive b st) s { s.clients with receiveHandler := .pushing b (classify st) } s.fifoOf t :=
  ran_of_setClients ((asClient_eq (s := s.setOut {}) hd _).trans
    ((receiveEvent_eq (s := s.setOut {}) b st hi hr hg).trans (onceStarted_eq (s := s.setOut {}) hs _)))

theorem exec_push {s : State} (d : Byte) (hr : s.fifo.ready = true) :
    exec (.push d) s = .next (s.after (s.fifo.blk.push d).1.producerEdge (s.fifo.blk.push d).2) :=
  producerStep_eq hr (fun _ b => .next (b.push d)) rfl

theorem receiveHandlerStep_pushing {u : State} {b : Byte} {k : ErrorKind} (hs : s.clients.started = true)
    (hh : s.clients.receiveHandler = .pushing b k) (hx : exec (.push b) (s.on .rx) = .next u) :
    receiveHandlerStep s = .next (u.setReceiveHandler (.latching (latchedKind k u.out.pOk))) := by
  simp [receiveHandlerStep, hh, onceStarted_eq hs, show execPush b (s.on .rx) = .next u from hx]

theorem receiveHandlerStep_latching {k : ErrorKind} (hh : s.clients.receiveHandler = .latching k) :
    receiveHandlerStep s = .next ((s.setLatch k).setReceiveHandler .idle) := by
  simp only [receiveHandlerStep, hh]

/-- The handler's PUSH decides which kind is to be latched. -/
theorem ran_pushing {b : Byte} {k : ErrorKind} (hd : s.driver = .clients) (hs : s.clients.started = true)
    (hh : s.clients.receiveHandler = .pushing b k) (hr : s.rx.ready = true) :
    ∃ t, Ran (.advance .receiveHandler) s
      { s.clients with receiveHandler := .latching (latchedKind k (s.rx.blk.push b).2.pOk) }
      (s.replaced .rx (s.rx.blk.push b).1.producerEdge) t := by
  have hx := exec_push (s := s.asked .rx) b hr
  exact ran_of_after ((takeInput_receiveHandler (s := s.setOut {}) hd).trans
    (receiveHandlerStep_pushing (s := s.setOut {}) hs hh hx))

theorem ran_latching {k : ErrorKind} (hd : s.driver = .clients) (hh : s.clients.receiveHandler = .latching k) :
    ∃ t, Ran (.advance .receiveHandler) s { s.clients with lastRxError := k, receiveHandler := .idle } s.fifoOf t :=
  ran_of_setClients ((takeInput_receiveHandler (s := s.setOut {}) hd).trans
    (receiveHandlerStep_latching (s := s.setOut {}) hh))

/-! ### The transmit-ready handler. -/

theorem transmitReadyEvent_eq (hi : s.handlersIdle = true) (ht : s.clients.txIrqEnable = true)
    (hg : s.clients.serial.globalInterruptsOn = true) :
    transmitReadyEvent s = s.tx.whenReady (s.onceStarted
      (.next (s.setTransmitHandler (if s.tx.blk.empty then .disabling else .popping)))) := by
  simp [transmitReadyEvent, ht, hg, (handlersIdle_iff.mp hi).2, processorTaken_of_handlersIdle hi]

/-- A transmit-ready event sees whether the transmit copy is empty. -/
theorem ran_transmitReady (hd : s.driver = .clients) (hs : s.clients.started = true) (hr : s.tx.ready = true)
    (hi : s.handlersIdle = true) (ht : s.clients.txIrqEnable = true)
    (hg : s.clients.serial.globalInterruptsOn = true) :
    ∃ t, Ran .transmitReady s
      { s.clients with transmitHandler := if s.tx.blk.empty then .disabling else .popping } s.fifoOf t :=
  ran_of_setClients ((asClient_eq (s := s.setOut {}) hd _).trans
    ((transmitReadyEvent_eq (s := s.setOut {}) hi ht hg).trans
      ((whenReady_eq hr _).trans (onceStarted_eq (s := s.setOut {}) hs _))))

theorem transmitHandlerStep_disabling (hh : s.clients.transmitHandler = .disabling) :
    transmitHandlerStep s = s.tx.whenReady (.next ((s.setTxIrqEnable false).setTransmitHandler .idle)) := by
  simp only [transmitHandlerStep, hh]

theorem transmitHandlerStep_popping {u : State} {v : Byte} (hs : s.clients.started = true)
    (hh : s.clients.transmitHandler = .popping) (hx : exec .pop (s.on .tx) = .next u) (hu : u.out.cData = some v) :
    transmitHandlerStep s = .next (u.setTransmitHandler (.sending v)) := by
  simp [transmitHandlerStep, hh, onceStarted_eq hs, show execPop (s.on .tx) = .next u from hx, hu]

theorem transmitHandlerStep_sending {v : Byte} (hh : s.clients.transmitHandler = .sending v) :
    transmitHandlerStep s = .next
      ((s.setSerial { s.clients.serial with sent := s.clients.serial.sent ++ [v] }).setTransmitHandler .idle) := by
  simp only [transmitHandlerStep, hh]

theorem ran_disabling (hd : s.driver = .clients) (hh : s.clients.transmitHandler = .disabling)
    (hr : s.tx.ready = true) :
    ∃ t, Ran (.advance .transmitHandler) s { s.clients with txIrqEnable := false, transmitHandler := .idle }
      s.fifoOf t :=
  ran_of_setClients ((takeInput_transmitHandler (s := s.setOut {}) hd).trans
    ((transmitHandlerStep_disabling (s := s.setOut {}) hh).trans (whenReady_eq hr _)))

/-- The handler's POP takes the oldest byte. -/
theorem ran_popping {v : Byte} (hd : s.driver = .clients) (hs : s.clients.started = true)
    (hh : s.clients.transmitHandler = .popping) (hr : s.tx.ready = true) (he : s.tx.blk.empty = false)
    (hv : s.tx.blk.storage.read (inc s.tx.blk.tail).toNat = some v) :
    ∃ t, Ran (.advance .transmitHandler) s { s.clients with transmitHandler := .sending v }
      (s.replaced .tx s.tx.blk.taken.consumerEdge) t := by
  have hx := exec_pop_byte (s := s.asked .tx) hr he hv
  exact ran_of_after ((takeInput_transmitHandler (s := s.setOut {}) hd).trans
    (transmitHandlerStep_popping (s := s.setOut {}) hs hh hx rfl))

/-- And the next step hands it to the transmitter. -/
theorem ran_sending {v : Byte} (hd : s.driver = .clients) (hh : s.clients.transmitHandler = .sending v) :
    ∃ t, Ran (.advance .transmitHandler) s
      { s.clients with
        transmitHandler := .idle, serial := { s.clients.serial with sent := s.clients.serial.sent ++ [v] } }
      s.fifoOf t :=
  ran_of_setClients ((takeInput_transmitHandler (s := s.setOut {}) hd).trans
    (transmitHandlerStep_sending (s := s.setOut {}) hh))

end handlers

end Sys2Proof.Machine

open Sys2Proof Sys2Proof.Machine

/-- Settles O48: the PUSH decides what is stored and which kind the last step latches. -/
theorem receiveEventStoresAndLatches : Obligations.ReceiveEventStoresAndLatches := by
  unfold Obligations.ReceiveEventStoresAndLatches
  intro s b st hd hs hr hi hst hri hg
  obtain ⟨u, hu⟩ := ran_receive b st hd hs hi hri hg
  have hrx : u.rx = s.rx := hu.rx.trans (settled_of_steady (ch := .rx) hst)
  obtain ⟨v, hv⟩ := ran_pushing (hu.driver.trans hd) (by rw [hu.clients]; exact hs) (by rw [hu.clients]) (hrx ▸ hr)
  obtain ⟨t, ht⟩ := ran_latching (hv.driver.trans (hu.driver.trans hd)) (by rw [hv.clients])
  have hrun := (hu.follow _).trans ((hv.follow _).trans (ht.follow []))
  have hidle : t.clients.receiveHandler = .idle := by rw [ht.clients]
  have hlatch : t.clients.lastRxError = latchedKind (classify st) (s.rx.blk.push b).2.pOk := by rw [ht.clients, hrx]
  have hblk : t.rx = v.platform.settled v.rx := ht.rx
  rw [hv.rx_replaced, hv.platform, settled_settled, hrx] at hblk
  cases hf : s.rx.blk.full with
  | false =>
    rw [Block.push_ok b hf] at hblk hlatch
    obtain ⟨c, hc⟩ := settled_block (p := u.platform) (s.rx.blk.pushed b).producerEdge
    exact ⟨t, _, hrun, hblk.trans hc, hidle, rfl, fun _ => ⟨hlatch, rfl, rfl⟩, nofun⟩
  | true =>
    rw [Block.push_full b hf] at hblk hlatch
    obtain ⟨c, hc⟩ := settled_block (p := u.platform) s.rx.blk.producerEdge
    exact ⟨t, _, hrun, hblk.trans hc, hidle, rfl, nofun, fun _ => ⟨hlatch, rfl, rfl⟩⟩

/-- Settles O49: the event sees whether the copy is empty, and its handler acts on that. -/
theorem transmitReadyEventSendsOrDisables : Obligations.TransmitReadyEventSendsOrDisables := by
  unfold Obligations.TransmitReadyEventSendsOrDisables
  intro s hd hs hr hi hst hti hg
  obtain ⟨u, hu⟩ := ran_transmitReady hd hs hr hi hti hg
  have hdu : u.driver = .clients := hu.driver.trans hd
  have htx : u.tx = s.tx := hu.tx.trans (settled_of_steady (ch := .tx) hst)
  constructor
  · intro he
    obtain ⟨t, ht⟩ := ran_disabling hdu (by rw [hu.clients, he]; rfl) (htx ▸ hr)
    refine ⟨t, (hu.follow _).trans (ht.follow []), by rw [ht.clients], by rw [ht.clients, hu.clients],
      by rw [ht.clients], ?_⟩
    have hblk : t.tx = u.platform.settled u.tx := ht.tx
    rw [hblk, htx, hu.platform]
    exact settled_of_steady (ch := .tx) hst
  · intro v he hv
    obtain ⟨w, hw⟩ := ran_popping (v := v) hdu (by rw [hu.clients]; exact hs) (by rw [hu.clients, he]; rfl) (htx ▸ hr)
      (htx ▸ he) (by rw [htx]; exact hv)
    obtain ⟨t, ht⟩ := ran_sending (hw.driver.trans hdu) (by rw [hw.clients])
    have hblk : t.tx = w.platform.settled w.tx := ht.tx
    rw [hw.tx_replaced, hw.platform, settled_settled, htx] at hblk
    obtain ⟨c, hc⟩ := settled_block (p := u.platform) s.tx.blk.taken.consumerEdge
    refine ⟨t, _, (hu.follow _).trans ((hw.follow _).trans (ht.follow [])), by rw [ht.clients, hw.clients, hu.clients],
      by rw [ht.clients, hw.clients, hu.clients]; exact hti, by rw [ht.clients], hblk.trans hc, rfl, rfl, rfl⟩
end

section
/-! SUPPORT. What has no step (R5, R170, R180, R190, R205, R231, R237), and what a step can do to the latch (R176) and,
before the facade's `init` has finished, to the copies (R190 (2); log 8). -/

namespace Sys2Proof.Machine

/-! ### The guards, where they do not hold. -/

section guards
variable {s : State} {q : Fifo} {act : Host.Outcome State Fault Refusal}

theorem whenReady_illegal (h : q.legal = false) (act : Host.Outcome State Fault Refusal) :
    q.whenReady act = .refused .illegalParameters := by
  simp [Fifo.whenReady, h]

theorem whenReady_beforeInit (hl : q.legal = true) (hd : q.blk.initDone = false)
    (act : Host.Outcome State Fault Refusal) : q.whenReady act = .refused .beforeInit := by
  simp [Fifo.whenReady, hl, hd]

theorem onceStarted_unstarted (h : s.clients.started = false) (act : Host.Outcome State Fault Refusal) :
    s.onceStarted act = .refused .beforeFacadeInit := by
  simp [State.onceStarted, h]

theorem stepWith_refused {inp : Input} {r : Refusal} (h : takeInput inp (s.setOut {}) = .refused r) :
    stepWith inp s = .refused r := by
  rw [stepWith, h]; rfl

/-- A client's step that is refused. -/
theorem stepWith_asClient_refused {inp : Input} {f : State → Host.Outcome State Fault Refusal} {r : Refusal}
    (hd : s.driver = .clients) (hf : takeInput inp (s.setOut {}) = asClient (s.setOut {}) f)
    (h : f (s.setOut {}) = .refused r) : stepWith inp s = .refused r :=
  stepWith_refused (hf.trans ((asClient_eq (s := s.setOut {}) hd f).trans h))

end guards

/-! ### Commands. -/

section commands
variable {i : Instr} {s : State}

theorem exec_illegal (i : Instr) (h : s.fifo.legal = false) : exec i s = .refused .illegalParameters := by
  by_cases hi : i = .init
  · subst hi
    simp [exec, execInit, h]
  · obtain ⟨edge, f, he⟩ := exec_eq_command hi
    rw [he]
    exact whenReady_illegal h _

theorem exec_beforeInit (hi : i ≠ .init) (hl : s.fifo.legal = true) (hd : s.fifo.blk.initDone = false) :
    exec i s = .refused .beforeInit := by
  obtain ⟨edge, f, he⟩ := exec_eq_command hi
  rw [he]
  exact whenReady_beforeInit hl hd _

theorem execInit_notQuiescent (hl : s.fifo.legal = true) (hq : s.quiescent = false) :
    exec .init s = .refused .initNotQuiescent := by
  simp [exec, execInit, hl, hq]

theorem Block.pop_unwritten {N : Nat} {b : Block N} (he : b.empty = false)
    (hv : b.storage.read (inc b.tail).toNat = none) : b.pop = .fault .unwrittenSlot := by
  simp [Block.pop, he, Block.rdAddr, hv]

theorem exec_pop_unwritten (hr : s.fifo.ready = true) (he : s.fifo.blk.empty = false)
    (hv : s.fifo.blk.storage.read (inc s.fifo.blk.tail).toNat = none) : exec .pop s = .fault .unwrittenSlot := by
  have hx := command_eq s (fun _ b => b.consumerEdge) (fun _ b => b.pop) hr
  rw [Block.pop_unwritten he hv] at hx
  exact hx

end commands

/-! ### Calls and events. -/

section events
variable {s : State}

theorem startCall_unstarted {c : Call} (hm : MainlineAt s .idle) (hs : s.clients.started = false)
    (hc : ∀ cfg, c ≠ .init cfg) : startCall c s = .refused .beforeFacadeInit := by
  unfold startCall
  rw [hm.free, hm.stands, if_neg Bool.false_ne_true, if_neg (by decide)]
  cases c with
  | init cfg => exact absurd rfl (hc cfg)
  | tryReadByte => exact onceStarted_unstarted hs _
  | writeByte b => exact onceStarted_unstarted hs _
  | writeString bs => exact onceStarted_unstarted hs _
  | bytesAvailable => exact onceStarted_unstarted hs _
  | flushReceive => exact onceStarted_unstarted hs _

theorem receiveEvent_masked (b : Byte) (st : HwStatus)
    (h : s.clients.serial.receiveInterruptOn = false ∨ s.clients.serial.globalInterruptsOn = false) :
    receiveEvent b st s = .refused .interruptMasked := by
  rcases h with h | h <;> simp [receiveEvent, h]

theorem transmitReadyEvent_masked (h : s.clients.txIrqEnable = false ∨ s.clients.serial.globalInterruptsOn = false) :
    transmitReadyEvent s = .refused .interruptMasked := by
  rcases h with h | h <;> simp [transmitReadyEvent, h]

end events

/-! ### What a step can do to the latch, and what it runs before the facade's `init` has finished. -/

/-- The latch after a step with input `inp` is as before, or that step is the receive handler's last (R176). -/
def LatchedBy (inp : Input) (s : State) (k : ErrorKind) : Prop :=
  k = s.clients.lastRxError ∨ (inp = .advance .receiveHandler ∧ s.clients.receiveHandler = .latching k)

/-- A command that may run before the facade's `init` has finished: an idle one, or INIT (R190 (2); log 8, log 16). -/
def startsUp (i : Instr) : Prop := isIdle i = true ∨ i = .init

/-- What taking an input did: a write of the clients' state, a command and a write after it, or a SYNC step. -/
inductive Did (inp : Input) (s : State) : State → Prop
  | wrote (c : Clients) (hl : LatchedBy inp s c.lastRxError) : Did inp s (s.setClients c)
  | command {ch : Channel} {i : Instr} {u : State} (h : exec i (s.on ch) = .next u) (c : Clients)
      (hl : c.lastRxError = s.clients.lastRxError)
      (hs : s.driver = .clients → s.clients.started = false → startsUp i) : Did inp s (u.setClients c)
  | sync {ch : Channel} {side : Side} {k : Nat} {t : State} (h : takeInput (syncInput ch side k) s = .next t) :
      Did inp s t

section did
variable {inp : Input} {s t u : State}

theorem did_of_setClients (ht : t = s.setClients t.clients) (hl : t.clients.lastRxError = s.clients.lastRxError) :
    Did inp s t := ht ▸ .wrote t.clients (.inl hl)

/-- A client's command after `init` has finished. -/
theorem did_of_started {ch : Channel} {i : Instr} (hs : s.clients.started = true) (h : exec i (s.on ch) = .next u)
    (ht : t = u.setClients t.clients) (hl : t.clients.lastRxError = u.clients.lastRxError) : Did inp s t := by
  have hu : u.clients = s.clients := (exec_rest h).1
  exact ht ▸ .command h t.clients (hl.trans (hu ▸ rfl)) fun _ hn => absurd (hs.symm.trans hn) nofun

theorem did_of_init {ch : Channel} (h : exec .init (s.on ch) = .next u) (ht : t = u.setClients t.clients)
    (hl : t.clients.lastRxError = u.clients.lastRxError) : Did inp s t := by
  have hu : u.clients = s.clients := (exec_rest h).1
  exact ht ▸ .command h t.clients (hl.trans (hu ▸ rfl)) fun _ _ => .inr rfl

theorem did_of_initStep {stage : InitStage} {cfg : Nat} (h : initStep stage cfg s = .next t) : Did inp s t := by
  cases stage
  case resetRx => obtain ⟨u, hu, h⟩ := continueWith_next.mp h; cases h; exact did_of_init hu rfl rfl
  case resetTx => obtain ⟨u, hu, h⟩ := continueWith_next.mp h; cases h; exact did_of_init hu rfl rfl
  all_goals (cases h; exact did_of_setClients rfl rfl)

theorem did_writeNext (bs : List Byte) (ht : t = s.setClients t.clients)
    (hl : t.clients.lastRxError = s.clients.lastRxError) : Did inp s (t.writeNext bs) := by
  rw [ht]
  cases bs <;> exact did_of_setClients rfl hl

theorem did_of_mainlineStep (h : mainlineStep s = .next t) : Did inp s t := by
  unfold mainlineStep at h
  split at h
  case isTrue => cases h
  case isFalse =>
    split at h
    case h_1 => cases h
    case h_2 => exact did_of_initStep h
    case h_3 =>
      obtain ⟨hs, h⟩ := onceStarted_next.mp h
      obtain ⟨u, hu, h⟩ := continueWith_next.mp h
      split at h <;> (cases h; exact did_of_started (i := .pop) hs hu rfl rfl)
    case h_4 => cases h; exact did_of_setClients rfl rfl
    case h_5 b rest _ =>
      obtain ⟨hs, h⟩ := onceStarted_next.mp h
      obtain ⟨u, hu, h⟩ := continueWith_next.mp h
      split at h <;> (cases h; exact did_of_started (i := .push b) hs hu rfl rfl)
    case h_6 => cases h; exact did_writeNext _ rfl rfl
    case h_7 =>
      obtain ⟨hs, h⟩ := onceStarted_next.mp h
      obtain ⟨u, hu, h⟩ := continueWith_next.mp h
      cases h; exact did_of_started (i := .count) hs hu rfl rfl
    case h_8 =>
      obtain ⟨hs, h⟩ := onceStarted_next.mp h
      obtain ⟨u, hu, h⟩ := continueWith_next.mp h
      cases h; exact did_of_started (i := .drain) hs hu rfl rfl

theorem did_of_receiveHandlerStep (h : receiveHandlerStep s = .next t) : Did (.advance .receiveHandler) s t := by
  unfold receiveHandlerStep at h
  split at h
  case h_1 => cases h
  case h_2 b k _ =>
    obtain ⟨hs, h⟩ := onceStarted_next.mp h
    obtain ⟨u, hu, h⟩ := continueWith_next.mp h
    cases h; exact did_of_started (i := .push b) hs hu rfl rfl
  case h_3 k hk => cases h; exact .wrote _ (.inr ⟨rfl, hk⟩)

theorem did_of_transmitHandlerStep (h : transmitHandlerStep s = .next t) : Did inp s t := by
  unfold transmitHandlerStep at h
  split at h
  case h_1 => cases h
  case h_2 =>
    obtain ⟨hs, h⟩ := onceStarted_next.mp h
    obtain ⟨u, hu, h⟩ := continueWith_next.mp h
    split at h
    · cases h; exact did_of_started (i := .pop) hs hu rfl rfl
    · cases h
  case h_3 => cases h; exact did_of_setClients rfl rfl
  case h_4 => cases (whenReady_next.mp h).2; exact did_of_setClients rfl rfl

theorem did_of_startCall {c : Call} (h : startCall c s = .next t) : Did inp s t := by
  unfold startCall at h
  split at h
  case isTrue => cases h
  case isFalse =>
    split at h
    case isTrue => cases h
    case isFalse =>
      cases c with
      | init cfg => cases h; exact did_of_setClients rfl rfl
      | writeString bs => cases (onceStarted_next.mp h).2; exact did_writeNext bs rfl rfl
      | tryReadByte => cases (onceStarted_next.mp h).2; exact did_of_setClients rfl rfl
      | writeByte b => cases (onceStarted_next.mp h).2; exact did_of_setClients rfl rfl
      | bytesAvailable => cases (onceStarted_next.mp h).2; exact did_of_setClients rfl rfl
      | flushReceive => cases (onceStarted_next.mp h).2; exact did_of_setClients rfl rfl

theorem did_of_receiveEvent {b : Byte} {st : HwStatus} (h : receiveEvent b st s = .next t) : Did inp s t := by
  unfold receiveEvent at h
  split at h
  · split at h
    · cases (onceStarted_next.mp h).2; exact did_of_setClients rfl rfl
    · cases h
  · cases h

theorem did_of_transmitReadyEvent (h : transmitReadyEvent s = .next t) : Did inp s t := by
  unfold transmitReadyEvent at h
  split at h
  · split at h
    · cases (onceStarted_next.mp (whenReady_next.mp h).2).2; exact did_of_setClients rfl rfl
    · cases h
  · cases h

/-- While the clients drive the inputs, only an idle command comes from outside (R210). -/
theorem did_of_presentPorts {ch : Channel} {side : Side} {p : Ports} (h : presentPorts ch side p s = .next t) :
    Did inp s t := by
  unfold presentPorts at h
  split at h
  case isFalse => cases h
  case isTrue hp =>
    exact .command h t.clients (congrArg _ (exec_rest h).1) fun hd _ => .inl (by simpa [hd] using hp)

theorem did_of_takeInput (h : takeInput inp s = .next t) : Did inp s t := by
  cases inp with
  | ports ch side p => exact did_of_presentPorts h
  | syncH ch k => exact .sync (side := .consumer) h
  | syncT ch k => exact .sync (side := .producer) h
  | call c => exact did_of_startCall (asClient_next h).2
  | receive b st => exact did_of_receiveEvent (asClient_next h).2
  | transmitReady => exact did_of_transmitReadyEvent (asClient_next h).2
  | advance c =>
    have h := (asClient_next h).2
    cases c with
    | mainline => exact did_of_mainlineStep h
    | receiveHandler => exact did_of_receiveHandlerStep h
    | transmitHandler => exact did_of_transmitHandlerStep h
  | globalInterrupts on => cases h; exact did_of_setClients rfl rfl

/-! ### What follows of the latch. -/

theorem sync_clients {ch : Channel} {side : Side} {k : Nat} (h : takeInput (syncInput ch side k) s = .next t) :
    t.clients = s.clients := by
  rw [takeInput_syncInput] at h
  obtain ⟨-, b, o, -, rfl⟩ := command_next h
  exact State.after_clients ..

theorem Did.latch (h : Did inp s t) : LatchedBy inp s t.clients.lastRxError := by
  cases h with
  | wrote c hl => exact hl
  | command _ c hl => exact .inl hl
  | sync h => exact .inl (by rw [sync_clients h])

/-! ### What follows before the facade's `init` has finished. -/

/-- The step stored and returned nothing, and of each copy it left the slots, and both pointers or neither, which are
then 0. -/
structure StartingUp (s t : State) : Prop where
  out : t.out = {}
  fifoOf : ∀ ch, ∃ b', t.fifoOf ch = { s.fifoOf ch with blk := b' } ∧ (s.fifoOf ch).blk.leftBy .init b'

theorem exec_startsUp {i : Instr} (hi : startsUp i) (h : exec i s = .next t) :
    t.out = {} ∧ ∃ b', t.fifo = { s.fifo with blk := b' } ∧ s.fifo.blk.leftBy .init b' := by
  cases i with
  | pNop =>
    rw [exec_pNop (exec_ready (i := .pNop) nofun h)] at h; cases h
    exact ⟨rfl, _, State.after_fifo .., rfl, .inl ⟨rfl, rfl⟩⟩
  | cNop =>
    rw [exec_cNop (exec_ready (i := .cNop) nofun h)] at h; cases h
    exact ⟨rfl, _, State.after_fifo .., rfl, .inl ⟨rfl, rfl⟩⟩
  | init =>
    obtain ⟨-, -, rfl⟩ := execInit_next h
    exact ⟨rfl, _, State.after_fifo .., rfl, .inr ⟨rfl, rfl⟩⟩
  | push d => rcases hi with hi | hi <;> cases hi
  | pop => rcases hi with hi | hi <;> cases hi
  | drain => rcases hi with hi | hi <;> cases hi
  | count => rcases hi with hi | hi <;> cases hi

theorem Did.startingUp (h : Did inp s t) (hd : s.driver = .clients) (hs : s.clients.started = false)
    (ho : s.out = {}) : StartingUp s t := by
  have still (ch : Channel) : ∃ b', s.fifoOf ch = { s.fifoOf ch with blk := b' } ∧ (s.fifoOf ch).blk.leftBy .init b' :=
    ⟨_, rfl, leftBy_crossing .init _ (s.fifoOf ch).blk.crossing⟩
  cases h with
  | wrote c => exact ⟨ho, still⟩
  | @command c i u h k _ hi =>
    obtain ⟨hout, b', hb, hl⟩ := exec_startsUp (hi hd hs) h
    rw [State.fifo, show u.sel = c from (moved_of_exec h).sel] at hb
    refine ⟨hout, fun ch => ?_⟩
    by_cases hc : ch = c
    · subst hc; exact ⟨b', hb, hl⟩
    · rw [State.setClients_fifoOf, exec_on_other hc h]; exact still ch
  | @sync c side k _ h =>
    rw [takeInput_syncInput] at h
    obtain ⟨-, b, o, hb, rfl⟩ := command_next h
    obtain ⟨-, rfl⟩ := sync_contents hb
    obtain ⟨v, rfl⟩ := sync_moves_view hb
    refine ⟨rfl, fun ch => ?_⟩
    by_cases hc : ch = c
    · subst hc; exact ⟨_, State.after_fifoOf_same (s.on ch) _ _, leftBy_crossing .init _ v⟩
    · rw [State.after_fifoOf_other (s.on c) _ _ hc]; exact still ch

theorem stepWith_startingUp (h : stepWith inp s = .next t) (hd : s.driver = .clients)
    (hs : s.clients.started = false) : StartingUp s t := by
  obtain ⟨u, hu, rfl⟩ := stepWith_next.mp h
  obtain ⟨hout, hcopies⟩ := (did_of_takeInput hu).startingUp hd hs rfl
  refine ⟨(settle_out u).trans hout, fun ch => ?_⟩
  obtain ⟨b, hb, hl⟩ := hcopies ch
  obtain ⟨c, hc⟩ := settled_block (p := u.platform) b
  exact ⟨_, by rw [settle_fifoOf, hb, hc]; rfl, hl.settle c⟩

end did

end Sys2Proof.Machine

open Sys2Proof Sys2Proof.Machine

/-- Settles O59: each event asks for its source and the global mechanism first. -/
theorem maskedInterruptsDoNotOccur : Obligations.MaskedInterruptsDoNotOccur := by
  unfold Obligations.MaskedInterruptsDoNotOccur
  exact fun s hd => ⟨fun h => stepWith_asClient_refused hd rfl (transmitReadyEvent_masked (s := s.setOut {}) h),
    fun b st h => stepWith_asClient_refused hd rfl (receiveEvent_masked (s := s.setOut {}) b st h)⟩

/-- Settles O57: no other write of the clients' state touches the latch. -/
theorem onlyTheReceiveHandlerWritesTheLatch : Obligations.OnlyTheReceiveHandlerWritesTheLatch := by
  unfold Obligations.OnlyTheReceiveHandlerWritesTheLatch
  intro s t inp h hne
  obtain ⟨u, hu, rfl⟩ := stepWith_next.mp h
  rw [settle_clients] at hne ⊢
  exact (did_of_takeInput hu).latch.resolve_left hne

/-- Settles O16: each guard refuses by its name, and before `init` has finished only idle commands, INIT and SYNC steps
run. -/
theorem commandsOutsideTheContractAreRefused : Obligations.CommandsOutsideTheContractAreRefused := by
  unfold Obligations.CommandsOutsideTheContractAreRefused
  refine ⟨fun i s => exec_illegal i, fun i s => exec_beforeInit, fun s => execInit_notQuiescent, fun s hr hne hv => ?_,
    fun s hd => ⟨fun hl hh => ?_, fun hl hi hh => ?_, fun ht hg hidle => ⟨fun hl => ?_, fun hl hi => ?_⟩⟩,
    fun s hd hs hidle => ⟨fun c hm hc => ?_, fun b st hr hg => ?_, fun ht hg hr => ?_⟩, fun s t inp ch hd hs h => ?_⟩
  case refine_1 => -- a POP of a slot that holds no value
    exact exec_pop_unwritten hr (by rwa [← Bool.not_eq_true, Block.empty_iff]) hv
  case refine_2 => -- the disable, with illegal parameters
    exact stepWith_asClient_refused hd rfl
      ((transmitHandlerStep_disabling (s := s.setOut {}) hh).trans (whenReady_illegal hl _))
  case refine_3 => -- the disable, before the first INIT
    exact stepWith_asClient_refused hd rfl
      ((transmitHandlerStep_disabling (s := s.setOut {}) hh).trans (whenReady_beforeInit hl hi _))
  case refine_4 => -- the transmit-ready event, with illegal parameters
    exact stepWith_asClient_refused hd rfl
      ((transmitReadyEvent_eq (s := s.setOut {}) hidle ht hg).trans (whenReady_illegal hl _))
  case refine_5 => -- the transmit-ready event, before the first INIT
    exact stepWith_asClient_refused hd rfl
      ((transmitReadyEvent_eq (s := s.setOut {}) hidle ht hg).trans (whenReady_beforeInit hl hi _))
  case refine_6 => -- a call before the facade's `init` has finished
    exact stepWith_asClient_refused hd rfl
      (startCall_unstarted (mainlineAt_of_handlersIdle hd hidle hm).cleared hs hc)
  case refine_7 => -- a receive event before it
    exact stepWith_asClient_refused hd rfl
      ((receiveEvent_eq (s := s.setOut {}) b st hidle hr hg).trans (onceStarted_unstarted (s := s.setOut {}) hs _))
  case refine_8 => -- a transmit-ready event before it
    exact stepWith_asClient_refused hd rfl
      ((transmitReadyEvent_eq (s := s.setOut {}) hidle ht hg).trans
        ((whenReady_eq hr _).trans (onceStarted_unstarted (s := s.setOut {}) hs _)))
  case refine_9 => -- every step before it
    obtain ⟨hout, hcopies⟩ := stepWith_startingUp h hd hs
    obtain ⟨b', hb, hslots, hpointers⟩ := hcopies ch
    exact ⟨b', hb, hout, hslots, hpointers⟩
end

section
/-! SUPPORT. The error kinds and their priority (R178, R203): one equation per case of `classify` and of
`latchedKind`. -/

namespace Sys2Proof.Machine

/-! ### What the hardware reported. -/

section status
variable {st : HwStatus}

theorem classify_of_overrun (ho : st.overrun = true) : classify st = .overrunError := if_pos ho

theorem classify_of_framing (ho : st.overrun = false) (hf : st.framing = true) : classify st = .framingError := by
  simp only [classify, ho, hf, Bool.false_eq_true, if_false, if_true]

theorem classify_of_noCondition (ho : st.overrun = false) (hf : st.framing = false) : classify st = .noError := by
  simp only [classify, ho, hf, Bool.false_eq_true, if_false]

end status

/-! ### What the PUSH decided. -/

theorem latchedKind_notStored (k : ErrorKind) : latchedKind k (some false) = .bufferOverflow := if_pos rfl

theorem latchedKind_stored (k : ErrorKind) : latchedKind k (some true) = k := if_neg (by decide)

end Sys2Proof.Machine

open Sys2Proof Sys2Proof.Machine

/-- Settles O47: a byte that was not stored outranks the status, in which overrun outranks framing. -/
theorem errorKindsFollowThePriority : Obligations.ErrorKindsFollowThePriority := by
  unfold Obligations.ErrorKindsFollowThePriority
  refine ⟨fun st => ⟨classify_of_overrun, classify_of_framing, classify_of_noCondition⟩,
    fun k => ⟨latchedKind_notStored k, latchedKind_stored k⟩, ?_⟩
  decide -- the three places of R203
end

section
/-! SUPPORT. The hazards that remain (spec/70_reset_and_hazards.md): `write_byte` on a transmit copy that stays full
(R241, U11). -/

namespace Sys2Proof.Machine

/-! ### Settling again, and a command that leaves its block. -/

section still
variable {s t : State}

theorem settle_settle : settle (settle t) = settle t := by
  have hcopy (q : Fifo) : q.caughtUp.caughtUp = q.caughtUp := settled_settled (p := .singleProcessor)
  cases hp : t.platform with
  | singleProcessor => simp [settle, hp, State.caughtUp, hcopy]
  | twoDomains => rw [settle_twoDomains hp, settle_twoDomains hp]

theorem settle_on_setOut (ch : Channel) (o : Outputs) : ((settle t).on ch).setOut o = settle ((t.on ch).setOut o) := by
  unfold settle
  cases hp : t.platform with
  | singleProcessor => simp only [State.on_platform, State.setOut_platform, hp]; rfl
  | twoDomains => simp only [State.on_platform, State.setOut_platform, hp]

theorem State.after_same (s : State) (o : Outputs) : s.after s.fifo.blk o = s.setOut o :=
  congrArg (State.setOut · o) s.setFifo_self

/-- A PUSH that was refused leaves mainline code before the same byte. -/
theorem mainlineStep_writing_refused {u : State} {b : Byte} {rest : List Byte} (hs : s.clients.started = true)
    (hm : MainlineAt s (.writing b rest)) (hx : exec (.push b) (s.on .tx) = .next u) (hu : u.out.pOk ≠ some true) :
    mainlineStep s = .next u := by
  simp [mainlineStep, hm.free, hm.stands, onceStarted_eq hs, show execPush b (s.on .tx) = .next u from hx, hu]

end still

/-! ### `write_byte` on a full copy. -/

/-- `write_byte` stands before its PUSH, and the transmit copy, architectural and steady, is full. -/
structure Spins (b : Byte) (rest : List Byte) (s : State) : Prop where
  writing : MainlineAt s (.writing b rest)
  started : s.clients.started = true
  ready : s.tx.ready = true
  steady : s.steady .tx = true
  level : s.tx.blk.isArchitectural = true
  full : s.tx.blk.full = true

/-- The state that a refused PUSH on the transmit copy leaves. -/
def State.spun (s : State) : State := settle ((s.on .tx).setOut Outputs.refusedFull)

section spins
variable {s : State} {b : Byte} {rest : List Byte}

theorem spun_spun (s : State) : s.spun.spun = s.spun := by
  rw [State.spun, State.spun, settle_on_setOut, settle_settle]
  rfl

theorem Spins.spun_tx (h : Spins b rest s) : s.spun.tx = s.tx :=
  (settle_fifoOf _ .tx).trans (settled_of_steady h.steady)

theorem Spins.step (h : Spins b rest s) : stepWith (.advance .mainline) s = .next s.spun := by
  have hx : exec (.push b) (s.asked .tx) = .next ((s.asked .tx).setOut Outputs.refusedFull) := by
    rw [exec_push_full (s := s.asked .tx) b h.ready h.full,
      Block.producerEdge_architectural (b := (s.asked .tx).fifo.blk) h.level, State.after_same]
  exact stepWith_next.mpr ⟨_, (takeInput_mainline h.writing.cleared).trans
    (mainlineStep_writing_refused (s := s.setOut {}) h.started h.writing.cleared hx nofun), rfl⟩

/-- The next step finds the same. -/
theorem Spins.spun (h : Spins b rest s) : Spins b rest s.spun := by
  have hc : s.spun.clients = s.clients := settle_clients _
  have hp : s.spun.platform = s.platform := settle_platform _
  have htx := h.spun_tx
  refine ⟨⟨(settle_driver _).trans h.writing.driver, ?_, ?_⟩, ?_, ?_, ?_, ?_, ?_⟩
  · rw [State.processorTaken, hp, hc]; exact h.writing.free
  · rw [hc]; exact h.writing.stands
  · rw [hc]; exact h.started
  · rw [htx]; exact h.ready
  · rw [State.steady, hp, State.fifoOf_tx, htx]; exact h.steady
  · rw [htx]; exact h.level
  · rw [htx]; exact h.full

/-- Any number of steps is as one. -/
theorem Spins.follow (h : Spins b rest s) (n : Nat) :
    follow (List.replicate (n + 1) (.advance .mainline)) s = .next s.spun := by
  induction n generalizing s with
  | zero => rw [List.replicate_one, Machine.follow, h.step]; rfl
  | succ n ih => rw [List.replicate_succ, Machine.follow, h.step, continueWith_of_next, ih h.spun, spun_spun]

end spins

end Sys2Proof.Machine

open Sys2Proof Sys2Proof.Machine

/-- Settles O53: a refused PUSH leaves the state from which the next one is refused again. -/
theorem writeByteSpinsWhileFull : Obligations.WriteByteSpinsWhileFull := by
  unfold Obligations.WriteByteSpinsWhileFull
  intro s b rest n hd hs hr hi hst ha hm hf
  have h : Spins b rest s := ⟨mainlineAt_of_handlersIdle hd hi hm, hs, hr, hst, ha, hf⟩
  exact ⟨h.follow n, h.spun_tx⟩
end

section
/-! SUPPORT. The bytes that wait in the transmit copy (R241, R248): what lengthens the queue, and who watches over it on
one processor after each step. -/

namespace Sys2Proof.Machine

/-! ### What lengthens the queue. -/

/-- The bytes that wait in the transmit copy. -/
abbrev State.waiting (s : State) : Nat := s.tx.blk.occupancy

section waiting
variable {i : Instr} {s t u : State} {ch : Channel}

theorem waiting_congr (h : t.tx = s.tx) : t.waiting = s.waiting := congrArg (fun q : Fifo => q.blk.occupancy) h

/-- Where the consumer's view of `head` is current, only a PUSH that stored its byte lengthens the queue. -/
theorem exec_occupancy_le (hseen : s.fifo.blk.headSeen = s.fifo.blk.head) (h : exec i s = .next t)
    (hi : ∀ d, i = .push d → t.out.pOk ≠ some true) : t.fifo.blk.occupancy ≤ s.fifo.blk.occupancy := by
  cases hp : i.port with
  | pcmd =>
    obtain ⟨-, b, o, rfl, ⟨rfl, -⟩ | ⟨d, hd, -, -, rfl⟩⟩ := exec_producer hp h
    · rw [State.after_fifo]; exact Nat.le_refl _
    · exact absurd rfl (hi d hd)
  | ccmd =>
    obtain ⟨-, j, o, rfl, hj, -⟩ := exec_consumer hp h
    rw [hseen] at hj
    rw [State.after_fifo]
    exact Nat.le_trans (Nat.le_of_eq (freed_occupancy s.fifo.blk hj)) (Nat.sub_le ..)
  | init =>
    obtain rfl : i = .init := by cases i <;> simp [Instr.port] at hp ⊢
    obtain ⟨-, -, rfl⟩ := execInit_next h
    rw [State.after_fifo]
    have hnone : s.fifo.blk.init.occupancy = 0 := by
      rw [Block.occupancy, Block.init_head, Block.init_tail, dist_self]; rfl
    exact Nat.le_trans (Nat.le_of_eq hnone) (Nat.zero_le _)

theorem exec_on_waiting_le (hseen : s.tx.blk.headSeen = s.tx.blk.head) (h : exec i (s.on ch) = .next u)
    (hi : ch = .tx → ∀ d, i = .push d → u.out.pOk ≠ some true) : u.waiting ≤ s.waiting := by
  cases ch with
  | rx => exact Nat.le_of_eq (waiting_congr (exec_on_other (c := .tx) (by decide) h))
  | tx =>
    have hle := exec_occupancy_le (s := s.on .tx) hseen h (hi rfl)
    rwa [State.fifo, (moved_of_exec h).sel] at hle

/-- A SYNC step moves no pointer. -/
theorem sync_waiting {side : Side} {k : Nat} (h : takeInput (syncInput ch side k) s = .next t) :
    t.waiting = s.waiting := by
  cases drove_of_sync h .tx with
  | none hk => exact waiting_congr hk
  | command hp => cases side <;> cases hp
  | sync _ c ht => rw [State.waiting, show t.tx = _ from ht]; rfl

theorem settle_waiting (u : State) : (settle u).waiting = u.waiting := by
  obtain ⟨c, hc⟩ := settled_moves_views u.platform u.tx
  rw [State.waiting, show (settle u).tx = _ from (settle_fifoOf u .tx).trans hc]
  rfl

end waiting

/-! ### Who watches over it. -/

/-- The transmit-ready interrupt is enabled, or `write_byte` is about to enable it. -/
def Clients.willSend (k : Clients) : Prop := k.txIrqEnable = true ∨ ∃ rest, k.mainline = .enabling rest

/-- The clients watch over `n` bytes: they will send them, and no handler is about to disable the interrupt. -/
def Clients.watch (k : Clients) (n : Nat) : Prop :=
  (n ≠ 0 → k.willSend) ∧ (k.transmitHandler = .disabling → n = 0)

/-- `k'` watches over whatever `k` watches over. -/
structure Clients.Keeps (k k' : Clients) : Prop where
  willSend : k.willSend → k'.willSend
  disabling : k'.transmitHandler = .disabling → k.transmitHandler = .disabling

section watch
variable {k k' : Clients} {n n' : Nat}

theorem Clients.watch_of_none (h : n = 0) : k.watch n := ⟨absurd h, fun _ => h⟩

theorem Clients.watch_of_enabling {rest : List Byte} (hm : k.mainline = .enabling rest)
    (hh : k.transmitHandler = .idle) : k.watch n := ⟨fun _ => .inr ⟨rest, hm⟩, fun h => absurd (hh.symm.trans h) nofun⟩

theorem Clients.watch.keep (h : k.watch n) (hn : n' ≤ n) (hk : k.Keeps k') : k'.watch n' :=
  ⟨fun h' => hk.willSend (h.1 (by omega)), fun h' => by have := h.2 (hk.disabling h'); omega⟩

/-- A step of a handler, an event, or a step outside the clients. -/
theorem Clients.Keeps.of_handler (hm : k'.mainline = k.mainline) (he : k'.txIrqEnable = k.txIrqEnable)
    (hh : k'.transmitHandler = .disabling → k.transmitHandler = .disabling) : k.Keeps k' :=
  ⟨by rw [Clients.willSend, Clients.willSend, hm, he]; exact id, hh⟩

/-- A step of mainline code but the one that enables the interrupt. -/
theorem Clients.Keeps.of_mainline (hm : ∀ rest, k.mainline ≠ .enabling rest) (he : k'.txIrqEnable = k.txIrqEnable)
    (hh : k'.transmitHandler = k.transmitHandler) : k.Keeps k' :=
  ⟨fun h => .inl (he.trans (h.resolve_right fun ⟨rest, hr⟩ => hm rest hr)), fun h => hh ▸ h⟩

@[simp] theorem Clients.writeNext_txIrqEnable (k : Clients) (bs : List Byte) :
    (k.writeNext bs).txIrqEnable = k.txIrqEnable := by cases bs <;> rfl

@[simp] theorem Clients.afterCall_txIrqEnable (k : Clients) (call : Call) :
    (k.afterCall call).txIrqEnable = k.txIrqEnable := by cases call <;> simp [Clients.afterCall]

end watch

/-! ### After each step the clients watch over what waits. -/

theorem startCall_next {c : Call} {s t : State} (h : startCall c s = .next t) :
    s.clients.mainline = .idle ∧ t = s.setClients (s.clients.afterCall c) := by
  unfold startCall at h
  split at h
  case isTrue => cases h
  case isFalse =>
    split at h
    case isTrue => cases h
    case isFalse hm =>
      refine ⟨by simpa using hm, ?_⟩
      cases c with
      | init cfg => cases h; rfl
      | writeString bs => cases (onceStarted_next.mp h).2; exact writeNext_eq s bs
      | tryReadByte => cases (onceStarted_next.mp h).2; rfl
      | writeByte b => cases (onceStarted_next.mp h).2; rfl
      | bytesAvailable => cases (onceStarted_next.mp h).2; rfl
      | flushReceive => cases (onceStarted_next.mp h).2; rfl

/-- The clients watch over what waits. -/
abbrev State.watch (s : State) : Prop := s.clients.watch s.waiting

/-- On one processor, where the transmit copy's consumer sees `head` itself, the clients watch over what waits. -/
structure Watched (s : State) : Prop where
  platform : s.platform = .singleProcessor
  headSeen : s.tx.blk.headSeen = s.tx.blk.head
  watch : s.watch

section watched
variable {s t u : State} {i : Instr} {ch : Channel}

/-- A step that leaves the transmit copy. -/
theorem Watched.still (hw : Watched s) (ht : t.tx = s.tx) (hk : s.clients.Keeps t.clients) : t.watch :=
  hw.watch.keep (Nat.le_of_eq (waiting_congr ht)) hk

/-- A command on either copy that stores no byte in the transmit copy. -/
theorem Watched.exec (hw : Watched s) (h : exec i (s.on ch) = .next u)
    (hi : ch = .tx → ∀ d, i = .push d → u.out.pOk ≠ some true) (ht : t.tx = u.tx)
    (hk : u.clients.Keeps t.clients) : t.watch := by
  have hu : u.clients = s.clients := (exec_rest h).1
  have hle : u.waiting ≤ s.waiting := exec_on_waiting_le hw.headSeen h hi
  exact hw.watch.keep (Nat.le_trans (Nat.le_of_eq (waiting_congr ht)) hle) (hu ▸ hk)

/-- The same by mainline code, which then stands elsewhere. -/
theorem Watched.exec_mainline (hw : Watched s) (hm : ∀ rest, s.clients.mainline ≠ .enabling rest)
    (h : Machine.exec i (s.on ch) = .next u) (hi : ch = .tx → ∀ d, i = .push d → u.out.pOk ≠ some true)
    (ht : t.tx = u.tx) (he : t.clients.txIrqEnable = u.clients.txIrqEnable)
    (hh : t.clients.transmitHandler = u.clients.transmitHandler) : t.watch :=
  hw.exec h hi ht (.of_mainline (by rw [show u.clients = s.clients from (exec_rest h).1]; exact hm) he hh)

theorem initStep_watch {stage : InitStage} {cfg : Nat} (hw : Watched s)
    (hm : ∀ rest, s.clients.mainline ≠ .enabling rest) (h : initStep stage cfg s = .next t) : t.watch := by
  cases stage
  case resetRx =>
    obtain ⟨u, hu, h⟩ := continueWith_next.mp h
    cases h; exact hw.exec_mainline (i := .init) hm hu nofun rfl rfl rfl
  case resetTx =>
    obtain ⟨u, hu, h⟩ := continueWith_next.mp h
    cases h; exact hw.exec_mainline (i := .init) hm hu (fun _ => nofun) rfl rfl rfl
  all_goals (cases h; exact hw.still rfl (.of_mainline hm rfl rfl))

/-- While mainline code steps on the one processor, no handler runs. -/
theorem Watched.transmitHandler_idle (hw : Watched s) (hfree : ¬ s.processorTaken = true) :
    s.clients.transmitHandler = .idle := by
  have hidle : s.clients.receiveHandler = .idle ∧ s.clients.transmitHandler = .idle := by
    simpa [State.processorTaken, hw.platform] using hfree
  exact hidle.2

/-- A stored byte stands before the step that enables the interrupt (R183). -/
theorem mainlineStep_watch (hw : Watched s) (h : mainlineStep s = .next t) : t.watch := by
  unfold mainlineStep at h
  split at h
  case isTrue => cases h
  case isFalse hfree =>
    have other {m : Mainline} (hm : s.clients.mainline = m) (hne : ∀ rest, m ≠ .enabling rest) (rest : List Byte) :
        s.clients.mainline ≠ .enabling rest := hm ▸ hne rest
    split at h
    case h_1 => cases h
    case h_2 hm => exact initStep_watch hw (other hm nofun) h
    case h_3 hm =>
      obtain ⟨u, hu, h⟩ := continueWith_next.mp (onceStarted_next.mp h).2
      split at h <;> (cases h; exact hw.exec_mainline (i := .pop) (other hm nofun) hu nofun rfl rfl rfl)
    case h_4 hm => cases h; exact hw.still rfl (.of_mainline (other hm nofun) rfl rfl)
    case h_5 b rest hm =>
      obtain ⟨u, hu, h⟩ := continueWith_next.mp (onceStarted_next.mp h).2
      have hc : u.clients = s.clients := (exec_rest (i := .push b) hu).1
      split at h
      case isTrue =>
        cases h
        exact Clients.watch_of_enabling rfl ((congrArg Clients.transmitHandler hc).trans (hw.transmitHandler_idle hfree))
      case isFalse hrefused =>
        cases h
        exact hw.exec_mainline (i := .push b) (other hm nofun) hu (fun _ _ _ => hrefused) rfl rfl rfl
    case h_6 rest hm =>
      cases h
      rw [writeNext_eq]
      exact hw.still rfl
        ⟨fun _ => .inl (Clients.writeNext_txIrqEnable ..), (Clients.writeNext_transmitHandler ..).symm.trans⟩
    case h_7 hm =>
      obtain ⟨u, hu, h⟩ := continueWith_next.mp (onceStarted_next.mp h).2
      cases h; exact hw.exec_mainline (i := .count) (other hm nofun) hu nofun rfl rfl rfl
    case h_8 hm =>
      obtain ⟨u, hu, h⟩ := continueWith_next.mp (onceStarted_next.mp h).2
      cases h; exact hw.exec_mainline (i := .drain) (other hm nofun) hu nofun rfl rfl rfl

theorem startCall_watch {c : Call} (hw : Watched s) (h : startCall c s = .next t) : t.watch := by
  obtain ⟨hm, rfl⟩ := startCall_next h
  exact hw.still rfl (.of_mainline (by rw [hm]; nofun) (Clients.afterCall_txIrqEnable ..)
    (Clients.afterCall_transmitHandler ..))

theorem receiveEvent_watch {b : Byte} {st : HwStatus} (hw : Watched s) (h : receiveEvent b st s = .next t) :
    t.watch := by
  unfold receiveEvent at h
  split at h
  · split at h
    · cases (onceStarted_next.mp h).2; exact hw.still rfl (.of_handler rfl rfl id)
    · cases h
  · cases h

theorem receiveHandlerStep_watch (hw : Watched s) (h : receiveHandlerStep s = .next t) : t.watch := by
  unfold receiveHandlerStep at h
  split at h
  case h_1 => cases h
  case h_2 b k _ =>
    obtain ⟨u, hu, h⟩ := continueWith_next.mp (onceStarted_next.mp h).2
    cases h; exact hw.exec (i := .push b) hu nofun rfl (.of_handler rfl rfl id)
  case h_3 => cases h; exact hw.still rfl (.of_handler rfl rfl id)

/-- The event sees the true state of the queue, so the handler goes on to disable the interrupt only where no byte
waits (R179, R248). -/
theorem transmitReadyEvent_watch (hw : Watched s) (h : transmitReadyEvent s = .next t) : t.watch := by
  unfold transmitReadyEvent at h
  split at h
  · split at h
    · cases (onceStarted_next.mp (whenReady_next.mp h).2).2
      cases he : s.tx.blk.empty with
      | true =>
        have hnone : s.waiting = 0 := by
          rw [State.waiting, Block.occupancy, ← hw.headSeen, (Block.empty_iff _).mp he, dist_self]; rfl
        exact Clients.watch_of_none hnone
      | false => exact hw.still rfl (.of_handler rfl rfl nofun)
    · cases h
  · cases h

/-- The handler disables the interrupt only where no byte waits. -/
theorem transmitHandlerStep_watch (hw : Watched s) (h : transmitHandlerStep s = .next t) : t.watch := by
  unfold transmitHandlerStep at h
  split at h
  case h_1 => cases h
  case h_2 =>
    obtain ⟨u, hu, h⟩ := continueWith_next.mp (onceStarted_next.mp h).2
    split at h
    · cases h; exact hw.exec (i := .pop) hu (fun _ => nofun) rfl (.of_handler rfl rfl nofun)
    · cases h
  case h_3 => cases h; exact hw.still rfl (.of_handler rfl rfl nofun)
  case h_4 hh =>
    cases (whenReady_next.mp h).2
    have hnone : s.waiting = 0 := hw.watch.2 hh
    exact Clients.watch_of_none hnone

/-- While the clients drive the inputs, no byte comes from outside (R210). -/
theorem presentPorts_watch {side : Side} {p : Ports} (hw : Watched s) (hd : s.driver = .clients)
    (h : presentPorts ch side p s = .next t) : t.watch := by
  unfold presentPorts at h
  split at h
  case isFalse => cases h
  case isTrue hp =>
    have hidle : isIdle (p.command side) = true := by simpa [hd] using hp
    refine hw.exec h (fun _ d hpush => ?_) rfl (.of_handler rfl rfl id)
    rw [hpush] at hidle
    cases hidle

theorem syncInput_watch {side : Side} {k : Nat} (hw : Watched s) (h : takeInput (syncInput ch side k) s = .next t) :
    t.watch := by
  rw [State.watch, sync_clients h, sync_waiting h]
  exact hw.watch

theorem takeInput_watch {inp : Input} (hw : Watched s) (hd : s.driver = .clients) (h : takeInput inp s = .next t) :
    t.watch := by
  cases inp with
  | ports ch side p => exact presentPorts_watch hw hd h
  | syncH ch k => exact syncInput_watch (side := .consumer) hw h
  | syncT ch k => exact syncInput_watch (side := .producer) hw h
  | call c => exact startCall_watch hw (asClient_next h).2
  | receive b st => exact receiveEvent_watch hw (asClient_next h).2
  | transmitReady => exact transmitReadyEvent_watch hw (asClient_next h).2
  | advance c =>
    have h := (asClient_next h).2
    cases c with
    | mainline => exact mainlineStep_watch hw h
    | receiveHandler => exact receiveHandlerStep_watch hw h
    | transmitHandler => exact transmitHandlerStep_watch hw h
  | globalInterrupts on => cases h; exact hw.still rfl (.of_handler rfl rfl id)

/-! ### The same for a step of the machine, whose views settle. -/

theorem transmitWatched_iff : s.transmitWatched ↔ s.platform = .singleProcessor ∧ s.driver = .clients ∧
    s.tx.blk.isArchitectural = true ∧ s.tx.blk.current = true ∧ s.watch := Iff.rfl

theorem watched_of_transmitWatched (h : s.transmitWatched) : Watched s := by
  obtain ⟨hp, -, -, hcur, hw⟩ := transmitWatched_iff.mp h
  exact ⟨hp, (Block.current_iff.mp hcur).1, hw⟩

theorem stepWith_keeps_transmitWatched {inp : Input} (h : s.transmitWatched) (hs : stepWith inp s = .next t) :
    t.transmitWatched := by
  obtain ⟨hp, hd, ha, -, -⟩ := transmitWatched_iff.mp h
  obtain ⟨-, hplat, hdrv⟩ := stepWith_keeps_configuration hs .tx
  have ha' : t.tx.blk.isArchitectural = true := (stepWith_isArchitectural hs .tx).trans ha
  obtain ⟨u, hu, rfl⟩ := stepWith_next.mp hs
  have hcur : (settle u).tx.blk.current = true := by
    rw [← State.fifoOf_tx, settle_fifoOf] at ha' ⊢
    exact settled_current ((settle_platform u).symm.trans (hplat.trans hp)) (settled_isArchitectural ▸ ha')
  have hw : u.watch := takeInput_watch (s := s.setOut {}) (watched_of_transmitWatched h) hd hu
  refine transmitWatched_iff.mpr ⟨hplat.trans hp, hdrv.trans hd, ha', hcur, ?_⟩
  rw [State.watch, settle_clients, settle_waiting]
  exact hw

end watched

end Sys2Proof.Machine

open Sys2Proof Sys2Proof.Machine

/-- Settles O60: on one processor the transmit-ready event reads the true `empty`, and no byte is stored between that and
the disable. The invariant of the blocks is not needed. -/
theorem noWrittenByteIsStrandedOnOneProcessor : Obligations.NoWrittenByteIsStrandedOnOneProcessor := by
  unfold Obligations.NoWrittenByteIsStrandedOnOneProcessor
  intro s t _ hw h
  rcases step_next h with ⟨-, rfl⟩ | ⟨inp, rest, -, h⟩
  · exact hw
  · exact stepWith_keeps_transmitWatched (s := s.setInputs rest) hw h
end

section
/-! SUPPORT. What INIT leaves (R170, R230), the reset state (R34), the schedule of the one processor (R151, R187, R208),
and the one driver of the inputs (R210, R238). -/

namespace Sys2Proof.Machine

/-! ### After INIT. -/

section init
variable {N : Nat} (b : Block N)

@[simp] theorem Block.init_empty : b.init.empty = true := by
  rw [Block.empty_iff, Block.init_headSeen, Block.init_tail]

/-- INIT makes room: `C` is at least 2. -/
theorem Block.init_full (hN : 0 < N) : b.init.full = false := by
  rw [Block.not_full_iff hN, Block.init_used]
  exact Nat.one_lt_two_pow hN.ne'

/-- A clocked crossing of `S` stages is all zeros after INIT. -/
theorem Crossing.zeroed_clocked {S : Nat} {hg tg : BitVec N} {hs ts : List (BitVec N)}
    (h : (Crossing.clocked hg tg hs ts).legal S = true) :
    (Crossing.clocked hg tg hs ts).zeroed = .clocked 0 0 (List.replicate S 0) (List.replicate S 0) := by
  obtain ⟨-, hhs, hts⟩ := Crossing.legal_clocked h
  rw [Crossing.zeroed, List.map_const', List.map_const', hhs, hts]

end init

/-! ### The reset state. -/

/-- A block at reset is as INIT leaves it (R230). -/
theorem Block.reset_sound (N : Nat) : Sound (Block.reset N) :=
  init_sound (b := Block.reset N) rfl nofun

/-! ### One processor. -/

section processor
variable {s t : State} {inp : Input}

/-- A step with an input leaves the views of an architectural copy current (R151; log 12). -/
theorem stepWith_current {ch : Channel} (hp : s.platform = .singleProcessor)
    (ha : (s.fifoOf ch).blk.isArchitectural = true) (h : stepWith inp s = .next t) :
    (t.fifoOf ch).blk.current = true := by
  obtain ⟨-, hplat, -⟩ := stepWith_keeps_configuration h ch
  have ha' : (t.fifoOf ch).blk.isArchitectural = true := (stepWith_isArchitectural h ch).trans ha
  obtain ⟨u, -, rfl⟩ := stepWith_next.mp h
  rw [settle_fifoOf] at ha' ⊢
  exact settled_current ((settle_platform u).symm.trans (hplat.trans hp)) (settled_isArchitectural ▸ ha')

/-- On one processor a handler that stands anywhere keeps the processor (R187). -/
theorem processorTaken_of_handler (hp : s.platform = .singleProcessor) (hi : s.handlersIdle = false) :
    s.processorTaken = true := by
  have hrun : ¬ (s.clients.receiveHandler = .idle ∧ s.clients.transmitHandler = .idle) := by
    rw [← handlersIdle_iff, hi]; exact Bool.false_ne_true
  simpa [State.processorTaken, hp, imp_iff_not_or] using hrun

theorem mainlineStep_preempted (h : s.processorTaken = true) : mainlineStep s = .refused .preempted := if_pos h

theorem startCall_preempted (c : Call) (h : s.processorTaken = true) : startCall c s = .refused .preempted := if_pos h

theorem receiveEvent_handlerRunning (b : Byte) (st : HwStatus) (h : s.processorTaken = true)
    (hr : s.clients.serial.receiveInterruptOn = true) (hg : s.clients.serial.globalInterruptsOn = true) :
    receiveEvent b st s = .refused .handlerRunning := by
  simp [receiveEvent, hr, hg, h]

theorem transmitReadyEvent_handlerRunning (h : s.processorTaken = true) (ht : s.clients.txIrqEnable = true)
    (hg : s.clients.serial.globalInterruptsOn = true) : transmitReadyEvent s = .refused .handlerRunning := by
  simp [transmitReadyEvent, ht, hg, h]

end processor

/-! ### One driver. -/

theorem takeInput_secondDriver {s : State} {ch : Channel} {side : Side} {p : Ports} (hd : s.driver = .clients)
    (hi : isIdle (p.command side) = false) : takeInput (.ports ch side p) s = .refused .secondDriver := by
  simp [takeInput, presentPorts, hd, hi]

end Sys2Proof.Machine

open Sys2Proof Sys2Proof.Machine

/-- Settles O15: INIT's block has every register 0, and legality says how long the chains are. -/
theorem initZeroesEveryRegister : Obligations.InitZeroesEveryRegister := by
  unfold Obligations.InitZeroesEveryRegister
  intro s hl hq
  refine ⟨s.fifo.blk.init, exec_init hl hq, rfl, rfl, Block.init_headSeen _, Block.init_tailSeen _, rfl, rfl,
    Block.init_empty _, Block.init_full _ (Fifo.legal_pos hl), fun hg tg hs ts hc => ?_⟩
  rw [Block.init_crossing, hc]
  exact Crossing.zeroed_clocked (hc ▸ Fifo.legal_crossing hl)

/-- Settles O31: an idle step writes no copy and any other settles both, and a current view is the pointer itself. -/
theorem oneProcessorHasNoLag : Obligations.OneProcessorHasNoLag := by
  unfold Obligations.OneProcessorHasNoLag
  refine ⟨fun s t ch hp ha h hcur => ?_, fun N b hcur => ?_⟩
  · rcases step_next h with ⟨hnil, rfl⟩ | ⟨inp, rest, -, h⟩
    · rw [State.setOut_fifoOf]
      exact hcur.resolve_left (not_not_intro hnil)
    · rw [← State.setInputs_fifoOf s rest ch] at ha
      exact stepWith_current (s := s.setInputs rest) hp ha h
  · obtain ⟨hhead, htail⟩ := Block.current_iff.mp hcur
    exact ⟨htail ▸ b.full_iff, hhead ▸ b.empty_iff, available_of_current hcur, hhead⟩

/-- Settles O5: a command that is not idle asks for the outside as the driver. -/
theorem secondDriverIsRefused : Obligations.SecondDriverIsRefused := by
  unfold Obligations.SecondDriverIsRefused
  intro s ch side p rest hin hd hi
  rw [step_cons hin]
  exact stepWith_refused (takeInput_secondDriver hd hi)

/-- Settles O32: both copies are as INIT leaves them, and the outside drives the inputs. -/
theorem resetMeetsTheInvariant : Obligations.ResetMeetsTheInvariant := by
  unfold Obligations.ResetMeetsTheInvariant
  have hcopy : Fifo.reset.legal = true ∧ Fifo.reset.blk.inv = true :=
    ⟨rfl, (Block.reset_sound Config.resetN).inv⟩
  refine inv_iff.mpr ⟨fun ch => ?_, popReady_iff.mpr nofun⟩
  cases ch with
  | rx => exact hcopy
  | tx => exact hcopy

/-- Settles O58: each of these steps asks first whether a handler keeps the processor, an event after its enables. -/
theorem handlersRunToCompletion : Obligations.HandlersRunToCompletion := by
  unfold Obligations.HandlersRunToCompletion
  intro s hp hd hi
  have htaken : (s.setOut {}).processorTaken = true := processorTaken_of_handler (s := s.setOut {}) hp hi
  exact ⟨stepWith_asClient_refused hd rfl (mainlineStep_preempted htaken),
    fun c => stepWith_asClient_refused hd rfl (startCall_preempted c htaken),
    fun hg ht => stepWith_asClient_refused hd rfl (transmitReadyEvent_handlerRunning htaken ht hg),
    fun b st hg hr => stepWith_asClient_refused hd rfl (receiveEvent_handlerRunning b st htaken hr hg)⟩
end
